-- ==== Sys2Proof/Word.lean ====
section
/-! DEFINITION. The words of the engine: one name per width that 10_state.md gives a register or a field (rules R21 to R42).
Every quantity is unsigned (rule R11). -/

namespace Sys2Proof

/-- One byte of a buffer, one symbol, one bit-writer accumulator (rules R8, R26, R27, R39). -/
abbrev Byte := BitVec 8

/-- A 32-bit register or field: `CTRL`, `STATUS`, `M_HDR` (rules R21, R23, R33). -/
abbrev Word32 := BitVec 32

/-- A 64-bit register or field: `IN_LEN`, `ORIG`, counts and cursors (rules R24, R28, R30, R31, R40, R42). -/
abbrev Word64 := BitVec 64

/-- A node frequency, `NFREQ_W` = 72 bits (rules R8, R34, R96). -/
abbrev NodeFreq := BitVec 72

/-- An index into the node arena, 9 bits (rules R34 to R37, R41). -/
abbrev NodeIx := BitVec 9

/-- A code of the sequencer register `PHASE`, 4 bits (rules R22, R101). -/
abbrev PhaseCode := BitVec 4

end Sys2Proof
end

