-- ==== Sys2Proof/Config.lean ====
section
/-! DEFINITION. What an implementation fixes (rule R9), the constants of the specification (rule R8), and the values
the specification leaves open: constants without a body, so that nothing can be proved of their values. -/

namespace Sys2Proof

/-- The two parameters of rule R9: the capacities in bytes of the buffers IN and OUT; `none` is `unbounded`.
State carries one `Config`, which no step changes (log entry 1). -/
structure Config where
  inCap  : Option Nat
  outCap : Option Nat
  deriving DecidableEq, Repr

/-- Both capacities `unbounded`: the behaviour is then exactly what the source describes (rule R9). -/
def Config.unbounded : Config := { inCap := none, outCap := none }

/-- UNVERIFIED, a free value: the byte that address `a` of IN holds while nothing has written it since reset number
`epoch` (rules R26, R46, R271: unspecified, any value). Log entry 3. -/
opaque Config.inUnspecified (epoch a : Nat) : BitVec 8

/-- UNVERIFIED, a free value: the byte that address `a` of OUT holds where the specification gives it no value
(rules R27, R46, R240: unspecified, any value), drawn anew at every run's end and at every reset. Log entry 4. -/
opaque Config.outUnspecified (epoch a : Nat) : BitVec 8

/-- UNVERIFIED, a free value: at which moment of an operation that performs others the host's `draw`-th read of STATUS
falls (rules R22, R217, R272). Log entry 5. -/
opaque Config.phaseMoment (draw : Nat) : Nat

/-- `NNODE` = 511, the number of entries of the node arena (rules R8, R34). -/
def Config.nnode : Nat := 511

/-- `LEN_MAX` = 255, the greatest code length (rules R8, R143). -/
def Config.lenMax : Nat := 255

/-- `HDR_LEN` = 16, the bytes of magic, original length and count (rules R8, R85). -/
def Config.hdrLen : Nat := 16

/-- `ENT_LEN` = 9, the bytes of one frequency-table entry (rules R8, R86). -/
def Config.entLen : Nat := 9

/-- `MAGIC`, the bytes `48 55 46 31`, `H` first (rules R8, R82). -/
def Config.magic : List Byte := [0x48, 0x55, 0x46, 0x31]

end Sys2Proof
end

