-- ==== Sys2Proof/Syntax.lean ====
section
/-! DEFINITION. The operations of the engine: one constructor per row of spec/opcode_table.json, the two commands that a
write of `CTRL` starts (rule R100) and the sixteen codes of the sequencer register `PHASE` (rule R101).

No row has an operand field: the operand of PUTCODE (a symbol), the operand of WBIT (a bit) and the value RBIT returns
are passed in registers of State (log entry 6). -/

namespace Sys2Proof

inductive Instr where
  /-- `CTRL[1:0]` = 01 (rules R100, R212). -/
  | compress
  /-- `CTRL[1:0]` = 11 (rules R100, R215). -/
  | decompress
  /-- `PHASE` = 0: no operation since reset (rule R210). -/
  | idle
  /-- `PHASE` = 1: sets the working state, checks the input length (rule R211). -/
  | init
  /-- `PHASE` = 2: tallies the byte values of IN (rule R111). -/
  | fcount
  /-- `PHASE` = 3: parses header and table from IN (rule R190). -/
  | cparse
  /-- `PHASE` = 4: creates the leaves, seeds the queue (rule R123). -/
  | tseed
  /-- `PHASE` = 5: one merge (rule R126). -/
  | tmerge
  /-- `PHASE` = 6: fills the code table (rule R140). -/
  | cgen
  /-- `PHASE` = 7: writes header and table to OUT (rule R185). -/
  | cenc
  /-- `PHASE` = 8: writes the code of every input byte (rule R154). -/
  | pack
  /-- `PHASE` = 9: writes the bits of one code (rule R153). -/
  | putcode
  /-- `PHASE` = 10: writes one bit (rule R151). -/
  | wbit
  /-- `PHASE` = 11: appends the partial last byte (rule R152). -/
  | flush
  /-- `PHASE` = 12: decodes until `ORIG` symbols are emitted (rule R168). -/
  | dwalk
  /-- `PHASE` = 13: consumes one bit, moves one edge, may emit (rule R167). -/
  | dstep
  /-- `PHASE` = 14: reads one bit or reports exhaustion (rule R165). -/
  | rbit
  /-- `PHASE` = 15: the result is available (rules R101, R214). -/
  | done
  deriving DecidableEq, Repr

end Sys2Proof
end

