-- ==== Sys2Proof/WellFormed.lean ====
section
/-! DEFINITION. What is well-formed: an instruction, a word that stands for one, and a configuration. -/

namespace Sys2Proof

/-- Every instruction is well-formed: no row of the opcode table has an operand, so there is nothing to check
(rules R100, R101). -/
def Instr.wf : Instr → Bool
  | .compress | .decompress => true
  | .idle | .init | .fcount | .cparse | .tseed | .tmerge | .cgen | .cenc => true
  | .pack | .putcode | .wbit | .flush | .dwalk | .dstep | .rbit | .done => true

/-- The bytes that stand for an instruction: one byte that holds a 4-bit `PHASE` code (rule R101), or the four bytes of a
`CTRL` write, lowest first, whose bit 0 (`START`) is 1 (rules R66, R100). -/
def wfBytes : List Byte → Bool
  | [c] => decide (c.toNat < 16)
  | [b0, _, _, _] => b0.getLsbD 0
  | _ => false

/-- A capacity is a natural number at most 2^64 - 1, or `unbounded` (rule R9). -/
def capWf : Option Nat → Bool
  | none => true
  | some c => decide (c ≤ 2 ^ 64 - 1)

/-- Both capacities are in the range rule R9 gives them. -/
def Config.wf (c : Config) : Bool := capWf c.inCap && capWf c.outCap

end Sys2Proof
end

