-- ==== Sys2Proof/Decode.lean ====
section
/-! DEFINITION. The decoder, total on any bytes, and the encoder, both from the tables of rules R100 and R101. The engine fetches
no instructions from memory (rule R22): what it decodes is the word of a `CTRL` write and the code in `PHASE`. -/

namespace Sys2Proof

/-- Why a byte sequence is no instruction. -/
inductive DecodeError where
  /-- Neither one byte (a `PHASE` code) nor four (a `CTRL` write). -/
  | wrongLength
  /-- A byte above 15: `PHASE` has four bits (rule R22). -/
  | notAPhaseCode
  /-- A `CTRL` write with `START` = 0 starts nothing (rule R100). -/
  | startsNothing
  deriving DecidableEq, Repr

/-- The codes of rule R101 by name, for the statements `PHASE <- p` of rules R211 to R216 and R240. -/
abbrev Phase.idle : PhaseCode := 0
abbrev Phase.init : PhaseCode := 1
abbrev Phase.fcount : PhaseCode := 2
abbrev Phase.cparse : PhaseCode := 3
abbrev Phase.tseed : PhaseCode := 4
abbrev Phase.tmerge : PhaseCode := 5
abbrev Phase.cgen : PhaseCode := 6
abbrev Phase.cenc : PhaseCode := 7
abbrev Phase.pack : PhaseCode := 8
abbrev Phase.putcode : PhaseCode := 9
abbrev Phase.wbit : PhaseCode := 10
abbrev Phase.flush : PhaseCode := 11
abbrev Phase.dwalk : PhaseCode := 12
abbrev Phase.dstep : PhaseCode := 13
abbrev Phase.rbit : PhaseCode := 14
abbrev Phase.done : PhaseCode := 15

/-- Rule R101: all sixteen codes are used, none is reserved. -/
def decodePhase (c : PhaseCode) : Instr :=
  match c.toNat with
  | 0 => .idle
  | 1 => .init
  | 2 => .fcount
  | 3 => .cparse
  | 4 => .tseed
  | 5 => .tmerge
  | 6 => .cgen
  | 7 => .cenc
  | 8 => .pack
  | 9 => .putcode
  | 10 => .wbit
  | 11 => .flush
  | 12 => .dwalk
  | 13 => .dstep
  | 14 => .rbit
  | _ => .done

/-- Rule R100: bit 0 is `START`, bit 1 is `OP`, bits 31:2 are ignored. -/
def decodeCtrl (v : Word32) : Except DecodeError Instr :=
  if v.getLsbD 0 then
    if v.getLsbD 1 then .ok .decompress else .ok .compress
  else .error .startsNothing

/-- The 32-bit word of four bytes, lowest address first (rule R66). -/
def wordOfBytes (b0 b1 b2 b3 : Byte) : Word32 := b3 ++ b2 ++ b1 ++ b0

/-- The decoder: one byte is a `PHASE` code, four bytes are a `CTRL` write, anything else is rejected by name. -/
def decode : List Byte → Except DecodeError Instr
  | [c] => if c.toNat < 16 then .ok (decodePhase (c.setWidth 4)) else .error .notAPhaseCode
  | [b0, b1, b2, b3] => decodeCtrl (wordOfBytes b0 b1 b2 b3)
  | _ => .error .wrongLength

/-- `nbits / 8` bytes of a table word, bits 7:0 first. -/
def tableBytes : Nat → Nat → List Byte
  | 0, _ => []
  | n + 1, w => BitVec.ofNat 8 w :: tableBytes n (w / 256)

/-- The instruction the decoder reads from a table word: eight bits are a `PHASE` code, thirty-two a `CTRL` write (log entry 7). -/
def decodeTableWord (nbits w : Nat) : Option Instr :=
  match decode (tableBytes (nbits / 8) w) with
  | .ok i => some i
  | .error _ => none

/-- The `PHASE` code of an operation, rule R101; a command has none. -/
def phaseCode : Instr → Option PhaseCode
  | .compress => none
  | .decompress => none
  | .idle => some Phase.idle
  | .init => some Phase.init
  | .fcount => some Phase.fcount
  | .cparse => some Phase.cparse
  | .tseed => some Phase.tseed
  | .tmerge => some Phase.tmerge
  | .cgen => some Phase.cgen
  | .cenc => some Phase.cenc
  | .pack => some Phase.pack
  | .putcode => some Phase.putcode
  | .wbit => some Phase.wbit
  | .flush => some Phase.flush
  | .dwalk => some Phase.dwalk
  | .dstep => some Phase.dstep
  | .rbit => some Phase.rbit
  | .done => some Phase.done

/-- The encoder: the four bytes of the `CTRL` write that starts a command with bits 31:2 zero (rule R100), or the one byte
that holds an operation's `PHASE` code (rule R101). -/
def encode (i : Instr) : List Byte :=
  match phaseCode i with
  | some c => [c.setWidth 8]
  | none => if i = .compress then [1, 0, 0, 0] else [3, 0, 0, 0]

end Sys2Proof
end

