-- ==== Sys2Proof/Machine/State.lean ====
section
/-! DEFINITION. The state of the engine as plain data (10_state.md rules R20 to R42), the reasons a step can stop, and the state
after reset (rules R46, R260). Beside the specification's state stand the configuration of rule R9, the operand registers of
nested operations, the counters of the free values, and the host's pending moves and the answers it got (log entries 1, 6, 3, 2). -/

namespace Sys2Proof.Machine

/-- `STATUS.STATE`: 0 IDLE, 1 BUSY, 2 DONE (rule R23). The value 3 is never produced. -/
inductive RunState where
  | idle
  | busy
  | done
  deriving DecidableEq, Repr

/-- The failures of rule R230. -/
inductive Failure where
  /-- Code 1, rule R231. -/
  | inputEmpty
  /-- Code 2, rule R232. -/
  | headerInvalid
  /-- Code 3, rule R233. -/
  | headerTruncated
  /-- Code 4, rule R234. -/
  | bitstreamTruncated
  /-- Code 5, rule R235. -/
  | treeDegenerate
  /-- Code 6, rule R236. -/
  | placeholderReached
  /-- Code 7, rule R237. -/
  | capacityExceeded
  deriving DecidableEq, Repr

/-- `KIND` of an arena entry: 0 leaf, 1 internal (rule R34). -/
inductive NodeKind where
  | leaf
  | internal
  deriving DecidableEq, Repr

/-- One entry of the node arena (rule R34). -/
structure Node where
  kind  : NodeKind
  ph    : Bool
  sym   : Byte
  nfreq : NodeFreq
  left  : NodeIx
  right : NodeIx
  deriving DecidableEq, Repr

/-- One entry of the code table (rule R38): `BITS[k]` for `k < LEN` is bit `k` of the code, the branch at the root first. -/
structure Code where
  len  : BitVec 8
  bits : BitVec 255
  deriving DecidableEq, Repr

/-- A move of the host (rules R103, R270). -/
inductive HostMove where
  /-- `IN[a+j] <- bs[j]` for every `j`. -/
  | writeIn (a : Nat) (bs : List Byte)
  /-- `IN_LEN <- v`. -/
  | writeInLen (v : Word64)
  /-- A write of `CTRL`: a start request when bit 0 is 1. -/
  | writeCtrl (v : Word32)
  /-- A write of `STATUS`: ignored in every state (rules R23, R273). -/
  | writeStatus (v : Word32)
  /-- A write of `OUT_LEN`: ignored in every state (rules R25, R273). -/
  | writeOutLen (v : Word64)
  | readStatus
  | readCtrl
  | readInLen
  | readOutLen
  /-- Read the `n` bytes of IN from address `a`. -/
  | readIn (a n : Nat)
  /-- Read the `n` bytes of OUT from address `a`. -/
  | readOut (a n : Nat)
  /-- The script line `IN <- OUT`: copy the result to IN and write its length to `IN_LEN` (rule R103). -/
  | copyOutToIn
  /-- Assert reset (rules R260, R261). -/
  | reset
  deriving DecidableEq, Repr

/-- When a pending host move is made: after a number of further turns of the engine, or as soon as no run is in progress
(the script's "wait until STATUS.STATE = DONE", rule R103). -/
inductive Wait where
  | turns (n : Nat)
  | untilNotBusy
  deriving DecidableEq, Repr

/-- A pending host move and when it is made. -/
structure HostEvent where
  wait : Wait
  move : HostMove
  deriving DecidableEq, Repr

/-- What a host read returned. -/
inductive HostReply where
  | status (v : Word32)
  | ctrl (v : Word32)
  | inLen (v : Word64)
  | outLen (v : Nat)
  | inBytes (a : Nat) (bs : List Byte)
  | outBytes (a : Nat) (bs : List Byte)
  deriving DecidableEq, Repr

/-- Why the model stops where the specification gives an operation no effect. None of them is raised on a run that starts with
an accepted START; each is safe (the model stops where it says nothing). -/
inductive Fault where
  /-- Raised by TMERGE when `PQ` holds fewer than the two indices it requires, and by the sequencer when no index is left to be
  `ROOT` (rules R122, R126, R127). Safe. -/
  | queueUnderflow
  /-- Raised by TSEED, TMERGE and DSTEP when an arena index names none of the 511 entries (rule R34). Safe. -/
  | noSuchNode
  /-- Raised when an address of IN does not exist: by FCOUNT, CPARSE, PACK, RBIT, DSTEP and DWALK when `IN_LEN` exceeds `IN_CAP`
  (rules R62, R63), and by a host access past the end of IN. Safe. -/
  | inAddressAbsent
  /-- Raised when an address of OUT does not exist: by an Append past `OUT_CAP` (rules R64, R65) and by a host read past the end
  of OUT. Safe. -/
  | outAddressAbsent
  deriving DecidableEq, Repr

/-- Why the model declines to give a move or an instruction a meaning. -/
inductive Refusal where
  /-- Raised by `exec` for an instruction that has no meaning yet. Safe. -/
  | notModelled (mnemonic : String)
  /-- Raised by a host move that rules R270 and R273 put outside the protocol in the present `STATUS.STATE`. Safe: no statement
  about the run holds after such a move. -/
  | hostOutsideProtocol
  deriving DecidableEq, Repr

end Sys2Proof.Machine

namespace Sys2Proof.Machine

/-- The state (rule R20). -/
structure State where
  /-- `IN_CAP` and `OUT_CAP` (rule R9). -/
  cfg : Config
  /-- `CTRL.OP`: false COMPRESS, true DECOMPRESS (rule R21). `CTRL.START` always reads 0 and is not stored. -/
  ctrlOp : Bool
  /-- `STATUS.STATE` (rule R23). -/
  state : RunState
  /-- `STATUS.OK` (rule R23). -/
  ok : Bool
  /-- `STATUS.ERR` (rules R23, R230): `none` is 0. -/
  err : Option Failure
  /-- `STATUS.PHASE`, the sequencer register (rule R22). -/
  phase : PhaseCode
  /-- `IN_LEN` (rule R24). -/
  inLen : Word64
  /-- `OUT_LEN` (rule R25), a natural number (rule R97). -/
  outLen : Nat
  /-- The bytes of IN that something has written since reset (rule R26). -/
  inBuf : List Host.Cell
  /-- The bytes of OUT that have a specified value (rule R27). -/
  outBuf : List Host.Cell
  /-- `FREQ[0..255]` (rule R28). -/
  freq : Vector Word64 256
  /-- `PRESENT[0..255]` (rule R29). -/
  present : Vector Bool 256
  /-- `ORIG` (rule R30). -/
  orig : Word64
  /-- `IN_POS` (rule R31). -/
  inPos : Word64
  /-- `M` (rule R32). -/
  m : BitVec 9
  /-- `M_HDR` (rule R33). -/
  mHdr : Word32
  /-- `NODE[0..510]` (rule R34). -/
  node : Vector Node 511
  /-- `NN` (rule R35). -/
  nn : BitVec 9
  /-- `ROOT` (rule R36). -/
  root : NodeIx
  /-- `PQ`, a finite set of node indices: strictly ascending, so that equal sets are equal lists (rules R37, R44). -/
  pq : List NodeIx
  /-- `CODE[0..255]` (rule R38). -/
  code : Vector Code 256
  /-- `BW.ACC` (rule R39). -/
  bwAcc : BitVec 8
  /-- `BW.CUR` (rule R39). -/
  bwCur : BitVec 3
  /-- `BR.POS` (rule R40). -/
  brPos : Word64
  /-- `BR.CUR` (rule R40). -/
  brCur : BitVec 3
  /-- `WALK.CUR` (rule R41). -/
  walkCur : NodeIx
  /-- `EMITTED` (rule R42). -/
  emitted : Word64
  /-- The model's own: the operand `s` of PUTCODE (rule R153). -/
  opSym : Byte
  /-- The model's own: the operand `b` of WBIT (rule R151). -/
  opBit : Bool
  /-- The model's own: the value RBIT returned, `none` for EXHAUSTED (rules R165, R166). -/
  rbitVal : Option Bool
  /-- The model's own: how many resets there have been, for the free bytes of IN. -/
  inEpoch : Nat
  /-- The model's own: how often the unspecified bytes of OUT have been drawn anew. -/
  outEpoch : Nat
  /-- The model's own: how many reads of STATUS the host has made while BUSY. -/
  phaseDraws : Nat
  /-- The model's own: the host's moves still to come, the next one first (rule R15). -/
  host : List HostEvent
  /-- The model's own: what the host's reads returned, the last one first. -/
  replies : List HostReply
  deriving DecidableEq, Repr

/-- An arena entry as reset leaves it. DESIGN CHOICE (log entry 8): the specification leaves it unspecified. -/
def Node.zero : Node := { kind := .leaf, ph := false, sym := 0, nfreq := 0, left := 0, right := 0 }

/-- A code table entry as reset leaves it. DESIGN CHOICE (log entry 8): the specification leaves it unspecified. -/
def Code.zero : Code := { len := 0, bits := 0 }

/-- The machine right after reset (rules R46, R260). The working state is unspecified there; its values are a DESIGN CHOICE
(log entry 8), as are the two unbounded capacities (log entry 1). -/
def State.reset : State where
  cfg := Config.unbounded
  ctrlOp := false
  state := .idle
  ok := false
  err := none
  phase := Phase.idle
  inLen := 0
  outLen := 0
  inBuf := []
  outBuf := []
  freq := Vector.replicate 256 0
  present := Vector.replicate 256 false
  orig := 0
  inPos := 0
  m := 0
  mHdr := 0
  node := Vector.replicate 511 Node.zero
  nn := 0
  root := 0
  pq := []
  code := Vector.replicate 256 Code.zero
  bwAcc := 0
  bwCur := 0
  brPos := 0
  brCur := 0
  walkCur := 0
  emitted := 0
  opSym := 0
  opBit := false
  rbitVal := none
  inEpoch := 0
  outEpoch := 0
  phaseDraws := 0
  host := []
  replies := []

end Sys2Proof.Machine
end

