-- ==== Sys2Proof/Machine/Operands.lean ====
section
/-! DEFINITION. Everything an operation reads: bytes and fields of IN, table entries, arena entries, code bits, the next bit of the
bitstream (rules R62, R63, R94), and whether an address exists (rules R9, R62, R65). -/

namespace Sys2Proof

/-- Every address of IN up to `n` (exclusive) exists. An address has at most 64 bits (rule R60). -/
def Config.inHolds (c : Config) (n : Nat) : Bool :=
  match c.inCap with
  | none => decide (n ≤ 2 ^ 64)
  | some k => decide (n ≤ k)

/-- Every address of OUT up to `n` (exclusive) exists (rules R64, R97). -/
def Config.outHolds (c : Config) (n : Nat) : Bool :=
  match c.outCap with
  | none => true
  | some k => decide (n ≤ k)

end Sys2Proof

namespace Sys2Proof.Machine

/-- The byte a memory lists for an address; `none` where it lists none. -/
def Memory.read? : List Host.Cell → Nat → Option Byte
  | [], _ => none
  | c :: rest, a => if c.1 = a then some c.2 else Memory.read? rest a

/-- What an address of IN reads as when nothing has written it since reset: any value (rules R26, R271; log entry 3). -/
def State.inUnlisted (s : State) (a : Nat) : Byte := Config.inUnspecified s.inEpoch a

/-- What an address of OUT reads as where the specification gives it no value: any value (rule R27; log entry 4). -/
def State.outUnlisted (s : State) (a : Nat) : Byte := Config.outUnspecified s.outEpoch a

/-- `IN[a]` (rules R26, R60). -/
def State.readIn (s : State) (a : Nat) : Byte := (Memory.read? s.inBuf a).getD (s.inUnlisted a)

/-- `OUT[a]` (rules R27, R60). -/
def State.readOut (s : State) (a : Nat) : Byte := (Memory.read? s.outBuf a).getD (s.outUnlisted a)

/-- `IN[a .. a+n-1]`. -/
def State.readInBytes (s : State) : Nat → Nat → List Byte
  | _, 0 => []
  | a, n + 1 => s.readIn a :: s.readInBytes (a + 1) n

/-- `OUT[a .. a+n-1]`. -/
def State.readOutBytes (s : State) : Nat → Nat → List Byte
  | _, 0 => []
  | a, n + 1 => s.readOut a :: s.readOutBytes (a + 1) n

/-- The number a byte sequence stands for, bits 7:0 first (rule R66). -/
def leValue : List Byte → Nat
  | [] => 0
  | b :: bs => b.toNat + 2 ^ 8 * leValue bs

/-- `MemRead(IN, a, n)` (rule R63). -/
def State.memRead (s : State) (a n : Nat) : Nat := leValue (s.readInBytes a n)

/-- `IN_LEN <= IN_CAP` (rules R62, R211). -/
def State.inputFits (s : State) : Bool := s.cfg.inHolds s.inLen.toNat

/-- `FREQ[sym]` (rule R28). -/
def State.freqOf (s : State) (sym : Byte) : Word64 := s.freq[sym.toNat]'sym.isLt

/-- `PRESENT[sym]` (rule R29). -/
def State.isKey (s : State) (sym : Byte) : Bool := s.present[sym.toNat]'sym.isLt

/-- `CODE[sym]` (rule R38). -/
def State.codeOf (s : State) (sym : Byte) : Code := s.code[sym.toNat]'sym.isLt

/-- `NODE[i]`, if the arena has that entry (rule R34). -/
def State.nodeAt? (s : State) (i : NodeIx) : Option Node := s.node[i.toNat]?

/-- The 256 symbols in ascending order (rule R8). -/
def allSymbols : List Byte := (List.range 256).map (BitVec.ofNat 8)

/-- The keys of the frequency table in ascending order (rules R17, R123, R185). -/
def State.keys (s : State) : List Byte := allSymbols.filter s.isKey

/-- `NODE[i].NFREQ`. -/
def nfreqOf (node : Vector Node 511) (i : NodeIx) : Nat :=
  match node[i.toNat]? with
  | some n => n.nfreq.toNat
  | none => 0

/-- The order on nodes: by frequency, then by index (rule R121). -/
def lower (node : Vector Node 511) (i j : NodeIx) : Bool :=
  decide (nfreqOf node i < nfreqOf node j) ||
    (decide (nfreqOf node i = nfreqOf node j) && decide (i.toNat < j.toNat))

/-- `ENTRY[i].SYM` (rules R81, R94). -/
def State.entrySym (s : State) (i : Nat) : Byte := s.readIn (Config.hdrLen + Config.entLen * i)

/-- `ENTRY[i].FREQ` (rules R81, R94). -/
def State.entryFreq (s : State) (i : Nat) : Word64 :=
  BitVec.ofNat 64 (s.memRead (Config.hdrLen + 1 + Config.entLen * i) 8)

/-- The first four bytes of IN are the magic (rules R82, R190). -/
def State.magicMatches (s : State) : Bool := decide (s.readInBytes 0 4 = Config.magic)

/-- The bit reader is exhausted (rules R40, R165). -/
def State.exhausted (s : State) : Bool := decide (s.inLen.toNat ≤ s.brPos.toNat)

/-- `IN[BR.POS][BR.CUR]` (rules R67, R94, R165). -/
def State.streamBit (s : State) : Bool := (s.readIn s.brPos.toNat).getLsbD s.brCur.toNat

/-- How many bits the bit reader has left (rule R170). -/
def State.bitsLeft (s : State) : Nat := 8 * (s.inLen.toNat - s.brPos.toNat) - s.brCur.toNat

/-- The total number of code bits `B` (rules R88, R213). -/
def State.codeBits (s : State) : Nat := (s.keys.map fun k => (s.freqOf k).toNat * (s.codeOf k).len.toNat).sum

/-- `16 + 9*M + ceil(B / 8)`, the length of the container (rules R89, R213). -/
def State.containerLen (s : State) : Nat :=
  Config.hdrLen + Config.entLen * s.m.toNat + (s.codeBits + 7) / 8

/-- The codes of rule R101 that a read of `PHASE` may return while the operation of a code is in progress: its own, and those of
the operations it performs (rules R22, R217). -/
def codesDuring (p : PhaseCode) : List PhaseCode :=
  if p = Phase.pack then [Phase.pack, Phase.putcode, Phase.wbit]
  else if p = Phase.putcode then [Phase.putcode, Phase.wbit]
  else if p = Phase.dwalk then [Phase.dwalk, Phase.dstep, Phase.rbit]
  else if p = Phase.dstep then [Phase.dstep, Phase.rbit]
  else [p]

/-- The `PHASE` code that the host's next read of STATUS sees: while BUSY, one of the codes of the operation in progress, at a
moment the specification leaves open (rules R22, R272; log entry 5). -/
def State.phaseSeen (s : State) : PhaseCode :=
  if s.state = .busy then
    match codesDuring s.phase with
    | [c] => c
    | cs => cs.getD (Config.phaseMoment s.phaseDraws % cs.length) s.phase
  else s.phase

end Sys2Proof.Machine
end

