-- ==== Sys2Proof/Machine/Flags.lean ====
section
/-! DEFINITION. The one-bit state and the status fields (rule R43): the `PRESENT` bits with the key count `M`, and how the fields of
`STATUS` and `CTRL` stand in their words (rules R21, R23, R230). -/

namespace Sys2Proof.Machine

/-- The number `STATUS.ERR` holds for a failure (rule R230). -/
def Failure.code : Failure → BitVec 4
  | .inputEmpty => 1
  | .headerInvalid => 2
  | .headerTruncated => 3
  | .bitstreamTruncated => 4
  | .treeDegenerate => 5
  | .placeholderReached => 6
  | .capacityExceeded => 7

/-- `STATUS[7:4]`: 0 where there is no failure (rule R23). -/
def errBits : Option Failure → BitVec 4
  | none => 0
  | some f => f.code

/-- `STATUS[1:0]` (rule R23). -/
def RunState.bits : RunState → BitVec 2
  | .idle => 0
  | .busy => 1
  | .done => 2

/-- The word a read of `STATUS` returns when its `PHASE` field reads as `p` (rule R23). -/
def State.statusWord (s : State) (p : PhaseCode) : Word32 :=
  (0 : BitVec 20) ++ p ++ errBits s.err ++ (0 : BitVec 1) ++ BitVec.ofBool s.ok ++ s.state.bits

/-- The word a read of `CTRL` returns: `START` and the reserved bits read 0 (rule R21). -/
def State.ctrlWord (s : State) : Word32 := (0 : BitVec 30) ++ BitVec.ofBool s.ctrlOp ++ (0 : BitVec 1)

/-- `if PRESENT[sym] = 0: PRESENT[sym] <- 1; M <- M + 1` (rules R111, R190). -/
def State.markKey (s : State) (sym : Byte) : State :=
  if s.isKey sym then s
  else { s with present := s.present.set sym.toNat true sym.isLt, m := s.m + 1 }

/-- `FREQ[sym] <- v` (rules R111, R190). -/
def State.setFreq (s : State) (sym : Byte) (v : Word64) : State :=
  { s with freq := s.freq.set sym.toNat v sym.isLt }

end Sys2Proof.Machine
end

