-- ==== Sys2Proof/Machine/Ops.lean ====
section
/-! DEFINITION. The named operations over memory and registers that the meanings share: memory writes, `Append`, the queue, `raise` and the
two exits of a run (rules R214, R240), nesting (rule R217), and the sequencer's moves from one operation to the next (rules R212, R215). -/

namespace Sys2Proof.Machine

/-- How a part of an operation ends: it goes on, it raises a failure (rule R13, `raise`), or the model stops. -/
inductive Flow where
  | ok (s : State)
  | raised (f : Failure) (s : State)
  | stopped (r : Fault)
  deriving DecidableEq, Repr

/-- `a; b`: nothing after a `raise` is performed (rules R13, R240). -/
def Flow.andThen (a : Flow) (b : State → Flow) : Flow :=
  match a with
  | .ok s => b s
  | .raised f s => .raised f s
  | .stopped r => .stopped r

/-- `for x in xs: body x` (rule R13). -/
def Flow.each {α : Type} (body : α → State → Flow) : List α → State → Flow
  | [], s => .ok s
  | x :: xs, s => (body x s).andThen (Flow.each body xs)

/-- A memory in canonical form: addresses strictly rising (log entry 9). -/
abbrev Memory.wf (m : List Host.Cell) : Prop := m.Pairwise fun c d => c.1 < d.1

/-- One byte written, the canonical form kept. -/
def Memory.write : List Host.Cell → Nat → Byte → List Host.Cell
  | [], a, v => [(a, v)]
  | c :: rest, a, v =>
    if a < c.1 then (a, v) :: c :: rest
    else if a = c.1 then (a, v) :: rest
    else c :: Memory.write rest a v

/-- Bytes written at consecutive addresses. -/
def Memory.writeBytes : List Host.Cell → Nat → List Byte → List Host.Cell
  | m, _, [] => m
  | m, a, b :: bs => Memory.writeBytes (Memory.write m a b) (a + 1) bs

/-- The cells below an address. -/
def Memory.below (m : List Host.Cell) (n : Nat) : List Host.Cell := m.filter fun c => decide (c.1 < n)

/-- The `n` bytes of a number, bits 7:0 first (rules R64, R66). -/
def leBytes : Nat → Nat → List Byte
  | 0, _ => []
  | n + 1, v => BitVec.ofNat 8 v :: leBytes n (v / 2 ^ 8)

/-- `Append` of a byte sequence: written at `OUT_LEN`, which moves past it (rules R64, R65). -/
def State.append (s : State) (bs : List Byte) : Flow :=
  if s.cfg.outHolds (s.outLen + bs.length) then
    .ok { s with outBuf := Memory.writeBytes s.outBuf s.outLen bs, outLen := s.outLen + bs.length }
  else .stopped .outAddressAbsent

/-- From address `n` on, OUT has no specified value any more (rules R27, R240; log entry 4). -/
def State.forgetOutFrom (s : State) (n : Nat) : State :=
  { s with outBuf := Memory.below s.outBuf n, outEpoch := s.outEpoch + 1 }

/-- The failure exit (rule R240). The working state, IN, `IN_LEN` and `CTRL.OP` stay as they were at the `raise`. -/
def State.failureExit (s : State) (f : Failure) : State :=
  { s with outLen := 0, phase := Phase.done, ok := false, err := some f, state := .done }.forgetOutFrom 0

/-- The success exit (rule R214). Beyond `OUT_LEN` OUT has no specified value (rule R27). -/
def State.successExit (s : State) : State :=
  { s with phase := Phase.done, err := none, ok := true, state := .done }.forgetOutFrom s.outLen

/-- An operation's end as a step's outcome: a `raise` takes the failure exit (rule R240). -/
def Flow.outcome : Flow → Host.Outcome State Fault Refusal
  | .ok s => .next s
  | .raised f s => .next (s.failureExit f)
  | .stopped r => .fault r

/-- `PHASE <- p`, the engine's only control transfer (rule R13). -/
def State.goto (s : State) (p : PhaseCode) : State := { s with phase := p }

/-- One operation performs another: `PHASE` takes the inner code for its duration and returns to the outer one (rule R217). -/
def nested (inner outer : PhaseCode) (op : State → Flow) (s : State) : Flow :=
  (op (s.goto inner)).andThen fun t => .ok (t.goto outer)

/-- An operation that reads IN finds all of `IN[0 .. IN_LEN-1]` there (rule R62). -/
def withInput (op : State → Flow) (s : State) : Flow :=
  if s.inputFits then op s else .stopped .inAddressAbsent

/-- Bit `k` of `v` set or cleared. -/
def setBit {w : Nat} (v : BitVec w) (k : Nat) (b : Bool) : BitVec w :=
  let one : BitVec w := BitVec.ofNat w 1 <<< k
  if b then v ||| one else v &&& ~~~one

/-- `PQ with i inserted` (rule R37): strictly ascending, no repeats. -/
def pqInsert (i : NodeIx) : List NodeIx → List NodeIx
  | [] => [i]
  | j :: rest =>
    if i.toNat < j.toNat then i :: j :: rest
    else if i.toNat = j.toNat then j :: rest
    else j :: pqInsert i rest

/-- The lowest of a set of nodes in the order of rule R121. -/
def lowest (node : Vector Node 511) : List NodeIx → Option NodeIx
  | [] => none
  | i :: rest =>
    match lowest node rest with
    | none => some i
    | some j => if lower node i j then some i else some j

/-- `extract_min(PQ)` (rule R122): the lowest element and the set without it. -/
def extractMin (node : Vector Node 511) (pq : List NodeIx) : Option (NodeIx × List NodeIx) :=
  (lowest node pq).map fun a => (a, pq.filter fun i => !decide (i = a))

/-- `NODE[NN] <- n; PQ <- PQ with NN inserted; NN <- NN + 1` (rules R123, R126). -/
def State.addNode (s : State) (n : Node) : Flow :=
  if h : s.nn.toNat < 511 then
    .ok { s with node := s.node.set s.nn.toNat n h, pq := pqInsert s.nn s.pq, nn := s.nn + 1 }
  else .stopped .noSuchNode

/-- An accepted START (rule R210); while BUSY the write is ignored in full (rule R273). The sequence's first operation is INIT,
whose first statement is `PHASE <- 1` (rule R211). -/
def State.start (s : State) (op : Bool) : State :=
  if s.state = .busy then s
  else { s with ctrlOp := op, state := .busy, ok := false, err := none, phase := Phase.init }

/-- After INIT: COMPRESS refuses an empty input and counts, DECOMPRESS parses (rules R212, R215). -/
def afterInit (s : State) : Flow :=
  if s.ctrlOp then .ok (s.goto Phase.cparse)
  else if s.inLen = 0 then .raised .inputEmpty s
  else .ok (s.goto Phase.fcount)

/-- After FCOUNT and CPARSE the tree is seeded (rules R212, R215). -/
def afterTable (s : State) : Flow := .ok (s.goto Phase.tseed)

/-- `while PQ holds 2 or more indices: PHASE <- 5; TMERGE`, then `ROOT <- the one index in PQ; PHASE <- 6` (rules R127, R212, R215). -/
def afterQueue (s : State) : Flow :=
  match s.pq with
  | [] => .stopped .queueUnderflow
  | [r] => .ok ({ s with root := r }.goto Phase.cgen)
  | _ :: _ :: _ => .ok (s.goto Phase.tmerge)

/-- After CGEN the size check of the command (rules R213, R216), then CENC or DWALK. -/
def afterCodes (s : State) : Flow :=
  if s.ctrlOp then
    if s.cfg.outHolds s.orig.toNat then .ok (s.goto Phase.dwalk) else .raised .capacityExceeded s
  else
    if s.cfg.outHolds s.containerLen then .ok (s.goto Phase.cenc) else .raised .capacityExceeded s

/-- After CENC the bitstream is packed (rule R212). -/
def afterHeader (s : State) : Flow := .ok (s.goto Phase.pack)

/-- After PACK the last byte is flushed (rule R212). -/
def afterPack (s : State) : Flow := .ok (s.goto Phase.flush)

/-- After FLUSH and DWALK the run ends in success (rules R212, R214, R215). -/
def afterOutput (s : State) : Flow := .ok s.successExit

/-- The operation the engine performs next: the one `PHASE` names while a run is in progress (rules R15, R22), else none, which is
what IDLE and DONE stand for (rule R210). -/
def fetch (s : State) : Instr :=
  match s.state with
  | .busy => decodePhase s.phase
  | .idle => .idle
  | .done => .done

end Sys2Proof.Machine
end

