-- ==== Sys2Proof/Machine/CodeTable.lean ====
section
/-! DEFINITION. The Code Table Generator (42_code_table_generator.md). -/

namespace Sys2Proof.Machine

/-- `BITS[k] <- path[k]` from bit `k` on; the bits past the path keep what they hold (rules R38, R140). -/
def writePath (bits : BitVec 255) : Nat → List Bool → BitVec 255
  | _, [] => bits
  | k, b :: bs => writePath (setBit bits k b) (k + 1) bs

/-- `CODE[sym]` takes a path (rule R140); the empty path is replaced by "0" (rule R142). -/
def setCode (code : Vector Code 256) (sym : Byte) (path : List Bool) : Vector Code 256 :=
  let p := if path = [] then [false] else path
  let old := code[sym.toNat]'sym.isLt
  code.set sym.toNat { len := BitVec.ofNat 8 p.length, bits := writePath old.bits 0 p } sym.isLt

/-- `visit(i, path)` (rule R140), `none` for a malformed tree: an index outside the arena, or a path longer than the first
argument lets it grow (rules R142 to R144). -/
def visit (node : Vector Node 511) : Nat → NodeIx → List Bool → Vector Code 256 → Option (Vector Code 256)
  | 0, _, _, _ => none
  | n + 1, i, path, code =>
    match node[i.toNat]? with
    | none => none
    | some x =>
      match x.kind with
      | .leaf => if x.ph then some code else some (setCode code x.sym path)
      | .internal => (visit node n x.left (path ++ [false]) code).bind (visit node n x.right (path ++ [true]))

/-- CGEN (rule R140). A path has at most `LEN_MAX` = 255 bits (rule R143). A malformed tree, which no run reaches, fails with
TreeDegenerate, the outcome 93_implementation_defined.md U15 allows (log entry 10). -/
def cgenOp (s : State) : Flow :=
  match visit s.node (Config.lenMax + 1) s.root [] s.code with
  | some code => .ok { s with code := code }
  | none => .raised .treeDegenerate s

/-- CGEN in its sequence (rules R140, R212, R213, R215, R216). -/
def execCgen (s : State) : Host.Outcome State Fault Refusal := ((cgenOp s).andThen afterCodes).outcome

end Sys2Proof.Machine
end

