-- ==== Sys2Proof/Machine/Formatter.lean ====
section
/-! DEFINITION. The container formatter (45_container_formatter.md). -/

namespace Sys2Proof.Machine

/-- Magic, original length and count, as CENC writes them (rules R81, R185). -/
def State.headerBytes (s : State) : List Byte :=
  Config.magic ++ leBytes 8 s.orig.toNat ++ leBytes 4 s.m.toNat

/-- One frequency-table entry (rules R86, R185). -/
def State.entryBytes (s : State) (sym : Byte) : List Byte := sym :: leBytes 8 (s.freqOf sym).toNat

/-- The entries of the keys in ascending order of symbol (rules R87, R185). -/
def State.tableBytes (s : State) : List Byte := s.keys.flatMap s.entryBytes

/-- CENC (rule R185): its Appends are back to back, so they are one Append of their bytes. -/
def cencOp (s : State) : Flow :=
  let t := { s with orig := s.inLen }
  t.append (t.headerBytes ++ t.tableBytes)

/-- CENC in its sequence (rules R185, R212). -/
def execCenc (s : State) : Host.Outcome State Fault Refusal := ((cencOp s).andThen afterHeader).outcome

/-- One entry read (rules R190, R193). -/
def parseEntry (s : State) (i : Nat) : State := (s.markKey (s.entrySym i)).setFreq (s.entrySym i) (s.entryFreq i)

/-- `n` entries from entry `i` on, ascending (rule R190). -/
def parseEntries : Nat → Nat → State → State
  | 0, _, s => s
  | n + 1, i, s => parseEntries n (i + 1) (parseEntry s i)

/-- The length of header and table that COUNT claims, a natural number (rules R97, R192). -/
def State.tableEnd (s : State) : Nat := Config.hdrLen + Config.entLen * s.mHdr.toNat

/-- CPARSE (rule R190, steps 1 to 5). -/
def cparseOp (s : State) : Flow :=
  if s.inLen.toNat < 4 then .raised .headerTruncated s
  else if !s.magicMatches then .raised .headerInvalid s
  else if s.inLen.toNat < Config.hdrLen then .raised .headerTruncated s
  else
    let t := { s with orig := BitVec.ofNat 64 (s.memRead 4 8), mHdr := BitVec.ofNat 32 (s.memRead 12 4) }
    if t.inLen.toNat < t.tableEnd then .raised .headerTruncated t
    else .ok { parseEntries t.mHdr.toNat 0 t with brPos := BitVec.ofNat 64 t.tableEnd, brCur := 0 }

/-- CPARSE in its sequence (rules R190, R215). -/
def execCparse (s : State) : Host.Outcome State Fault Refusal := ((withInput cparseOp s).andThen afterTable).outcome

end Sys2Proof.Machine
end

