-- ==== Sys2Proof/Machine/FrequencyCounter.lean ====
section
/-! DEFINITION. The Frequency Counter (40_frequency_counter.md). -/

namespace Sys2Proof.Machine

/-- One turn of FCOUNT's loop (rule R111). -/
def countByte (s : State) : State :=
  let sym := s.readIn s.inPos.toNat
  let t := s.markKey sym
  { t.setFreq sym (t.freqOf sym + 1) with inPos := s.inPos + 1 }

/-- `while IN_POS < IN_LEN`, at most as often as the first argument says. -/
def countLoop : Nat → State → State
  | 0, s => s
  | n + 1, s => if s.inPos < s.inLen then countLoop n (countByte s) else s

/-- FCOUNT (rule R111). -/
def fcountOp (s : State) : Flow := .ok (countLoop s.inLen.toNat { s with inPos := 0 })

/-- FCOUNT in its sequence (rules R111, R212). -/
def execFcount (s : State) : Host.Outcome State Fault Refusal := ((withInput fcountOp s).andThen afterTable).outcome

end Sys2Proof.Machine
end

