-- ==== Sys2Proof/Machine/Packer.lean ====
section
/-! DEFINITION. The bit-stream packer (43_bit_packer.md). -/

namespace Sys2Proof.Machine

/-- WBIT of the operand register's bit (rule R151). -/
def wbitOp (s : State) : Flow :=
  let acc := setBit s.bwAcc s.bwCur.toNat s.opBit
  if s.bwCur = 7 then
    (s.append [acc]).andThen fun t => .ok { t with bwAcc := 0, bwCur := 0 }
  else .ok { s with bwAcc := acc, bwCur := s.bwCur + 1 }

/-- FLUSH (rule R152). -/
def flushOp (s : State) : Flow :=
  if s.bwCur = 0 then .ok s
  else (s.append [s.bwAcc]).andThen fun t => .ok { t with bwAcc := 0, bwCur := 0 }

/-- PUTCODE of the operand register's symbol: the branch at the root first (rule R153). -/
def putcodeOp (s : State) : Flow :=
  let c := s.codeOf s.opSym
  Flow.each (fun k t => nested Phase.wbit Phase.putcode wbitOp { t with opBit := c.bits.getLsbD k }) (List.range c.len.toNat) s

/-- One turn of PACK's loop (rule R154). -/
def packByte (s : State) : Flow :=
  (nested Phase.putcode Phase.pack putcodeOp { s with opSym := s.readIn s.inPos.toNat }).andThen fun t =>
    .ok { t with inPos := t.inPos + 1 }

/-- `while IN_POS < IN_LEN`, at most as often as the first argument says. -/
def packLoop : Nat → State → Flow
  | 0, s => .ok s
  | n + 1, s => if s.inPos < s.inLen then (packByte s).andThen (packLoop n) else .ok s

/-- PACK, the second pass over IN (rule R154). -/
def packOp (s : State) : Flow := packLoop s.inLen.toNat { s with inPos := 0 }

/-- PACK in its sequence (rules R154, R212). -/
def execPack (s : State) : Host.Outcome State Fault Refusal := ((withInput packOp s).andThen afterPack).outcome

/-- PUTCODE, then back in PACK (rules R153, R217). -/
def execPutcode (s : State) : Host.Outcome State Fault Refusal :=
  (nested Phase.putcode Phase.pack putcodeOp s).outcome

/-- WBIT, then back in PUTCODE (rules R151, R217). -/
def execWbit (s : State) : Host.Outcome State Fault Refusal := (nested Phase.wbit Phase.putcode wbitOp s).outcome

/-- FLUSH in its sequence: the run ends in success (rules R152, R212, R214). -/
def execFlush (s : State) : Host.Outcome State Fault Refusal := ((flushOp s).andThen afterOutput).outcome

end Sys2Proof.Machine
end

