-- ==== Sys2Proof/Machine/Sequencer.lean ====
section
/-! DEFINITION. The sequencer: the two commands, IDLE, INIT and DONE (46_commands.md rules R210 to R216). A command begins its sequence;
the operations of the sequence follow one a step. -/

namespace Sys2Proof.Machine

/-- COMPRESS: the START is accepted and the sequence of rule R212 begins (rules R210, R212). -/
def execCompress (s : State) : Host.Outcome State Fault Refusal := .next (s.start false)

/-- DECOMPRESS: the START is accepted and the sequence of rule R215 begins (rules R210, R215). -/
def execDecompress (s : State) : Host.Outcome State Fault Refusal := .next (s.start true)

/-- IDLE: no operation (rules R101, R210). -/
def execIdle (s : State) : Host.Outcome State Fault Refusal := .next s

/-- The working state INIT sets (rule R211). `NODE` entries and `CODE[s].BITS` keep what they hold. -/
def initWork (s : State) : State :=
  { s with
    phase := Phase.init
    outLen := 0
    freq := Vector.replicate 256 0
    present := Vector.replicate 256 false
    code := s.code.map fun c => { c with len := 0 }
    m := 0
    mHdr := 0
    orig := 0
    inPos := 0
    nn := 0
    root := 0
    pq := []
    bwAcc := 0
    bwCur := 0
    brPos := 0
    brCur := 0
    walkCur := 0
    emitted := 0 }

/-- `IN_LEN > IN_CAP` (rule R211); never with `IN_CAP` unbounded. -/
def initOp (s : State) : Flow :=
  let t := initWork s
  if t.inputFits then .ok t else .raised .capacityExceeded t

/-- INIT (rule R211). -/
def execInit (s : State) : Host.Outcome State Fault Refusal := ((initOp s).andThen afterInit).outcome

/-- DONE: no operation, the result is available (rules R101, R210); a run that has come to it takes the success exit (rule R214). -/
def execDone (s : State) : Host.Outcome State Fault Refusal :=
  if s.state = .busy then .next s.successExit else .next s

end Sys2Proof.Machine
end

