-- ==== Sys2Proof/Machine/TreeBuilder.lean ====
section
/-! DEFINITION. The Huffman Tree Builder (41_tree_builder.md). -/

namespace Sys2Proof.Machine

/-- The leaf of a key (rule R123). -/
def State.leafFor (s : State) (sym : Byte) : Node :=
  { kind := .leaf, ph := false, sym := sym, nfreq := (s.freqOf sym).setWidth 72, left := 0, right := 0 }

/-- The placeholder leaf (rule R125). -/
def placeholder : Node := { kind := .leaf, ph := true, sym := 0, nfreq := 0, left := 0, right := 0 }

/-- An internal node: its frequency is the exact sum of its children's (rules R96, R126). -/
def parentOf (node : Vector Node 511) (a b : NodeIx) : Node :=
  { kind := .internal, ph := false, sym := 0, nfreq := BitVec.ofNat 72 (nfreqOf node a + nfreqOf node b), left := a, right := b }

/-- `single_symbol_root` (rule R125): the root is made directly, the real leaf on its left. -/
def singleSymbolRoot (s : State) : State :=
  let root : Node := { kind := .internal, ph := false, sym := 0, nfreq := (s.node[0]).nfreq, left := 0, right := 1 }
  { s with node := (s.node.set 1 placeholder).set 2 root, nn := 3, pq := [2] }

/-- TSEED (rule R123). -/
def tseedOp (s : State) : Flow :=
  if s.m = 0 then .raised .treeDegenerate s
  else
    (Flow.each (fun sym t => t.addNode (t.leafFor sym)) s.keys s).andThen fun t =>
      if t.m = 1 then .ok (singleSymbolRoot t) else .ok t

/-- TMERGE (rule R126): the lowest node becomes the left child, the lowest of the rest the right. -/
def tmergeOp (s : State) : Flow :=
  if s.pq.all fun i => decide (i.toNat < 511) then
    match extractMin s.node s.pq with
    | none => .stopped .queueUnderflow
    | some (a, pq1) =>
      match extractMin s.node pq1 with
      | none => .stopped .queueUnderflow
      | some (b, pq2) => { s with pq := pq2 }.addNode (parentOf s.node a b)
  else .stopped .noSuchNode

/-- TSEED in its sequence (rules R123, R127, R212, R215). -/
def execTseed (s : State) : Host.Outcome State Fault Refusal := ((tseedOp s).andThen afterQueue).outcome

/-- TMERGE in its sequence (rules R126, R127, R212, R215). -/
def execTmerge (s : State) : Host.Outcome State Fault Refusal := ((tmergeOp s).andThen afterQueue).outcome

end Sys2Proof.Machine
end

