-- ==== Sys2Proof/Machine/Unpacker.lean ====
section
/-! DEFINITION. The bit-stream unpacker (44_bit_unpacker.md). -/

namespace Sys2Proof.Machine

/-- RBIT (rules R165, R166): at the end of the buffer it returns EXHAUSTED and moves nothing. -/
def rbitOp (s : State) : Flow :=
  if s.exhausted then .ok { s with rbitVal := none }
  else if s.brCur = 7 then .ok { s with rbitVal := some s.streamBit, brCur := 0, brPos := s.brPos + 1 }
  else .ok { s with rbitVal := some s.streamBit, brCur := s.brCur + 1 }

/-- The child a bit selects: 0 left, 1 right (rule R167). -/
def Node.child (x : Node) (b : Bool) : NodeIx := if b then x.right else x.left

/-- `NODE[n]` is reached: a real leaf emits its symbol and the walk is back at the root, the placeholder is a failure, an
internal node is where the walk stands (rules R167, R169). -/
def arrive (s : State) (n : NodeIx) : Flow :=
  match s.nodeAt? n with
  | none => .stopped .noSuchNode
  | some x =>
    match x.kind with
    | .internal => .ok { s with walkCur := n }
    | .leaf =>
      if x.ph then .raised .placeholderReached s
      else (s.append [x.sym]).andThen fun t => .ok { t with emitted := t.emitted + 1, walkCur := t.root }

/-- DSTEP (rule R167). -/
def dstepOp (s : State) : Flow :=
  (nested Phase.rbit Phase.dstep rbitOp s).andThen fun t =>
    match t.rbitVal with
    | none => .raised .bitstreamTruncated t
    | some b =>
      match t.nodeAt? t.walkCur with
      | none => .stopped .noSuchNode
      | some c => arrive t (c.child b)

/-- `while EMITTED < ORIG`, at most as often as the first argument says. -/
def dwalkLoop : Nat → State → Flow
  | 0, s => .ok s
  | n + 1, s =>
    if s.emitted < s.orig then (nested Phase.dstep Phase.dwalk dstepOp s).andThen (dwalkLoop n) else .ok s

/-- DWALK (rule R168). Every DSTEP takes a bit or fails, so one turn more than there are bits is enough (rule R170). -/
def dwalkOp (s : State) : Flow := dwalkLoop (s.bitsLeft + 1) { s with walkCur := s.root }

/-- DWALK in its sequence: the run ends in success (rules R168, R214, R215). -/
def execDwalk (s : State) : Host.Outcome State Fault Refusal := ((withInput dwalkOp s).andThen afterOutput).outcome

/-- DSTEP, then back in DWALK (rules R167, R217). -/
def execDstep (s : State) : Host.Outcome State Fault Refusal :=
  (withInput (nested Phase.dstep Phase.dwalk dstepOp) s).outcome

/-- RBIT, then back in DSTEP (rules R165, R217). -/
def execRbit (s : State) : Host.Outcome State Fault Refusal :=
  (withInput (nested Phase.rbit Phase.dstep rbitOp) s).outcome

end Sys2Proof.Machine
end

