-- ==== Sys2Proof/Machine/Dispatch.lean ====
section
/-! DEFINITION. One arm per instruction: its meaning. -/

namespace Sys2Proof.Machine

def exec (i : Instr) (s : State) : Host.Outcome State Fault Refusal :=
  match i with
  | .compress => Sys2Proof.Machine.execCompress s
  | .decompress => Sys2Proof.Machine.execDecompress s
  | .idle => Sys2Proof.Machine.execIdle s
  | .init => Sys2Proof.Machine.execInit s
  | .fcount => Sys2Proof.Machine.execFcount s
  | .cparse => Sys2Proof.Machine.execCparse s
  | .tseed => Sys2Proof.Machine.execTseed s
  | .tmerge => Sys2Proof.Machine.execTmerge s
  | .cgen => Sys2Proof.Machine.execCgen s
  | .cenc => Sys2Proof.Machine.execCenc s
  | .pack => Sys2Proof.Machine.execPack s
  | .putcode => Sys2Proof.Machine.execPutcode s
  | .wbit => Sys2Proof.Machine.execWbit s
  | .flush => Sys2Proof.Machine.execFlush s
  | .dwalk => Sys2Proof.Machine.execDwalk s
  | .dstep => Sys2Proof.Machine.execDstep s
  | .rbit => Sys2Proof.Machine.execRbit s
  | .done => Sys2Proof.Machine.execDone s

end Sys2Proof.Machine
end

