-- ==== Sys2Proof/Machine/HostPort.lean ====
section
/-! DEFINITION. The host's moves (70_reset_and_hazards.md rules R270 to R276) and whose turn it is: the host's next move when it is due,
else the engine's operation. -/

namespace Sys2Proof.Machine

/-- What a turn comes to: an operation to perform, or the turn's end. -/
inductive Turn where
  | run (i : Instr) (s : State)
  | ended (o : Host.Outcome State Fault Refusal)

/-- A move that rule R270 allows only where `allowed` holds. -/
def guarded (allowed : Bool) (o : Host.Outcome State Fault Refusal) : Host.Outcome State Fault Refusal :=
  if allowed then o else .refused .hostOutsideProtocol

/-- No run is in progress. -/
def State.notBusy (s : State) : Bool := !decide (s.state = .busy)

/-- `IN[a+j] <- bs[j]` (rule R270). -/
def hostWriteIn (s : State) (a : Nat) (bs : List Byte) : Host.Outcome State Fault Refusal :=
  if s.cfg.inHolds (a + bs.length) then .next { s with inBuf := Memory.writeBytes s.inBuf a bs }
  else .fault .inAddressAbsent

/-- A write of `CTRL` with `START` = 0: `CTRL.OP <-` bit 1, but nothing while BUSY (rules R21, R270, R273). -/
def hostSetOp (s : State) (v : Word32) : State :=
  if s.state = .busy then s else { s with ctrlOp := v.getLsbD 1 }

/-- The answer a host read gets. -/
def State.reply (s : State) (r : HostReply) : State := { s with replies := r :: s.replies }

/-- A read of `STATUS` (rules R23, R272). While BUSY it draws the moment it falls at (log entry 5). -/
def hostReadStatus (s : State) : State :=
  let t := s.reply (.status (s.statusWord s.phaseSeen))
  if s.state = .busy then { t with phaseDraws := t.phaseDraws + 1 } else t

/-- A read of bytes of IN (rule R270). -/
def hostReadIn (s : State) (a n : Nat) : Host.Outcome State Fault Refusal :=
  if s.cfg.inHolds (a + n) then .next (s.reply (.inBytes a (s.readInBytes a n))) else .fault .inAddressAbsent

/-- A read of bytes of OUT (rule R270). -/
def hostReadOut (s : State) (a n : Nat) : Host.Outcome State Fault Refusal :=
  if s.cfg.outHolds (a + n) then .next (s.reply (.outBytes a (s.readOutBytes a n))) else .fault .outAddressAbsent

/-- `IN <- OUT` of the script notation (rule R103): the result copied to IN, its length written to `IN_LEN`, which has 64 bits. -/
def hostCopyOutToIn (s : State) : Host.Outcome State Fault Refusal :=
  if s.outLen < 2 ^ 64 then
    if s.cfg.inHolds s.outLen then
      .next { s with inBuf := Memory.writeBytes s.inBuf 0 (s.readOutBytes 0 s.outLen), inLen := BitVec.ofNat 64 s.outLen }
    else .fault .inAddressAbsent
  else .fault .inAddressAbsent

/-- Reset asserted and released (rules R260, R261): the state of rule R46. The parameters, the host's own moves and answers stay;
unspecified bytes are drawn anew. -/
def hostReset (s : State) : State :=
  { State.reset with
    cfg := s.cfg
    inEpoch := s.inEpoch + 1
    outEpoch := s.outEpoch + 1
    phaseDraws := s.phaseDraws
    host := s.host
    replies := s.replies }

/-- The host makes a move (rule R270). A write of `CTRL` whose word is a command is performed as that command. -/
def hostMove (m : HostMove) (s : State) : Turn :=
  match m with
  | .writeIn a bs => .ended (guarded s.notBusy (hostWriteIn s a bs))
  | .writeInLen v => .ended (guarded s.notBusy (.next { s with inLen := v }))
  | .writeCtrl v =>
    match decodeCtrl v with
    | .ok i => .run i s
    | .error _ => .ended (.next (hostSetOp s v))
  | .writeStatus _ => .ended (.next s)
  | .writeOutLen _ => .ended (.next s)
  | .readStatus => .ended (.next (hostReadStatus s))
  | .readCtrl => .ended (guarded s.notBusy (.next (s.reply (.ctrl s.ctrlWord))))
  | .readInLen => .ended (guarded s.notBusy (.next (s.reply (.inLen s.inLen))))
  | .readOutLen => .ended (guarded (decide (s.state = .done)) (.next (s.reply (.outLen s.outLen))))
  | .readIn a n => .ended (guarded s.notBusy (hostReadIn s a n))
  | .readOut a n => .ended (guarded (decide (s.state = .done)) (hostReadOut s a n))
  | .copyOutToIn => .ended (guarded (decide (s.state = .done)) (hostCopyOutToIn s))
  | .reset => .ended (.next (hostReset s))

/-- Whether a pending move is made now. -/
def HostEvent.due (e : HostEvent) (s : State) : Bool :=
  match e.wait with
  | .turns n => decide (n = 0)
  | .untilNotBusy => s.notBusy

/-- A pending move after one more turn of the engine. -/
def HostEvent.tick (e : HostEvent) : HostEvent :=
  match e.wait with
  | .turns n => { e with wait := .turns (n - 1) }
  | .untilNotBusy => e

/-- Whose turn it is (rule R15): the host's if its next move is due, else the engine's, which performs one operation. -/
def nextTurn (s : State) : Turn :=
  match s.host with
  | [] => .run (fetch s) s
  | e :: rest =>
    if e.due s then hostMove e.move { s with host := rest }
    else .run (fetch s) { s with host := e.tick :: rest }

/-- The state in which the next turn performs the operation of a `PHASE` code: no host move is due, and a run is in progress
unless the code is IDLE's or DONE's (rule R101). -/
def placePhase (s : State) (c : PhaseCode) : State :=
  if c = Phase.idle then { s with host := [], state := .idle, phase := c }
  else if c = Phase.done then { s with host := [], state := .done, phase := c }
  else { s with host := [], state := .busy, phase := c }

/-- The state in which the next turn is the host's write of a word to `CTRL`, with no run in progress (rule R210). -/
def placeCommand (s : State) (v : Word32) : State :=
  let t := { s with host := [{ wait := .turns 0, move := .writeCtrl v }] }
  if s.state = .busy then { t with state := .idle, phase := Phase.idle } else t

/-- A table word put where the next turn takes its instruction from: eight bits in `PHASE`, thirty-two in a host write of `CTRL`. -/
def placeWord (s : State) (nbits w : Nat) : State :=
  if nbits ≤ 8 then placePhase s (BitVec.ofNat 4 w) else placeCommand s (BitVec.ofNat 32 w)

end Sys2Proof.Machine
end

