-- ==== Sys2Proof/Machine/Step.lean ====
section
/-! DEFINITION. One step of the machine: one turn (rule R15), and the instruction it performs. -/

namespace Sys2Proof.Machine

def step (s : State) : Host.Outcome State Fault Refusal :=
  match nextTurn s with
  | .run i t => exec i t
  | .ended o => o

/-- The state whose next step performs the instruction of a table word (log entry 7). -/
def State.withFetchWord (s : State) (nbits w : Nat) : State := placeWord s nbits w

end Sys2Proof.Machine
end

