-- ==== Sys2Proof/Safety.lean ====
section
/-! DEFINITION. What a safe state is, and the terms the claims use: the invariant every step keeps, the bitstream written so far, the
tree that an arena holds, and how often a symbol stands in the input. -/

namespace Sys2Proof.Machine

/-- What holds of every state a step leads to, from every state in which it holds. -/
structure State.Inv (s : State) : Prop where
  /-- The memories are in canonical form (log entry 9). -/
  inCanonical : Memory.wf s.inBuf
  outCanonical : Memory.wf s.outBuf
  /-- `PQ` is a finite set: ascending, no repeats (rules R37, R44). -/
  queueIsSet : s.pq.Pairwise fun i j => i.toNat < j.toNat
  /-- `BW.ACC[7 : BW.CUR]` = 0 (rules R39, R150). -/
  accumulatorClear : ∀ k, s.bwCur.toNat ≤ k → s.bwAcc.getLsbD k = false
  /-- IDLE and DONE are the codes of rest (rules R22, R210). -/
  idlePhase : s.state = .idle → s.phase = Phase.idle
  donePhase : s.state = .done → s.phase = Phase.done
  /-- `OK` is 0 and `ERR` is 0 while BUSY and while IDLE (rules R23, R272). -/
  clearWhileRunning : s.state ≠ .done → s.ok = false ∧ s.err = none
  /-- In DONE either `OK` = 1 and `ERR` = 0, or `OK` = 0 and `ERR` names a failure (rules R23, R230). -/
  resultIsEither : s.state = .done → (s.ok = true ↔ s.err = none)
  /-- With no run in progress only `OUT[0 .. OUT_LEN-1]` has a specified value (rule R27). -/
  specifiedOutput : s.state ≠ .busy → ∀ c ∈ s.outBuf, c.1 < s.outLen
  /-- Every byte of `OUT[0 .. OUT_LEN-1]` has a value an Append gave it (rules R25, R65). -/
  outputListed : ∀ a < s.outLen, (Memory.read? s.outBuf a).isSome = true

/-- `n` steps of the machine. -/
def run (n : Nat) (s : State) : Host.Outcome State Fault Refusal := Host.Core.run Sys2Proof.core n s

/-- The eight bits of a byte, bit 0 first (rule R67). -/
def byteBits (b : Byte) : List Bool := (List.range 8).map b.getLsbD

/-- The bits of a byte sequence in stream order (rule R67). -/
def streamOf (bs : List Byte) : List Bool := bs.flatMap byteBits

/-- The bits the packer has written since `OUT_LEN` was `base`: those of the bytes appended, then the `BW.CUR` bits of the
accumulator, oldest in bit 0 (rule R150). -/
def State.written (s : State) (base : Nat) : List Bool :=
  streamOf (s.readOutBytes base (s.outLen - base)) ++ (byteBits s.bwAcc).take s.bwCur.toNat

/-- The bits of a symbol's code in path order (rules R38, R90). -/
def State.codeBitsOf (s : State) (sym : Byte) : List Bool :=
  (List.range (s.codeOf sym).len.toNat).map (s.codeOf sym).bits.getLsbD

/-- The input byte sequence `IN[0 .. IN_LEN-1]` (rule R24). -/
def State.input (s : State) : List Byte := s.readInBytes 0 s.inLen.toNat

/-- The result `OUT[0 .. OUT_LEN-1]` (rules R14, R25). -/
def State.output (s : State) : List Byte := s.readOutBytes 0 s.outLen

/-- The bits of the bitstream from the bit reader's position to the end of the buffer (rule R165). -/
def State.bitsAhead (s : State) : List Bool :=
  (streamOf (s.readInBytes s.brPos.toNat (s.inLen.toNat - s.brPos.toNat))).drop s.brCur.toNat

/-- The frequency table as INIT leaves it (rule R211): no key, every count 0. -/
def State.TableClear (s : State) : Prop :=
  s.m = 0 ∧ ∀ sym, s.isKey sym = false ∧ s.freqOf sym = 0

/-- A code tree: real leaves, the placeholder, internal nodes (rules R16, R34). -/
inductive HTree where
  | leaf (sym : Byte)
  | hole
  | fork (left right : HTree)
  deriving DecidableEq, Repr

/-- The code of every real leaf: the path from the root, 0 for left, 1 for right (rule R90). -/
def HTree.codes : HTree → List (Byte × List Bool)
  | .leaf sym => [(sym, [])]
  | .hole => []
  | .fork l r => l.codes.map (fun e => (e.1, false :: e.2)) ++ r.codes.map (fun e => (e.1, true :: e.2))

/-- Whether the placeholder stands on a leaf of the tree (rules R125, R129 e). -/
def HTree.hasHole : HTree → Bool
  | .leaf _ => false
  | .hole => true
  | .fork l r => l.hasHole || r.hasHole

/-- The length of the longest path. -/
def HTree.depth : HTree → Nat
  | .leaf _ => 0
  | .hole => 0
  | .fork l r => max l.depth r.depth + 1

/-- Arena entry `i` is the root of the tree (rules R34, R129). -/
def Holds (node : Vector Node 511) : NodeIx → HTree → Prop
  | i, .leaf sym => ∃ x, node[i.toNat]? = some x ∧ x.kind = .leaf ∧ x.ph = false ∧ x.sym = sym
  | i, .hole => ∃ x, node[i.toNat]? = some x ∧ x.kind = .leaf ∧ x.ph = true
  | i, .fork l r => ∃ x, node[i.toNat]? = some x ∧ x.kind = .internal ∧ Holds node x.left l ∧ Holds node x.right r

/-- The tree a state's `ROOT` names is `T`: its root is internal (rule R129 a), no symbol stands on two leaves (rule R129 d), and
no code is longer than 255 bits (rule R143). -/
structure State.HasTree (s : State) (T : HTree) : Prop where
  held : Holds s.node s.root T
  rootIsFork : ∃ l r, T = .fork l r
  distinct : (T.codes.map Prod.fst).Nodup
  bounded : T.depth ≤ 255

end Sys2Proof.Machine
end

