-- ==== Sys2Proof/Certificates/Slice0/Obligations.lean ====
section
/-! DEFINITION. The statements for the provers, in the order of OBLIGATIONS.json. -/

open Sys2Proof Sys2Proof.Machine

/-! ### Encodings -/

/-- Rule R101: the byte that holds each `PHASE` code, and the two `CTRL` words of rule R100, decode to the operation the tables give;
a byte above 15 and a `CTRL` write with `START` = 0 are no instruction. -/
def Obligations.TableWordsDecode : Prop :=
  decode [0x00] = .ok .idle ∧ decode [0x01] = .ok .init ∧ decode [0x02] = .ok .fcount ∧ decode [0x03] = .ok .cparse ∧
  decode [0x04] = .ok .tseed ∧ decode [0x05] = .ok .tmerge ∧ decode [0x06] = .ok .cgen ∧ decode [0x07] = .ok .cenc ∧
  decode [0x08] = .ok .pack ∧ decode [0x09] = .ok .putcode ∧ decode [0x0A] = .ok .wbit ∧ decode [0x0B] = .ok .flush ∧
  decode [0x0C] = .ok .dwalk ∧ decode [0x0D] = .ok .dstep ∧ decode [0x0E] = .ok .rbit ∧ decode [0x0F] = .ok .done ∧
  decode [0x01, 0x00, 0x00, 0x00] = .ok .compress ∧ decode [0x03, 0x00, 0x00, 0x00] = .ok .decompress ∧
  decode [0x10] = .error .notAPhaseCode ∧ decode [0x02, 0x00, 0x00, 0x00] = .error .startsNothing

/-- Rule R100: for every 32-bit value, bits 1:0 decide and bits 31:2 are ignored. -/
def Obligations.CtrlWordSelectsCommand : Prop :=
  ∀ v : Word32, decodeCtrl v =
    if v.toNat % 4 = 1 then .ok .compress else if v.toNat % 4 = 3 then .ok .decompress else .error .startsNothing

/-- Decoding the encoding of any instruction gives it back, and only byte sequences of the two well-formed shapes decode. -/
def Obligations.DecodeInvertsEncode : Prop :=
  (∀ i : Instr, i.wf = true → decode (encode i) = .ok i ∧ wfBytes (encode i) = true) ∧
  ∀ (bs : List Byte) (i : Instr), decode bs = .ok i → wfBytes bs = true

/-! ### Reset, and what a step is -/

/-- Rule R260: what reset leaves in the host's registers, what a read of `STATUS` and of `CTRL` returns there, and that the engine then
performs no operation until a START is accepted. The working state's values at reset are the model's choice (log entry 8) and
are not stated. -/
def Obligations.ResetLeavesIdle : Prop :=
  State.reset.state = .idle ∧ State.reset.ok = false ∧ State.reset.err = none ∧ State.reset.phase = 0 ∧
  State.reset.ctrlOp = false ∧ State.reset.inLen = 0 ∧ State.reset.outLen = 0 ∧
  State.reset.statusWord State.reset.phaseSeen = 0 ∧ State.reset.ctrlWord = 0 ∧
  (∀ n, run n State.reset = .next State.reset)

/-- The invariant holds at reset. -/
def Obligations.ResetMeetsInvariant : Prop := State.reset.Inv

/-- A step performs the decoded instruction: the one `PHASE` names while a run is in progress and no host move is due; none in IDLE and
DONE; and the command of a due `CTRL` write, whether it waited turns or for the end of a run. That a step is one turn is the model's
choice (log entry 11). -/
def Obligations.StepPerformsDecodedInstruction : Prop :=
  (∀ (s : State) (i : Instr), s.state = .busy → s.host = [] → decodePhase s.phase = i → step s = exec i s) ∧
  (∀ (s : State) (e : HostEvent) (rest : List HostEvent) (i : Instr), s.state = .busy → s.host = e :: rest → e.due s = false →
    decodePhase s.phase = i → step s = exec i { s with host := e.tick :: rest }) ∧
  (∀ s : State, s.state = .idle → s.host = [] → step s = exec .idle s) ∧
  (∀ (s : State) (e : HostEvent) (rest : List HostEvent), s.state = .idle → s.host = e :: rest → e.due s = false →
    step s = exec .idle { s with host := e.tick :: rest }) ∧
  (∀ s : State, s.state = .done → s.host = [] → step s = exec .done s) ∧
  (∀ (s : State) (e : HostEvent) (rest : List HostEvent), s.state = .done → s.host = e :: rest → e.due s = false →
    step s = exec .done { s with host := e.tick :: rest }) ∧
  (∀ (s : State) (e : HostEvent) (rest : List HostEvent) (v : Word32) (i : Instr), s.host = e :: rest → e.due s = true →
    e.move = .writeCtrl v → decodeCtrl v = .ok i → step s = exec i { s with host := rest })

/-! ### The host's registers and moves -/

/-- Rule R210: an accepted START sets `CTRL.OP`, `STATE`, `OK` and `ERR`, and the command's sequence begins at INIT (rule R211). -/
def Obligations.StartBeginsRun : Prop :=
  ∀ s : State, s.state ≠ .busy →
    exec .compress s = .next { s with ctrlOp := false, state := .busy, ok := false, err := none, phase := Phase.init } ∧
    exec .decompress s = .next { s with ctrlOp := true, state := .busy, ok := false, err := none, phase := Phase.init }

/-- Rules R210, R214: IDLE performs nothing; DONE performs nothing once the run has ended, and ends a run that has come to it. -/
def Obligations.RestDoesNothing : Prop :=
  (∀ s : State, exec .idle s = .next s) ∧
  (∀ s : State, s.state ≠ .busy → exec .done s = .next s) ∧
  (∀ s : State, s.state = .busy → s.Inv → ∃ t, exec .done s = .next t ∧
    t = { s with phase := Phase.done, err := none, ok := true, state := .done, outBuf := t.outBuf, outEpoch := t.outEpoch } ∧
    ∀ a < s.outLen, t.readOut a = s.readOut a)

/-- Rule R273: a write of `CTRL` while BUSY is ignored in full, whatever the word; a write of `STATUS` or `OUT_LEN` is ignored in every
state. -/
def Obligations.IgnoredHostWrites : Prop :=
  ∀ (s : State) (e : HostEvent) (rest : List HostEvent), s.host = e :: rest → e.due s = true →
    (∀ v, s.state = .busy → e.move = .writeCtrl v → step s = .next { s with host := rest }) ∧
    (∀ v, e.move = .writeStatus v → step s = .next { s with host := rest }) ∧
    (∀ v, e.move = .writeOutLen v → step s = .next { s with host := rest })

/-- Rules R100, R270: with no run in progress a write of `CTRL` whose bit 0 is 0 sets `CTRL.OP` to bit 1 and does nothing else. -/
def Obligations.CtrlWithoutStartSetsOp : Prop :=
  ∀ (s : State) (e : HostEvent) (rest : List HostEvent) (v : Word32), s.state ≠ .busy → v.getLsbD 0 = false →
    s.host = e :: rest → e.due s = true → e.move = .writeCtrl v →
    step s = .next { s with host := rest, ctrlOp := v.getLsbD 1 }

/-- Rules R21, R23, R230: where the fields stand in the words of `STATUS` and `CTRL`, and the numbers of the states and of the failures. -/
def Obligations.StatusAndCtrlLayout : Prop :=
  (∀ (s : State) (p : PhaseCode),
    (s.statusWord p).toNat = s.state.bits.toNat + 4 * s.ok.toNat + 16 * (errBits s.err).toNat + 256 * p.toNat ∧
    s.ctrlWord.toNat = 2 * s.ctrlOp.toNat) ∧
  RunState.idle.bits = 0 ∧ RunState.busy.bits = 1 ∧ RunState.done.bits = 2 ∧
  errBits none = 0 ∧ errBits (some .inputEmpty) = 1 ∧ errBits (some .headerInvalid) = 2 ∧ errBits (some .headerTruncated) = 3 ∧
  errBits (some .bitstreamTruncated) = 4 ∧ errBits (some .treeDegenerate) = 5 ∧ errBits (some .placeholderReached) = 6 ∧
  errBits (some .capacityExceeded) = 7

/-- Rule R272: a read of `STATUS` is always answered and changes nothing of the engine. While BUSY it returns `STATE` = 1, `OK` = 0, `ERR` = 0
and a code of the operation in progress; which code it is the specification leaves open (log entry 5). -/
def Obligations.StatusReadInEveryState : Prop :=
  ∀ (s : State) (e : HostEvent) (rest : List HostEvent), s.host = e :: rest → e.due s = true → e.move = .readStatus →
    (s.Inv → s.state = .busy →
      ∃ (t : State) (c : PhaseCode) (w : Word32), step s = .next t ∧ c ∈ codesDuring s.phase ∧ w.toNat = 1 + 256 * c.toNat ∧
        t = { s with host := rest, replies := .status w :: s.replies, phaseDraws := t.phaseDraws }) ∧
    (s.state ≠ .busy → step s = .next { s with host := rest, replies := .status (s.statusWord s.phase) :: s.replies })

/-- Rules R270, R273: while BUSY the model gives the host no write of IN or `IN_LEN` and no read of IN, `CTRL`, `IN_LEN`, `OUT_LEN` or
OUT. -/
def Obligations.NoHostAccessWhileBusy : Prop :=
  ∀ (s : State) (e : HostEvent) (rest : List HostEvent), s.state = .busy → s.host = e :: rest → e.due s = true →
    (∃ a bs, e.move = .writeIn a bs) ∨ (∃ v, e.move = .writeInLen v) ∨ e.move = .readCtrl ∨ e.move = .readInLen ∨
      e.move = .readOutLen ∨ (∃ a n, e.move = .readIn a n) ∨ (∃ a n, e.move = .readOut a n) ∨ e.move = .copyOutToIn →
    step s = .refused .hostOutsideProtocol

/-- Rules R270, R271: with no run in progress a write of bytes that IN holds puts each byte at its address and leaves every other
address of IN alone; a write of `IN_LEN` sets it. -/
def Obligations.HostLoadsInput : Prop :=
  ∀ (s : State) (e : HostEvent) (rest : List HostEvent), s.state ≠ .busy → s.host = e :: rest → e.due s = true →
    (∀ (a : Nat) (bs : List Byte), e.move = .writeIn a bs → s.cfg.inHolds (a + bs.length) = true →
      ∃ t, step s = .next t ∧ t = { s with host := rest, inBuf := t.inBuf } ∧
        (∀ (j : Nat) (h : j < bs.length), t.readIn (a + j) = bs[j]) ∧
        ∀ x, x < a ∨ a + bs.length ≤ x → t.readIn x = s.readIn x) ∧
    (∀ v, e.move = .writeInLen v → step s = .next { s with host := rest, inLen := v })

/-- Rule R270: what the host's reads return, and that they change nothing else: `CTRL`, `IN_LEN` and bytes of IN with no run in progress,
`OUT_LEN` and bytes of OUT in DONE. -/
def Obligations.HostReadsReturnStored : Prop :=
  ∀ (s : State) (e : HostEvent) (rest : List HostEvent), s.host = e :: rest → e.due s = true →
    (s.state ≠ .busy → e.move = .readCtrl → step s = .next { s with host := rest, replies := .ctrl s.ctrlWord :: s.replies }) ∧
    (s.state ≠ .busy → e.move = .readInLen → step s = .next { s with host := rest, replies := .inLen s.inLen :: s.replies }) ∧
    (∀ a n : Nat, s.state ≠ .busy → e.move = .readIn a n → s.cfg.inHolds (a + n) = true →
      ∃ bs : List Byte, step s = .next { s with host := rest, replies := .inBytes a bs :: s.replies } ∧
        bs.length = n ∧ ∀ (j : Nat) (h : j < bs.length), bs[j] = s.readIn (a + j)) ∧
    (s.state = .done → e.move = .readOutLen → step s = .next { s with host := rest, replies := .outLen s.outLen :: s.replies }) ∧
    (∀ a n : Nat, s.state = .done → e.move = .readOut a n → s.cfg.outHolds (a + n) = true →
      ∃ bs : List Byte, step s = .next { s with host := rest, replies := .outBytes a bs :: s.replies } ∧
        bs.length = n ∧ ∀ (j : Nat) (h : j < bs.length), bs[j] = s.readOut (a + j))

/-- Rule R274: in DONE, a step in which the host makes neither a START nor a reset leaves `OK`, `ERR`, `OUT_LEN` and the result's bytes as they
are, also while such a move is pending and not yet due. -/
def Obligations.ResultStaysReadable : Prop :=
  ∀ (s t : State), s.state = .done →
    (∀ e ∈ s.host.head?, e.due s = true → e.move ≠ .reset ∧ ∀ v, e.move = .writeCtrl v → v.getLsbD 0 = false) →
    step s = .next t →
    t.state = .done ∧ t.ok = s.ok ∧ t.err = s.err ∧ t.outLen = s.outLen ∧ ∀ a < s.outLen, t.readOut a = s.readOut a

/-- Rule R261: reset in any state, BUSY too, abandons what is in progress: the host's registers take the values of rule R260, and neither
exit is performed. -/
def Obligations.ResetMoveAbandonsRun : Prop :=
  ∀ (s : State) (e : HostEvent) (rest : List HostEvent), s.host = e :: rest → e.due s = true → e.move = .reset →
    ∃ t, step s = .next t ∧ t.state = .idle ∧ t.ok = false ∧ t.err = none ∧ t.phase = 0 ∧ t.ctrlOp = false ∧ t.inLen = 0 ∧
      t.outLen = 0 ∧ t.cfg = s.cfg ∧ t.host = rest ∧ t.replies = s.replies

/-! ### INIT and the exits -/

/-- Rule R211: INIT's values for the working state and `OUT_LEN` and the check of the input length; `NODE` entries and `CODE[s].BITS` are not
cleared. What follows in each sequence (rules R212, R215), COMPRESS's check for an empty input (rule R231) too, belongs to INIT's step by the
model's choice (log entry 11). -/
def Obligations.InitSetsWorkingState : Prop :=
  ∀ s : State, ∃ t u : State, exec .init s = .next t ∧
    (∀ sym : Byte, u.freqOf sym = 0 ∧ u.isKey sym = false ∧ (u.codeOf sym).len = 0 ∧ (u.codeOf sym).bits = (s.codeOf sym).bits) ∧
    u = { s with phase := Phase.init, outLen := 0, freq := u.freq, present := u.present, code := u.code, m := 0, mHdr := 0, orig := 0,
                 inPos := 0, nn := 0, root := 0, pq := [], bwAcc := 0, bwCur := 0, brPos := 0, brCur := 0, walkCur := 0, emitted := 0 } ∧
    t = if s.cfg.inHolds s.inLen.toNat = false then u.failureExit .capacityExceeded
        else if s.ctrlOp = true then { u with phase := Phase.cparse }
        else if s.inLen = 0 then u.failureExit .inputEmpty
        else { u with phase := Phase.fcount }

/-- Rule R240: a `raise`, of any failure in any state, takes the failure exit: `OUT_LEN`, `PHASE`, `OK`, `ERR` and `STATE` as the rule says,
the working state, IN, `IN_LEN` and `CTRL.OP` as they were. A read of `STATUS` then returns the word of the failure's number (rules R23,
R230). -/
def Obligations.RaiseTakesFailureExit : Prop :=
  ∀ (f : Failure) (u : State), ∃ t, (Flow.raised f u).outcome = .next t ∧
    t = { u with outLen := 0, phase := Phase.done, ok := false, err := some f, state := .done, outBuf := t.outBuf, outEpoch := t.outEpoch } ∧
    (f = .inputEmpty → t.statusWord t.phaseSeen = 0xF12) ∧ (f = .headerInvalid → t.statusWord t.phaseSeen = 0xF22) ∧
    (f = .headerTruncated → t.statusWord t.phaseSeen = 0xF32) ∧ (f = .bitstreamTruncated → t.statusWord t.phaseSeen = 0xF42) ∧
    (f = .treeDegenerate → t.statusWord t.phaseSeen = 0xF52) ∧ (f = .placeholderReached → t.statusWord t.phaseSeen = 0xF62) ∧
    (f = .capacityExceeded → t.statusWord t.phaseSeen = 0xF72)

/-! ### Frequency counter -/

/-- Rule R111: FCOUNT on a clear table tallies every byte value of the input; its frame. -/
def Obligations.FcountTalliesInput : Prop :=
  ∀ s : State, s.cfg.inHolds s.inLen.toNat = true → ∃ t, exec .fcount s = .next t ∧
    t = { s with freq := t.freq, present := t.present, m := t.m, inPos := s.inLen, phase := Phase.tseed } ∧
    (s.TableClear →
      (∀ sym, (t.freqOf sym).toNat = s.input.count sym) ∧
      (∀ sym, t.isKey sym = true ↔ sym ∈ s.input) ∧
      t.m.toNat = s.input.dedup.length ∧ t.keys.length = t.m.toNat ∧
      (allSymbols.map fun k => (t.freqOf k).toNat).sum = s.inLen.toNat)

/-! ### Container formatter -/

/-- Rules R190 to R192, R241: the checks of CPARSE in their order, and the failure of each. -/
def Obligations.CparseChecksInOrder : Prop :=
  ∀ s : State, s.cfg.inHolds s.inLen.toNat = true →
    (s.inLen.toNat < 4 → exec .cparse s = .next (s.failureExit .headerTruncated)) ∧
    (4 ≤ s.inLen.toNat → [s.readIn 0, s.readIn 1, s.readIn 2, s.readIn 3] ≠ [0x48, 0x55, 0x46, 0x31] →
      exec .cparse s = .next (s.failureExit .headerInvalid)) ∧
    ([s.readIn 0, s.readIn 1, s.readIn 2, s.readIn 3] = [0x48, 0x55, 0x46, 0x31] → 4 ≤ s.inLen.toNat → s.inLen.toNat < 16 →
      exec .cparse s = .next (s.failureExit .headerTruncated)) ∧
    ([s.readIn 0, s.readIn 1, s.readIn 2, s.readIn 3] = [0x48, 0x55, 0x46, 0x31] → 16 ≤ s.inLen.toNat →
      s.inLen.toNat < 16 + 9 * s.memRead 12 4 → ∃ u, exec .cparse s = .next (u.failureExit .headerTruncated) ∧
        u = { s with orig := BitVec.ofNat 64 (s.memRead 4 8), mHdr := BitVec.ofNat 32 (s.memRead 12 4) })

/-- Rules R190 to R194: what CPARSE takes from a buffer that holds the magic, the header and the whole table; its frame. Entry `i`'s symbol
stands at offset `16 + 9i` and its count at `17 + 9i` (rule R81); the last entry of a symbol gives its count (rule R193). -/
def Obligations.CparseLoadsTable : Prop :=
  ∀ s : State, s.cfg.inHolds s.inLen.toNat = true →
    [s.readIn 0, s.readIn 1, s.readIn 2, s.readIn 3] = [0x48, 0x55, 0x46, 0x31] → 16 + 9 * s.memRead 12 4 ≤ s.inLen.toNat →
    ∃ t, exec .cparse s = .next t ∧
      t = { s with orig := t.orig, mHdr := t.mHdr, freq := t.freq, present := t.present, m := t.m, brPos := t.brPos, brCur := 0, phase := Phase.tseed } ∧
      t.orig.toNat = s.memRead 4 8 ∧ t.mHdr.toNat = s.memRead 12 4 ∧ t.brPos.toNat = 16 + 9 * s.memRead 12 4 ∧
      (s.TableClear →
        (∀ sym, t.isKey sym = true ↔ ∃ i < s.memRead 12 4, s.readIn (16 + 9 * i) = sym) ∧
        (∀ sym, t.isKey sym = false → t.freqOf sym = 0) ∧
        (∀ i < s.memRead 12 4, (∀ j < s.memRead 12 4, i < j → s.readIn (16 + 9 * j) ≠ s.readIn (16 + 9 * i)) →
          (t.freqOf (s.readIn (16 + 9 * i))).toNat = s.memRead (17 + 9 * i) 8) ∧
        t.m.toNat = ((List.range (s.memRead 12 4)).map fun i => s.readIn (16 + 9 * i)).dedup.length ∧
        t.keys.length = t.m.toNat)

/-- Rules R81, R185: the bytes CENC appends, field by field; byte `j` of a field holds bits `8j+7 : 8j` of its value (rules R64, R66); every other
address of OUT reads as before; its frame. -/
def Obligations.CencWritesHeaderAndTable : Prop :=
  ∀ s : State, s.cfg.outHolds (s.outLen + (16 + 9 * s.keys.length)) = true → ∃ t, exec .cenc s = .next t ∧
    t = { s with orig := s.inLen, outBuf := t.outBuf, outLen := s.outLen + (16 + 9 * s.keys.length), phase := Phase.pack } ∧
    t.readOutBytes s.outLen 4 = [0x48, 0x55, 0x46, 0x31] ∧
    (∀ j < 8, (t.readOut (s.outLen + 4 + j)).toNat = s.inLen.toNat / 2 ^ (8 * j) % 256) ∧
    (∀ j < 4, (t.readOut (s.outLen + 12 + j)).toNat = s.m.toNat / 2 ^ (8 * j) % 256) ∧
    (∀ (k : Nat) (h : k < s.keys.length), t.readOut (s.outLen + 16 + 9 * k) = s.keys[k] ∧
      ∀ j < 8, (t.readOut (s.outLen + 17 + 9 * k + j)).toNat = (s.freqOf s.keys[k]).toNat / 2 ^ (8 * j) % 256) ∧
    ∀ a, a < s.outLen ∨ s.outLen + (16 + 9 * s.keys.length) ≤ a → t.readOut a = s.readOut a

/-! ### Tree builder -/

/-- Rule R121: frequency first, then index; a total order with no ties. -/
def Obligations.NodeOrderIsTotal : Prop :=
  ∀ node : Vector Node 511,
    (∀ (i j : NodeIx) (x y : Node), node[i.toNat]? = some x → node[j.toNat]? = some y →
      (lower node i j = true ↔ x.nfreq.toNat < y.nfreq.toNat ∨ (x.nfreq = y.nfreq ∧ i.toNat < j.toNat))) ∧
    (∀ i : NodeIx, lower node i i = false) ∧
    (∀ i j k : NodeIx, lower node i j = true → lower node j k = true → lower node i k = true) ∧
    (∀ i j : NodeIx, i = j ∨ lower node i j = true ∨ lower node j i = true)

/-- Rule R122: `extract_min` of a set that is not empty returns its lowest element and removes it; what it does depends only on which
indices the set holds and on the `NFREQ` fields. -/
def Obligations.ExtractMinTakesTheLowest : Prop :=
  ∀ (node : Vector Node 511) (pq : List NodeIx), pq ≠ [] →
    ∃ (a : NodeIx) (rest : List NodeIx), extractMin node pq = some (a, rest) ∧ a ∈ pq ∧
      (∀ j ∈ pq, j ≠ a → lower node a j = true) ∧ (∀ j, j ∈ rest ↔ j ∈ pq ∧ j ≠ a) ∧
      ∀ (node' : Vector Node 511) (pq' : List NodeIx), (∀ i, nfreqOf node' i = nfreqOf node i) → (∀ j, j ∈ pq' ↔ j ∈ pq) →
        ∃ rest', extractMin node' pq' = some (a, rest') ∧ ∀ j, j ∈ rest' ↔ j ∈ rest

/-- Rules R123, R235: with no key TSEED raises TreeDegenerate before anything is written. -/
def Obligations.TseedRefusesEmptyTable : Prop :=
  ∀ s : State, s.m = 0 → exec .tseed s = .next (s.failureExit .treeDegenerate)

/-- Rule R123: with two keys or more TSEED creates one leaf per key in ascending order and seeds the queue with all of them; its frame. -/
def Obligations.TseedSeedsLeaves : Prop :=
  ∀ s : State, s.nn = 0 → s.pq = [] → s.m.toNat = s.keys.length → 2 ≤ s.keys.length → ∃ t, exec .tseed s = .next t ∧
    t = { s with node := t.node, nn := t.nn, pq := t.pq, phase := Phase.tmerge } ∧
    t.nn.toNat = s.keys.length ∧ t.pq = (List.range s.keys.length).map (BitVec.ofNat 9) ∧
    (∀ (k : Nat) (h : k < s.keys.length), t.node[k]? =
      some { kind := .leaf, ph := false, sym := s.keys[k], nfreq := (s.freqOf s.keys[k]).setWidth 72, left := 0, right := 0 }) ∧
    ∀ k, s.keys.length ≤ k → t.node[k]? = s.node[k]?

/-- Rules R123, R125: the single-symbol tree: the real leaf, the placeholder on its right, the root made directly; its frame. That `ROOT` is
assigned (rule R127) and CGEN follows in TSEED's step is the model's choice (log entry 11). -/
def Obligations.TseedSingleSymbolTree : Prop :=
  ∀ (s : State) (x : Byte), s.nn = 0 → s.pq = [] → s.m = 1 → s.keys = [x] → ∃ t, exec .tseed s = .next t ∧
    t = { s with node := t.node, nn := 3, pq := [2], root := 2, phase := Phase.cgen } ∧
    t.node[0]? = some { kind := .leaf, ph := false, sym := x, nfreq := (s.freqOf x).setWidth 72, left := 0, right := 0 } ∧
    t.node[1]? = some { kind := .leaf, ph := true, sym := 0, nfreq := 0, left := 0, right := 0 } ∧
    t.node[2]? = some { kind := .internal, ph := false, sym := 0, nfreq := (s.freqOf x).setWidth 72, left := 0, right := 1 } ∧
    ∀ k, 3 ≤ k → t.node[k]? = s.node[k]?

/-- Rule R126: TMERGE gives the two lowest nodes a parent, the lower on its left, whose frequency is their exact sum; the queue loses the two
and gains the parent; its frame. That what follows (rule R127: another TMERGE, or `ROOT` and then CGEN) is decided in TMERGE's step is the model's
choice (log entry 11). -/
def Obligations.TmergeJoinsTwoLowest : Prop :=
  ∀ (s : State) (a b : NodeIx), s.nn.toNat < 511 → (∀ i ∈ s.pq, i.toNat < s.nn.toNat) →
    a ∈ s.pq → (∀ j ∈ s.pq, j ≠ a → lower s.node a j = true) →
    b ∈ s.pq → b ≠ a → (∀ j ∈ s.pq, j ≠ a → j ≠ b → lower s.node b j = true) →
    ∃ (t : State) (x : Node), exec .tmerge s = .next t ∧
      t = { s with node := t.node, nn := t.nn, pq := t.pq, root := t.root, phase := t.phase } ∧
      t.nn.toNat = s.nn.toNat + 1 ∧ t.node[s.nn.toNat]? = some x ∧ (∀ k, k ≠ s.nn.toNat → t.node[k]? = s.node[k]?) ∧
      x.kind = .internal ∧ x.ph = false ∧ x.sym = 0 ∧ x.left = a ∧ x.right = b ∧
      (nfreqOf s.node a + nfreqOf s.node b < 2 ^ 72 → x.nfreq.toNat = nfreqOf s.node a + nfreqOf s.node b) ∧
      (∀ i, i ∈ t.pq ↔ i = s.nn ∨ (i ∈ s.pq ∧ i ≠ a ∧ i ≠ b)) ∧
      ((∃ j ∈ s.pq, j ≠ a ∧ j ≠ b) → t.phase = Phase.tmerge ∧ t.root = s.root) ∧
      ((∀ j ∈ s.pq, j = a ∨ j = b) → t.phase = Phase.cgen ∧ t.root = s.nn ∧ t.pq = [s.nn])

/-- Rules R127 to R129: the whole construction, `M` steps from TSEED (a step an operation: log entry 11): the arena then holds a tree with an
internal root whose leaves carry the keys, each exactly once, with a placeholder exactly when there is one key; the counts of rule R128; the
root's frequency is the sum of the counts. -/
def Obligations.BuiltTreeCarriesTheKeys : Prop :=
  ∀ s : State, s.state = .busy → s.host = [] → s.phase = Phase.tseed → s.nn = 0 → s.pq = [] →
    s.m.toNat = s.keys.length → s.keys ≠ [] →
    ∃ (t : State) (T : HTree), run s.keys.length s = .next t ∧
      t = { s with node := t.node, nn := t.nn, pq := [t.root], root := t.root, phase := Phase.cgen } ∧
      t.HasTree T ∧ (T.codes.map Prod.fst).Perm s.keys ∧
      (2 ≤ s.keys.length → T.hasHole = false ∧ t.nn.toNat = 2 * s.keys.length - 1 ∧ t.root.toNat = 2 * s.keys.length - 2) ∧
      (∀ x, s.keys = [x] → t.nn = 3 ∧ t.root = 2 ∧ T = .fork (.leaf x) .hole) ∧
      nfreqOf t.node t.root = (s.keys.map fun k => (s.freqOf k).toNat).sum

/-! ### Code table generator -/

/-- Rules R140, R141, R143: CGEN on a tree gives every real leaf's symbol its path and changes no other entry; its frame. That the size check of
the command (rules R213, R216) belongs to CGEN's step is the model's choice (log entry 11). -/
def Obligations.CgenWritesPaths : Prop :=
  ∀ (s : State) (T : HTree), s.HasTree T → ∃ u : State,
    u = { s with code := u.code } ∧
    (∀ e ∈ T.codes, (u.codeOf e.1).len.toNat = e.2.length ∧ u.codeBitsOf e.1 = e.2) ∧
    (∀ sym, sym ∉ T.codes.map Prod.fst → u.codeOf sym = s.codeOf sym) ∧
    exec .cgen s = .next (
      if s.ctrlOp = true then
        if s.cfg.outHolds s.orig.toNat = true then { u with phase := Phase.dwalk } else u.failureExit .capacityExceeded
      else
        if s.cfg.outHolds (16 + 9 * s.m.toNat + ((s.keys.map fun k => (s.freqOf k).toNat * (u.codeOf k).len.toNat).sum + 7) / 8) = true
        then { u with phase := Phase.cenc } else u.failureExit .capacityExceeded)

/-- Rules R91, R146: after CGEN on a tree the codes of two different symbols of the tree are not empty and neither is a prefix of the other. -/
def Obligations.CodesArePrefixFree : Prop :=
  ∀ (s t : State) (T : HTree), s.HasTree T → exec .cgen s = .next t →
    ∀ a b : Byte, a ∈ T.codes.map Prod.fst → b ∈ T.codes.map Prod.fst → a ≠ b →
      t.codeBitsOf a ≠ [] ∧ ¬ t.codeBitsOf a <+: t.codeBitsOf b

/-! ### Bit-stream packer -/

/-- Rule R151: WBIT puts its bit at the cursor; the eighth bit appends the byte, clears the accumulator and resets the cursor; then the
packer is back in PUTCODE (rule R217); its frame. -/
def Obligations.WbitWritesOneBit : Prop :=
  ∀ s : State, ∃ acc : Byte, (∀ k < 8, acc.getLsbD k = if k = s.bwCur.toNat then s.opBit else s.bwAcc.getLsbD k) ∧
    (s.bwCur ≠ 7 → exec .wbit s = .next { s with bwAcc := acc, bwCur := s.bwCur + 1, phase := Phase.putcode }) ∧
    (s.bwCur = 7 → s.cfg.outHolds (s.outLen + 1) = true → ∃ t, exec .wbit s = .next t ∧
      t = { s with bwAcc := 0, bwCur := 0, outBuf := t.outBuf, outLen := s.outLen + 1, phase := Phase.putcode } ∧
      t.readOut s.outLen = acc ∧ ∀ a, a ≠ s.outLen → t.readOut a = s.readOut a)

/-- Rule R152: FLUSH appends the partial last byte, its high bits 0, or nothing when the cursor is 0; its frame. That the run's success exit
(rules R212, R214) belongs to FLUSH's step is the model's choice (log entry 11). -/
def Obligations.FlushAppendsPartialByte : Prop :=
  ∀ s : State, s.Inv →
    (s.bwCur = 0 → ∃ t, exec .flush s = .next t ∧
      t = { s with phase := Phase.done, err := none, ok := true, state := .done, outBuf := t.outBuf, outEpoch := t.outEpoch } ∧
      ∀ a < s.outLen, t.readOut a = s.readOut a) ∧
    (s.bwCur ≠ 0 → s.cfg.outHolds (s.outLen + 1) = true → ∃ t, exec .flush s = .next t ∧
      t = { s with bwAcc := 0, bwCur := 0, outLen := s.outLen + 1, phase := Phase.done, err := none, ok := true, state := .done,
                   outBuf := t.outBuf, outEpoch := t.outEpoch } ∧
      t.readOut s.outLen = s.bwAcc ∧ (∀ k, s.bwCur.toNat ≤ k → (t.readOut s.outLen).getLsbD k = false) ∧
      ∀ a < s.outLen, t.readOut a = s.readOut a)

/-- Rule R153: PUTCODE writes the bits of its symbol's code in path order after the bits written so far; then the packer is back in PACK
(rule R217); its frame. -/
def Obligations.PutcodeWritesTheCode : Prop :=
  ∀ (s : State) (w : List Bool), w = s.codeBitsOf s.opSym → s.cfg.outHolds (s.outLen + (s.bwCur.toNat + w.length) / 8) = true →
    ∃ t, exec .putcode s = .next t ∧
      t = { s with bwAcc := t.bwAcc, bwCur := t.bwCur, outBuf := t.outBuf, outLen := s.outLen + (s.bwCur.toNat + w.length) / 8,
                   opBit := t.opBit, phase := Phase.pack } ∧
      t.bwCur.toNat = (s.bwCur.toNat + w.length) % 8 ∧
      (∀ base ≤ s.outLen, t.written base = s.written base ++ w) ∧
      ∀ a, a < s.outLen ∨ s.outLen + (s.bwCur.toNat + w.length) / 8 ≤ a → t.readOut a = s.readOut a

/-- Rules R154, R155: PACK writes the codes of all input bytes in input order, with nothing between them, after the bits written so far;
its frame. -/
def Obligations.PackWritesAllCodes : Prop :=
  ∀ (s : State) (w : List Bool), s.cfg.inHolds s.inLen.toNat = true → w = s.input.flatMap s.codeBitsOf →
    s.cfg.outHolds (s.outLen + (s.bwCur.toNat + w.length) / 8) = true →
    ∃ t, exec .pack s = .next t ∧
      t = { s with bwAcc := t.bwAcc, bwCur := t.bwCur, outBuf := t.outBuf, outLen := s.outLen + (s.bwCur.toNat + w.length) / 8,
                   inPos := s.inLen, opSym := t.opSym, opBit := t.opBit, phase := Phase.flush } ∧
      t.bwCur.toNat = (s.bwCur.toNat + w.length) % 8 ∧
      (∀ base ≤ s.outLen, t.written base = s.written base ++ w) ∧
      ∀ a, a < s.outLen ∨ s.outLen + (s.bwCur.toNat + w.length) / 8 ≤ a → t.readOut a = s.readOut a

/-! ### Bit-stream unpacker -/

/-- Rules R165, R166: RBIT returns the next bit and moves past it, or EXHAUSTED and moves nothing; then the unpacker is back in DSTEP
(rule R217); its frame. -/
def Obligations.RbitReadsNextBit : Prop :=
  ∀ s : State, s.cfg.inHolds s.inLen.toNat = true →
    (s.inLen.toNat ≤ s.brPos.toNat → exec .rbit s = .next { s with rbitVal := none, phase := Phase.dstep }) ∧
    (s.brPos.toNat < s.inLen.toNat → s.brCur = 7 → exec .rbit s =
      .next { s with rbitVal := some ((s.readIn s.brPos.toNat).getLsbD 7), brCur := 0, brPos := s.brPos + 1, phase := Phase.dstep }) ∧
    (s.brPos.toNat < s.inLen.toNat → s.brCur ≠ 7 → exec .rbit s =
      .next { s with rbitVal := some ((s.readIn s.brPos.toNat).getLsbD s.brCur.toNat), brCur := s.brCur + 1, phase := Phase.dstep })

/-- Rules R167, R169: the transition table of DSTEP, one clause a row; its frame. `u` is the state after the bit is read. -/
def Obligations.DstepTransitions : Prop :=
  ∀ s : State, s.cfg.inHolds s.inLen.toNat = true →
    (s.inLen.toNat ≤ s.brPos.toNat → exec .dstep s = .next ({ s with rbitVal := none }.failureExit .bitstreamTruncated)) ∧
    (s.brPos.toNat < s.inLen.toNat → ∀ (c x : Node) (b : Bool) (n : NodeIx) (u : State),
      s.nodeAt? s.walkCur = some c → b = (s.readIn s.brPos.toNat).getLsbD s.brCur.toNat →
      n = (if b = true then c.right else c.left) → s.nodeAt? n = some x →
      u = { s with rbitVal := some b, brCur := s.brCur + 1, brPos := if s.brCur = 7 then s.brPos + 1 else s.brPos } →
      (x.kind = .internal → exec .dstep s = .next { u with walkCur := n, phase := Phase.dwalk }) ∧
      (x.kind = .leaf → x.ph = true → exec .dstep s = .next (u.failureExit .placeholderReached)) ∧
      (x.kind = .leaf → x.ph = false → s.cfg.outHolds (s.outLen + 1) = true → ∃ t, exec .dstep s = .next t ∧
        t = { u with walkCur := s.root, emitted := s.emitted + 1, outBuf := t.outBuf, outLen := s.outLen + 1, phase := Phase.dwalk } ∧
        t.readOut s.outLen = x.sym ∧ ∀ a, a ≠ s.outLen → t.readOut a = s.readOut a))

/-- Rules R168, R171: where the bits ahead begin with the codes of `ORIG` symbols, DWALK emits exactly those symbols, reads exactly those bits
and the run ends in success (rules R214, R215), in DWALK's step by the model's choice (log entry 11); its frame. -/
def Obligations.DwalkDecodesCodes : Prop :=
  ∀ (s : State) (T : HTree) (xs : List (Byte × List Bool)), s.Inv → s.HasTree T → s.cfg.inHolds s.inLen.toNat = true →
    s.emitted = 0 → xs.length = s.orig.toNat → s.cfg.outHolds (s.outLen + xs.length) = true →
    (∀ e ∈ xs, e ∈ T.codes) → xs.flatMap Prod.snd <+: s.bitsAhead →
    ∃ t, exec .dwalk s = .next t ∧
      t = { s with rbitVal := t.rbitVal, brPos := t.brPos, brCur := t.brCur, walkCur := s.root, emitted := s.orig, outBuf := t.outBuf,
                   outLen := s.outLen + xs.length, outEpoch := t.outEpoch, phase := Phase.done, err := none, ok := true, state := .done } ∧
      t.readOutBytes s.outLen xs.length = xs.map Prod.fst ∧ (∀ a < s.outLen, t.readOut a = s.readOut a) ∧
      8 * t.brPos.toNat + t.brCur.toNat = 8 * s.brPos.toNat + s.brCur.toNat + (xs.flatMap Prod.snd).length

/-- Rules R234, R236: where the bits run out inside the next code, or a bit leads to the placeholder, before `ORIG` symbols are out, DWALK ends
the run with that failure and nothing is left of the output. -/
def Obligations.DwalkFailsOnBadStream : Prop :=
  (∀ (s : State) (T : HTree) (xs : List (Byte × List Bool)) (r : List Bool), s.HasTree T → s.cfg.inHolds s.inLen.toNat = true →
    s.emitted = 0 → xs.length < s.orig.toNat → s.cfg.outHolds (s.outLen + xs.length) = true → (∀ e ∈ xs, e ∈ T.codes) →
    s.bitsAhead = xs.flatMap Prod.snd ++ r → (∃ e ∈ T.codes, r <+: e.2 ∧ r ≠ e.2) →
    ∃ t, exec .dwalk s = .next t ∧ t.state = .done ∧ t.ok = false ∧ t.err = some .bitstreamTruncated ∧ t.outLen = 0) ∧
  (∀ (s : State) (x : Byte) (k : Nat), s.HasTree (.fork (.leaf x) .hole) → s.cfg.inHolds s.inLen.toNat = true →
    s.emitted = 0 → k < s.orig.toNat → s.cfg.outHolds (s.outLen + k) = true → (List.replicate k false ++ [true]) <+: s.bitsAhead →
    ∃ t, exec .dwalk s = .next t ∧ t.state = .done ∧ t.ok = false ∧ t.err = some .placeholderReached ∧ t.outLen = 0)

/-- Rule R170: on a tree, with room for what is still to be emitted, DWALK always ends the run, whatever the bits are; the success exit
belongs to DWALK's step by the model's choice (log entry 11). -/
def Obligations.DwalkAlwaysEndsTheRun : Prop :=
  ∀ (s : State) (T : HTree), s.HasTree T → s.cfg.inHolds s.inLen.toNat = true →
    s.cfg.outHolds (s.outLen + (s.orig.toNat - s.emitted.toNat)) = true → ∃ t, exec .dwalk s = .next t ∧ t.state = .done

/-- Rule R99: the decoder never looks past the last bit it needs: with other bits there, other bytes after them, or another `IN_LEN` that still
reaches so far, a successful DWALK writes the same bytes. -/
def Obligations.DecoderNeverLooksPastItsLastBit : Prop :=
  ∀ s s' t : State, s' = { s with inBuf := s'.inBuf, inLen := s'.inLen, inEpoch := s'.inEpoch } →
    exec .dwalk s = .next t → t.ok = true → s'.cfg.inHolds s'.inLen.toNat = true →
    8 * t.brPos.toNat + t.brCur.toNat ≤ 8 * s'.inLen.toNat →
    (∀ a, ∀ k < 8, 8 * a + k < 8 * t.brPos.toNat + t.brCur.toNat → (s'.readIn a).getLsbD k = (s.readIn a).getLsbD k) →
    ∃ t', exec .dwalk s' = .next t' ∧ t'.ok = true ∧ t'.outBuf = t.outBuf ∧ t'.outLen = t.outLen

/-! ### The whole machine -/

/-- Where the model stops by name because a rule's requirement does not hold: extraction from an empty queue (rule R122), a read of IN with
`IN_LEN` beyond `IN_CAP` (rule R62), an Append past `OUT_CAP` (rule R64). -/
def Obligations.StopsOutsideRequirements : Prop :=
  (∀ s : State, s.pq = [] → exec .tmerge s = .fault .queueUnderflow) ∧
  (∀ (s : State) (i : Instr), s.cfg.inHolds s.inLen.toNat = false →
    i = .fcount ∨ i = .cparse ∨ i = .pack ∨ i = .dwalk ∨ i = .dstep ∨ i = .rbit → exec i s = .fault .inAddressAbsent) ∧
  (∀ s : State, s.bwCur = 7 → s.cfg.outHolds (s.outLen + 1) = false → exec .wbit s = .fault .outAddressAbsent)

/-- Rules R24, R26, R61: no operation writes IN, `IN_LEN` or the parameters, and only a START sets `CTRL.OP`. -/
def Obligations.EngineNeverWritesItsInput : Prop :=
  ∀ (i : Instr) (s t : State), exec i s = .next t →
    t.inBuf = s.inBuf ∧ t.inEpoch = s.inEpoch ∧ t.inLen = s.inLen ∧ t.cfg = s.cfg ∧ t.host = s.host ∧ t.replies = s.replies ∧
    (i ≠ .compress → i ≠ .decompress → t.ctrlOp = s.ctrlOp)

/-- Rule R65: OUT is written strictly front to back: an operation that does not fail leaves every byte before `OUT_LEN` as it was. -/
def Obligations.OutputIsOnlyAppended : Prop :=
  ∀ (i : Instr) (s t : State), s.Inv → i ≠ .init → exec i s = .next t → t.err = none →
    s.outLen ≤ t.outLen ∧ ∀ a < s.outLen, t.readOut a = s.readOut a

/-- Rule R238: FCOUNT, TMERGE, CENC, PACK, PUTCODE, WBIT, FLUSH and RBIT never fail. -/
def Obligations.QuietOperationsNeverFail : Prop :=
  ∀ (i : Instr) (s t : State),
    i = .fcount ∨ i = .tmerge ∨ i = .cenc ∨ i = .pack ∨ i = .putcode ∨ i = .wbit ∨ i = .flush ∨ i = .rbit →
    s.err = none → exec i s = .next t → t.err = none

/-- Every step, the host's moves too, keeps the invariant: memories canonical, the queue a set, the accumulator clear above its cursor (rule
R150), `PHASE`, `OK` and `ERR` as rules R22 and R23 say for the state, and of OUT exactly `OUT[0 .. OUT_LEN-1]` specified when no run is in
progress (rule R27). -/
def Obligations.EveryStepKeepsTheInvariant : Prop :=
  ∀ s t : State, s.Inv → step s = .next t → t.Inv

/-- Rule R222: every accepted START is followed by DONE, from every state with no run in progress, for every input, every capacity and both
commands; by the success exit or the failure exit. The rule gives no time: the bound of 262 steps rests on the model's choice of what a step
is (log entry 11). -/
def Obligations.EveryRunEnds : Prop :=
  ∀ (s : State) (op : Bool), s.state ≠ .busy → s.host = [] → ∃ n ≤ 262, ∃ t, run n (s.start op) = .next t ∧ t.state = .done ∧
    ((t.ok = true ∧ t.err = none) ∨ (t.ok = false ∧ t.err ≠ none ∧ t.outLen = 0))

/-- Rules R231, R237: COMPRESS of an empty input fails before any operation but INIT, and a command whose `IN_LEN` is beyond `IN_CAP` fails in
INIT. That the check for an empty input, which COMPRESS makes after INIT, belongs to INIT's step, and that this is the first step after the
START, is the model's choice (log entry 11). -/
def Obligations.RefusalsAtOnce : Prop :=
  (∀ s : State, s.state ≠ .busy → s.host = [] → s.inLen = 0 → ∃ t, run 1 (s.start false) = .next t ∧
    t.state = .done ∧ t.ok = false ∧ t.err = some .inputEmpty ∧ t.outLen = 0) ∧
  (∀ (s : State) (op : Bool), s.state ≠ .busy → s.host = [] → s.cfg.inHolds s.inLen.toNat = false →
    ∃ t, run 1 (s.start op) = .next t ∧ t.state = .done ∧ t.ok = false ∧ t.err = some .capacityExceeded ∧ t.outLen = 0)

/-- Rules R213, R218: a COMPRESS run of an input that is not empty and fits IN succeeds exactly when OUT has room for the container, `16 + 9m +
ceil(B/8)` bytes: `m` the number of distinct byte values, `B` the bits of the input's codes in the code table of the run, which is that of the
run's tree with one leaf per distinct byte value. Else it fails with CapacityExceeded. -/
def Obligations.CompressSucceedsWithRoom : Prop :=
  ∀ s : State, s.state ≠ .busy → s.host = [] → s.inLen ≠ 0 → s.cfg.inHolds s.inLen.toNat = true →
    ∃ (n : Nat) (t : State) (T : HTree) (total : Nat), run n (s.start false) = .next t ∧ t.state = .done ∧
      t.HasTree T ∧ (∀ a, a ∈ T.codes.map Prod.fst ↔ a ∈ s.input) ∧ (∀ e ∈ T.codes, t.codeBitsOf e.1 = e.2) ∧
      total = 16 + 9 * s.input.dedup.length + ((s.input.flatMap t.codeBitsOf).length + 7) / 8 ∧
      (s.cfg.outHolds total = true → t.ok = true ∧ t.err = none ∧ t.outLen = total) ∧
      (s.cfg.outHolds total = false → t.ok = false ∧ t.err = some .capacityExceeded ∧ t.outLen = 0)

/-- Rules R89, R218: what a successful COMPRESS run leaves in OUT: the header, one entry per distinct byte value in ascending order with its count,
and the codes of all input bytes packed least significant bit first and padded with zeros, in the prefix-free code of the run's code table. -/
def Obligations.CompressWritesAContainer : Prop :=
  ∀ (s t : State) (n : Nat), s.state ≠ .busy → s.host = [] → run n (s.start false) = .next t → t.state = .done → t.ok = true →
    ∃ tail : List Byte,
      (∀ a ∈ s.input, t.codeBitsOf a ≠ []) ∧ (∀ a ∈ s.input, ∀ b ∈ s.input, a ≠ b → ¬ t.codeBitsOf a <+: t.codeBitsOf b) ∧
      t.output = [0x48, 0x55, 0x46, 0x31] ++ leBytes 8 s.inLen.toNat ++ leBytes 4 s.input.dedup.length ++
        ((allSymbols.filter fun k => decide (k ∈ s.input)).flatMap fun k => k :: leBytes 8 (s.input.count k)) ++ tail ∧
      tail.length = ((s.input.flatMap t.codeBitsOf).length + 7) / 8 ∧
      streamOf tail = s.input.flatMap t.codeBitsOf ++ List.replicate (8 * tail.length - (s.input.flatMap t.codeBitsOf).length) false

/-- Rule R221: a run's result depends only on the command, the parameters, `IN_LEN` and `IN[0 .. IN_LEN-1]`; nothing an earlier run left
behind can be told from it. That the two runs also take the same number of steps rests on the model's choice of what a step is (log
entry 11). -/
def Obligations.ResultDependsOnlyOnInput : Prop :=
  ∀ (s s' t : State) (op : Bool) (n : Nat), s.state ≠ .busy → s'.state ≠ .busy → s.host = [] → s'.host = [] →
    s'.cfg = s.cfg → s'.inLen = s.inLen → s'.input = s.input →
    run n (s.start op) = .next t → t.state = .done →
    ∃ t', run n (s'.start op) = .next t' ∧ t'.state = .done ∧ t'.ok = t.ok ∧ t'.err = t.err ∧ t'.outLen = t.outLen ∧
      t'.output = t.output

/-- Rule R220: the round trip. After a successful COMPRESS run, the host copies the result to IN and starts DECOMPRESS: that run succeeds and
its output is the input of the first. -/
def Obligations.DecompressInvertsCompress : Prop :=
  ∀ (s t : State) (n : Nat), s.state ≠ .busy → s.host = [] → run n (s.start false) = .next t → t.state = .done → t.ok = true →
    t.outLen < 2 ^ 64 → t.cfg.inHolds t.outLen = true → t.cfg.outHolds s.inLen.toNat = true →
    ∃ (n' : Nat) (t' : State),
      run n' { t with host := [{ wait := .turns 0, move := .copyOutToIn }, { wait := .turns 0, move := .writeCtrl 3 }] } = .next t' ∧
      t'.host = [] ∧ t'.state = .done ∧ t'.ok = true ∧ t'.err = none ∧ t'.outLen = s.inLen.toNat ∧ t'.output = s.input

/-- Rule R172: a container that COMPRESS wrote and that has lost its last byte never decompresses: the run fails with BitstreamTruncated. -/
def Obligations.TruncatedContainerFails : Prop :=
  ∀ (s t s' : State) (n : Nat), s.state ≠ .busy → s.host = [] → run n (s.start false) = .next t → t.state = .done → t.ok = true →
    s'.state ≠ .busy → s'.host = [] → s'.inLen.toNat + 1 = t.outLen → s'.input = t.output.dropLast →
    s'.cfg.inHolds s'.inLen.toNat = true → s'.cfg.outHolds s.inLen.toNat = true →
    ∃ (n' : Nat) (t' : State), run n' (s'.start true) = .next t' ∧ t'.state = .done ∧ t'.ok = false ∧
      t'.err = some .bitstreamTruncated ∧ t'.outLen = 0

/-- Rule R63: `MemRead` gives the number whose bits 7:0 stand at the lowest address (rule R66). -/
def Obligations.MemReadIsLittleEndian : Prop :=
  ∀ (s : State) (a n : Nat), s.memRead a n = ((List.range n).map fun j => (s.readIn (a + j)).toNat * 2 ^ (8 * j)).sum

/-- Rule R236: PlaceholderReached ends only a DECOMPRESS run, and only one whose table has exactly one key. -/
def Obligations.PlaceholderOnlyWithOneKey : Prop :=
  ∀ (s t : State) (op : Bool) (n : Nat), s.state ≠ .busy → s.host = [] → run n (s.start op) = .next t → t.state = .done →
    t.err = some .placeholderReached → op = true ∧ t.m = 1 ∧ ∃ x, t.keys = [x]
end

