-- ==== Sys2Proof/Laws/State.lean ====
section
/-! SUPPORT. What each named update of State leaves in each field: one lemma per field, true by unfolding. -/

namespace Sys2Proof.Machine

variable (s : State)

@[simp] theorem goto_cfg (p : PhaseCode) : (s.goto p).cfg = s.cfg := rfl
@[simp] theorem goto_ctrlOp (p : PhaseCode) : (s.goto p).ctrlOp = s.ctrlOp := rfl
@[simp] theorem goto_state (p : PhaseCode) : (s.goto p).state = s.state := rfl
@[simp] theorem goto_ok (p : PhaseCode) : (s.goto p).ok = s.ok := rfl
@[simp] theorem goto_err (p : PhaseCode) : (s.goto p).err = s.err := rfl
@[simp] theorem goto_phase (p : PhaseCode) : (s.goto p).phase = p := rfl
@[simp] theorem goto_inLen (p : PhaseCode) : (s.goto p).inLen = s.inLen := rfl
@[simp] theorem goto_outLen (p : PhaseCode) : (s.goto p).outLen = s.outLen := rfl
@[simp] theorem goto_inBuf (p : PhaseCode) : (s.goto p).inBuf = s.inBuf := rfl
@[simp] theorem goto_outBuf (p : PhaseCode) : (s.goto p).outBuf = s.outBuf := rfl
@[simp] theorem goto_freq (p : PhaseCode) : (s.goto p).freq = s.freq := rfl
@[simp] theorem goto_present (p : PhaseCode) : (s.goto p).present = s.present := rfl
@[simp] theorem goto_orig (p : PhaseCode) : (s.goto p).orig = s.orig := rfl
@[simp] theorem goto_inPos (p : PhaseCode) : (s.goto p).inPos = s.inPos := rfl
@[simp] theorem goto_m (p : PhaseCode) : (s.goto p).m = s.m := rfl
@[simp] theorem goto_mHdr (p : PhaseCode) : (s.goto p).mHdr = s.mHdr := rfl
@[simp] theorem goto_node (p : PhaseCode) : (s.goto p).node = s.node := rfl
@[simp] theorem goto_nn (p : PhaseCode) : (s.goto p).nn = s.nn := rfl
@[simp] theorem goto_root (p : PhaseCode) : (s.goto p).root = s.root := rfl
@[simp] theorem goto_pq (p : PhaseCode) : (s.goto p).pq = s.pq := rfl
@[simp] theorem goto_code (p : PhaseCode) : (s.goto p).code = s.code := rfl
@[simp] theorem goto_bwAcc (p : PhaseCode) : (s.goto p).bwAcc = s.bwAcc := rfl
@[simp] theorem goto_bwCur (p : PhaseCode) : (s.goto p).bwCur = s.bwCur := rfl
@[simp] theorem goto_brPos (p : PhaseCode) : (s.goto p).brPos = s.brPos := rfl
@[simp] theorem goto_brCur (p : PhaseCode) : (s.goto p).brCur = s.brCur := rfl
@[simp] theorem goto_walkCur (p : PhaseCode) : (s.goto p).walkCur = s.walkCur := rfl
@[simp] theorem goto_emitted (p : PhaseCode) : (s.goto p).emitted = s.emitted := rfl
@[simp] theorem goto_opSym (p : PhaseCode) : (s.goto p).opSym = s.opSym := rfl
@[simp] theorem goto_opBit (p : PhaseCode) : (s.goto p).opBit = s.opBit := rfl
@[simp] theorem goto_rbitVal (p : PhaseCode) : (s.goto p).rbitVal = s.rbitVal := rfl
@[simp] theorem goto_inEpoch (p : PhaseCode) : (s.goto p).inEpoch = s.inEpoch := rfl
@[simp] theorem goto_outEpoch (p : PhaseCode) : (s.goto p).outEpoch = s.outEpoch := rfl
@[simp] theorem goto_phaseDraws (p : PhaseCode) : (s.goto p).phaseDraws = s.phaseDraws := rfl
@[simp] theorem goto_host (p : PhaseCode) : (s.goto p).host = s.host := rfl
@[simp] theorem goto_replies (p : PhaseCode) : (s.goto p).replies = s.replies := rfl

@[simp] theorem setFreq_cfg (sym : Byte) (v : Word64) : (s.setFreq sym v).cfg = s.cfg := rfl
@[simp] theorem setFreq_ctrlOp (sym : Byte) (v : Word64) : (s.setFreq sym v).ctrlOp = s.ctrlOp := rfl
@[simp] theorem setFreq_state (sym : Byte) (v : Word64) : (s.setFreq sym v).state = s.state := rfl
@[simp] theorem setFreq_ok (sym : Byte) (v : Word64) : (s.setFreq sym v).ok = s.ok := rfl
@[simp] theorem setFreq_err (sym : Byte) (v : Word64) : (s.setFreq sym v).err = s.err := rfl
@[simp] theorem setFreq_phase (sym : Byte) (v : Word64) : (s.setFreq sym v).phase = s.phase := rfl
@[simp] theorem setFreq_inLen (sym : Byte) (v : Word64) : (s.setFreq sym v).inLen = s.inLen := rfl
@[simp] theorem setFreq_outLen (sym : Byte) (v : Word64) : (s.setFreq sym v).outLen = s.outLen := rfl
@[simp] theorem setFreq_inBuf (sym : Byte) (v : Word64) : (s.setFreq sym v).inBuf = s.inBuf := rfl
@[simp] theorem setFreq_outBuf (sym : Byte) (v : Word64) : (s.setFreq sym v).outBuf = s.outBuf := rfl
@[simp] theorem setFreq_freq (sym : Byte) (v : Word64) : (s.setFreq sym v).freq = s.freq.set sym.toNat v sym.isLt := rfl
@[simp] theorem setFreq_present (sym : Byte) (v : Word64) : (s.setFreq sym v).present = s.present := rfl
@[simp] theorem setFreq_orig (sym : Byte) (v : Word64) : (s.setFreq sym v).orig = s.orig := rfl
@[simp] theorem setFreq_inPos (sym : Byte) (v : Word64) : (s.setFreq sym v).inPos = s.inPos := rfl
@[simp] theorem setFreq_m (sym : Byte) (v : Word64) : (s.setFreq sym v).m = s.m := rfl
@[simp] theorem setFreq_mHdr (sym : Byte) (v : Word64) : (s.setFreq sym v).mHdr = s.mHdr := rfl
@[simp] theorem setFreq_node (sym : Byte) (v : Word64) : (s.setFreq sym v).node = s.node := rfl
@[simp] theorem setFreq_nn (sym : Byte) (v : Word64) : (s.setFreq sym v).nn = s.nn := rfl
@[simp] theorem setFreq_root (sym : Byte) (v : Word64) : (s.setFreq sym v).root = s.root := rfl
@[simp] theorem setFreq_pq (sym : Byte) (v : Word64) : (s.setFreq sym v).pq = s.pq := rfl
@[simp] theorem setFreq_code (sym : Byte) (v : Word64) : (s.setFreq sym v).code = s.code := rfl
@[simp] theorem setFreq_bwAcc (sym : Byte) (v : Word64) : (s.setFreq sym v).bwAcc = s.bwAcc := rfl
@[simp] theorem setFreq_bwCur (sym : Byte) (v : Word64) : (s.setFreq sym v).bwCur = s.bwCur := rfl
@[simp] theorem setFreq_brPos (sym : Byte) (v : Word64) : (s.setFreq sym v).brPos = s.brPos := rfl
@[simp] theorem setFreq_brCur (sym : Byte) (v : Word64) : (s.setFreq sym v).brCur = s.brCur := rfl
@[simp] theorem setFreq_walkCur (sym : Byte) (v : Word64) : (s.setFreq sym v).walkCur = s.walkCur := rfl
@[simp] theorem setFreq_emitted (sym : Byte) (v : Word64) : (s.setFreq sym v).emitted = s.emitted := rfl
@[simp] theorem setFreq_opSym (sym : Byte) (v : Word64) : (s.setFreq sym v).opSym = s.opSym := rfl
@[simp] theorem setFreq_opBit (sym : Byte) (v : Word64) : (s.setFreq sym v).opBit = s.opBit := rfl
@[simp] theorem setFreq_rbitVal (sym : Byte) (v : Word64) : (s.setFreq sym v).rbitVal = s.rbitVal := rfl
@[simp] theorem setFreq_inEpoch (sym : Byte) (v : Word64) : (s.setFreq sym v).inEpoch = s.inEpoch := rfl
@[simp] theorem setFreq_outEpoch (sym : Byte) (v : Word64) : (s.setFreq sym v).outEpoch = s.outEpoch := rfl
@[simp] theorem setFreq_phaseDraws (sym : Byte) (v : Word64) : (s.setFreq sym v).phaseDraws = s.phaseDraws := rfl
@[simp] theorem setFreq_host (sym : Byte) (v : Word64) : (s.setFreq sym v).host = s.host := rfl
@[simp] theorem setFreq_replies (sym : Byte) (v : Word64) : (s.setFreq sym v).replies = s.replies := rfl

@[simp] theorem forgetOutFrom_cfg (n : Nat) : (s.forgetOutFrom n).cfg = s.cfg := rfl
@[simp] theorem forgetOutFrom_ctrlOp (n : Nat) : (s.forgetOutFrom n).ctrlOp = s.ctrlOp := rfl
@[simp] theorem forgetOutFrom_state (n : Nat) : (s.forgetOutFrom n).state = s.state := rfl
@[simp] theorem forgetOutFrom_ok (n : Nat) : (s.forgetOutFrom n).ok = s.ok := rfl
@[simp] theorem forgetOutFrom_err (n : Nat) : (s.forgetOutFrom n).err = s.err := rfl
@[simp] theorem forgetOutFrom_phase (n : Nat) : (s.forgetOutFrom n).phase = s.phase := rfl
@[simp] theorem forgetOutFrom_inLen (n : Nat) : (s.forgetOutFrom n).inLen = s.inLen := rfl
@[simp] theorem forgetOutFrom_outLen (n : Nat) : (s.forgetOutFrom n).outLen = s.outLen := rfl
@[simp] theorem forgetOutFrom_inBuf (n : Nat) : (s.forgetOutFrom n).inBuf = s.inBuf := rfl
@[simp] theorem forgetOutFrom_outBuf (n : Nat) : (s.forgetOutFrom n).outBuf = Memory.below s.outBuf n := rfl
@[simp] theorem forgetOutFrom_freq (n : Nat) : (s.forgetOutFrom n).freq = s.freq := rfl
@[simp] theorem forgetOutFrom_present (n : Nat) : (s.forgetOutFrom n).present = s.present := rfl
@[simp] theorem forgetOutFrom_orig (n : Nat) : (s.forgetOutFrom n).orig = s.orig := rfl
@[simp] theorem forgetOutFrom_inPos (n : Nat) : (s.forgetOutFrom n).inPos = s.inPos := rfl
@[simp] theorem forgetOutFrom_m (n : Nat) : (s.forgetOutFrom n).m = s.m := rfl
@[simp] theorem forgetOutFrom_mHdr (n : Nat) : (s.forgetOutFrom n).mHdr = s.mHdr := rfl
@[simp] theorem forgetOutFrom_node (n : Nat) : (s.forgetOutFrom n).node = s.node := rfl
@[simp] theorem forgetOutFrom_nn (n : Nat) : (s.forgetOutFrom n).nn = s.nn := rfl
@[simp] theorem forgetOutFrom_root (n : Nat) : (s.forgetOutFrom n).root = s.root := rfl
@[simp] theorem forgetOutFrom_pq (n : Nat) : (s.forgetOutFrom n).pq = s.pq := rfl
@[simp] theorem forgetOutFrom_code (n : Nat) : (s.forgetOutFrom n).code = s.code := rfl
@[simp] theorem forgetOutFrom_bwAcc (n : Nat) : (s.forgetOutFrom n).bwAcc = s.bwAcc := rfl
@[simp] theorem forgetOutFrom_bwCur (n : Nat) : (s.forgetOutFrom n).bwCur = s.bwCur := rfl
@[simp] theorem forgetOutFrom_brPos (n : Nat) : (s.forgetOutFrom n).brPos = s.brPos := rfl
@[simp] theorem forgetOutFrom_brCur (n : Nat) : (s.forgetOutFrom n).brCur = s.brCur := rfl
@[simp] theorem forgetOutFrom_walkCur (n : Nat) : (s.forgetOutFrom n).walkCur = s.walkCur := rfl
@[simp] theorem forgetOutFrom_emitted (n : Nat) : (s.forgetOutFrom n).emitted = s.emitted := rfl
@[simp] theorem forgetOutFrom_opSym (n : Nat) : (s.forgetOutFrom n).opSym = s.opSym := rfl
@[simp] theorem forgetOutFrom_opBit (n : Nat) : (s.forgetOutFrom n).opBit = s.opBit := rfl
@[simp] theorem forgetOutFrom_rbitVal (n : Nat) : (s.forgetOutFrom n).rbitVal = s.rbitVal := rfl
@[simp] theorem forgetOutFrom_inEpoch (n : Nat) : (s.forgetOutFrom n).inEpoch = s.inEpoch := rfl
@[simp] theorem forgetOutFrom_outEpoch (n : Nat) : (s.forgetOutFrom n).outEpoch = s.outEpoch + 1 := rfl
@[simp] theorem forgetOutFrom_phaseDraws (n : Nat) : (s.forgetOutFrom n).phaseDraws = s.phaseDraws := rfl
@[simp] theorem forgetOutFrom_host (n : Nat) : (s.forgetOutFrom n).host = s.host := rfl
@[simp] theorem forgetOutFrom_replies (n : Nat) : (s.forgetOutFrom n).replies = s.replies := rfl

@[simp] theorem failureExit_cfg (f : Failure) : (s.failureExit f).cfg = s.cfg := rfl
@[simp] theorem failureExit_ctrlOp (f : Failure) : (s.failureExit f).ctrlOp = s.ctrlOp := rfl
@[simp] theorem failureExit_state (f : Failure) : (s.failureExit f).state = .done := rfl
@[simp] theorem failureExit_ok (f : Failure) : (s.failureExit f).ok = false := rfl
@[simp] theorem failureExit_err (f : Failure) : (s.failureExit f).err = some f := rfl
@[simp] theorem failureExit_phase (f : Failure) : (s.failureExit f).phase = Phase.done := rfl
@[simp] theorem failureExit_inLen (f : Failure) : (s.failureExit f).inLen = s.inLen := rfl
@[simp] theorem failureExit_outLen (f : Failure) : (s.failureExit f).outLen = 0 := rfl
@[simp] theorem failureExit_inBuf (f : Failure) : (s.failureExit f).inBuf = s.inBuf := rfl
@[simp] theorem failureExit_outBuf (f : Failure) : (s.failureExit f).outBuf = Memory.below s.outBuf 0 := rfl
@[simp] theorem failureExit_freq (f : Failure) : (s.failureExit f).freq = s.freq := rfl
@[simp] theorem failureExit_present (f : Failure) : (s.failureExit f).present = s.present := rfl
@[simp] theorem failureExit_orig (f : Failure) : (s.failureExit f).orig = s.orig := rfl
@[simp] theorem failureExit_inPos (f : Failure) : (s.failureExit f).inPos = s.inPos := rfl
@[simp] theorem failureExit_m (f : Failure) : (s.failureExit f).m = s.m := rfl
@[simp] theorem failureExit_mHdr (f : Failure) : (s.failureExit f).mHdr = s.mHdr := rfl
@[simp] theorem failureExit_node (f : Failure) : (s.failureExit f).node = s.node := rfl
@[simp] theorem failureExit_nn (f : Failure) : (s.failureExit f).nn = s.nn := rfl
@[simp] theorem failureExit_root (f : Failure) : (s.failureExit f).root = s.root := rfl
@[simp] theorem failureExit_pq (f : Failure) : (s.failureExit f).pq = s.pq := rfl
@[simp] theorem failureExit_code (f : Failure) : (s.failureExit f).code = s.code := rfl
@[simp] theorem failureExit_bwAcc (f : Failure) : (s.failureExit f).bwAcc = s.bwAcc := rfl
@[simp] theorem failureExit_bwCur (f : Failure) : (s.failureExit f).bwCur = s.bwCur := rfl
@[simp] theorem failureExit_brPos (f : Failure) : (s.failureExit f).brPos = s.brPos := rfl
@[simp] theorem failureExit_brCur (f : Failure) : (s.failureExit f).brCur = s.brCur := rfl
@[simp] theorem failureExit_walkCur (f : Failure) : (s.failureExit f).walkCur = s.walkCur := rfl
@[simp] theorem failureExit_emitted (f : Failure) : (s.failureExit f).emitted = s.emitted := rfl
@[simp] theorem failureExit_opSym (f : Failure) : (s.failureExit f).opSym = s.opSym := rfl
@[simp] theorem failureExit_opBit (f : Failure) : (s.failureExit f).opBit = s.opBit := rfl
@[simp] theorem failureExit_rbitVal (f : Failure) : (s.failureExit f).rbitVal = s.rbitVal := rfl
@[simp] theorem failureExit_inEpoch (f : Failure) : (s.failureExit f).inEpoch = s.inEpoch := rfl
@[simp] theorem failureExit_outEpoch (f : Failure) : (s.failureExit f).outEpoch = s.outEpoch + 1 := rfl
@[simp] theorem failureExit_phaseDraws (f : Failure) : (s.failureExit f).phaseDraws = s.phaseDraws := rfl
@[simp] theorem failureExit_host (f : Failure) : (s.failureExit f).host = s.host := rfl
@[simp] theorem failureExit_replies (f : Failure) : (s.failureExit f).replies = s.replies := rfl

@[simp] theorem successExit_cfg : (s.successExit).cfg = s.cfg := rfl
@[simp] theorem successExit_ctrlOp : (s.successExit).ctrlOp = s.ctrlOp := rfl
@[simp] theorem successExit_state : (s.successExit).state = .done := rfl
@[simp] theorem successExit_ok : (s.successExit).ok = true := rfl
@[simp] theorem successExit_err : (s.successExit).err = none := rfl
@[simp] theorem successExit_phase : (s.successExit).phase = Phase.done := rfl
@[simp] theorem successExit_inLen : (s.successExit).inLen = s.inLen := rfl
@[simp] theorem successExit_outLen : (s.successExit).outLen = s.outLen := rfl
@[simp] theorem successExit_inBuf : (s.successExit).inBuf = s.inBuf := rfl
@[simp] theorem successExit_outBuf : (s.successExit).outBuf = Memory.below s.outBuf s.outLen := rfl
@[simp] theorem successExit_freq : (s.successExit).freq = s.freq := rfl
@[simp] theorem successExit_present : (s.successExit).present = s.present := rfl
@[simp] theorem successExit_orig : (s.successExit).orig = s.orig := rfl
@[simp] theorem successExit_inPos : (s.successExit).inPos = s.inPos := rfl
@[simp] theorem successExit_m : (s.successExit).m = s.m := rfl
@[simp] theorem successExit_mHdr : (s.successExit).mHdr = s.mHdr := rfl
@[simp] theorem successExit_node : (s.successExit).node = s.node := rfl
@[simp] theorem successExit_nn : (s.successExit).nn = s.nn := rfl
@[simp] theorem successExit_root : (s.successExit).root = s.root := rfl
@[simp] theorem successExit_pq : (s.successExit).pq = s.pq := rfl
@[simp] theorem successExit_code : (s.successExit).code = s.code := rfl
@[simp] theorem successExit_bwAcc : (s.successExit).bwAcc = s.bwAcc := rfl
@[simp] theorem successExit_bwCur : (s.successExit).bwCur = s.bwCur := rfl
@[simp] theorem successExit_brPos : (s.successExit).brPos = s.brPos := rfl
@[simp] theorem successExit_brCur : (s.successExit).brCur = s.brCur := rfl
@[simp] theorem successExit_walkCur : (s.successExit).walkCur = s.walkCur := rfl
@[simp] theorem successExit_emitted : (s.successExit).emitted = s.emitted := rfl
@[simp] theorem successExit_opSym : (s.successExit).opSym = s.opSym := rfl
@[simp] theorem successExit_opBit : (s.successExit).opBit = s.opBit := rfl
@[simp] theorem successExit_rbitVal : (s.successExit).rbitVal = s.rbitVal := rfl
@[simp] theorem successExit_inEpoch : (s.successExit).inEpoch = s.inEpoch := rfl
@[simp] theorem successExit_outEpoch : (s.successExit).outEpoch = s.outEpoch + 1 := rfl
@[simp] theorem successExit_phaseDraws : (s.successExit).phaseDraws = s.phaseDraws := rfl
@[simp] theorem successExit_host : (s.successExit).host = s.host := rfl
@[simp] theorem successExit_replies : (s.successExit).replies = s.replies := rfl

@[simp] theorem reply_cfg (r : HostReply) : (s.reply r).cfg = s.cfg := rfl
@[simp] theorem reply_ctrlOp (r : HostReply) : (s.reply r).ctrlOp = s.ctrlOp := rfl
@[simp] theorem reply_state (r : HostReply) : (s.reply r).state = s.state := rfl
@[simp] theorem reply_ok (r : HostReply) : (s.reply r).ok = s.ok := rfl
@[simp] theorem reply_err (r : HostReply) : (s.reply r).err = s.err := rfl
@[simp] theorem reply_phase (r : HostReply) : (s.reply r).phase = s.phase := rfl
@[simp] theorem reply_inLen (r : HostReply) : (s.reply r).inLen = s.inLen := rfl
@[simp] theorem reply_outLen (r : HostReply) : (s.reply r).outLen = s.outLen := rfl
@[simp] theorem reply_inBuf (r : HostReply) : (s.reply r).inBuf = s.inBuf := rfl
@[simp] theorem reply_outBuf (r : HostReply) : (s.reply r).outBuf = s.outBuf := rfl
@[simp] theorem reply_freq (r : HostReply) : (s.reply r).freq = s.freq := rfl
@[simp] theorem reply_present (r : HostReply) : (s.reply r).present = s.present := rfl
@[simp] theorem reply_orig (r : HostReply) : (s.reply r).orig = s.orig := rfl
@[simp] theorem reply_inPos (r : HostReply) : (s.reply r).inPos = s.inPos := rfl
@[simp] theorem reply_m (r : HostReply) : (s.reply r).m = s.m := rfl
@[simp] theorem reply_mHdr (r : HostReply) : (s.reply r).mHdr = s.mHdr := rfl
@[simp] theorem reply_node (r : HostReply) : (s.reply r).node = s.node := rfl
@[simp] theorem reply_nn (r : HostReply) : (s.reply r).nn = s.nn := rfl
@[simp] theorem reply_root (r : HostReply) : (s.reply r).root = s.root := rfl
@[simp] theorem reply_pq (r : HostReply) : (s.reply r).pq = s.pq := rfl
@[simp] theorem reply_code (r : HostReply) : (s.reply r).code = s.code := rfl
@[simp] theorem reply_bwAcc (r : HostReply) : (s.reply r).bwAcc = s.bwAcc := rfl
@[simp] theorem reply_bwCur (r : HostReply) : (s.reply r).bwCur = s.bwCur := rfl
@[simp] theorem reply_brPos (r : HostReply) : (s.reply r).brPos = s.brPos := rfl
@[simp] theorem reply_brCur (r : HostReply) : (s.reply r).brCur = s.brCur := rfl
@[simp] theorem reply_walkCur (r : HostReply) : (s.reply r).walkCur = s.walkCur := rfl
@[simp] theorem reply_emitted (r : HostReply) : (s.reply r).emitted = s.emitted := rfl
@[simp] theorem reply_opSym (r : HostReply) : (s.reply r).opSym = s.opSym := rfl
@[simp] theorem reply_opBit (r : HostReply) : (s.reply r).opBit = s.opBit := rfl
@[simp] theorem reply_rbitVal (r : HostReply) : (s.reply r).rbitVal = s.rbitVal := rfl
@[simp] theorem reply_inEpoch (r : HostReply) : (s.reply r).inEpoch = s.inEpoch := rfl
@[simp] theorem reply_outEpoch (r : HostReply) : (s.reply r).outEpoch = s.outEpoch := rfl
@[simp] theorem reply_phaseDraws (r : HostReply) : (s.reply r).phaseDraws = s.phaseDraws := rfl
@[simp] theorem reply_host (r : HostReply) : (s.reply r).host = s.host := rfl
@[simp] theorem reply_replies (r : HostReply) : (s.reply r).replies = r :: s.replies := rfl

@[simp] theorem initWork_cfg : (initWork s).cfg = s.cfg := rfl
@[simp] theorem initWork_ctrlOp : (initWork s).ctrlOp = s.ctrlOp := rfl
@[simp] theorem initWork_state : (initWork s).state = s.state := rfl
@[simp] theorem initWork_ok : (initWork s).ok = s.ok := rfl
@[simp] theorem initWork_err : (initWork s).err = s.err := rfl
@[simp] theorem initWork_phase : (initWork s).phase = Phase.init := rfl
@[simp] theorem initWork_inLen : (initWork s).inLen = s.inLen := rfl
@[simp] theorem initWork_outLen : (initWork s).outLen = 0 := rfl
@[simp] theorem initWork_inBuf : (initWork s).inBuf = s.inBuf := rfl
@[simp] theorem initWork_outBuf : (initWork s).outBuf = s.outBuf := rfl
@[simp] theorem initWork_freq : (initWork s).freq = Vector.replicate 256 0 := rfl
@[simp] theorem initWork_present : (initWork s).present = Vector.replicate 256 false := rfl
@[simp] theorem initWork_orig : (initWork s).orig = 0 := rfl
@[simp] theorem initWork_inPos : (initWork s).inPos = 0 := rfl
@[simp] theorem initWork_m : (initWork s).m = 0 := rfl
@[simp] theorem initWork_mHdr : (initWork s).mHdr = 0 := rfl
@[simp] theorem initWork_node : (initWork s).node = s.node := rfl
@[simp] theorem initWork_nn : (initWork s).nn = 0 := rfl
@[simp] theorem initWork_root : (initWork s).root = 0 := rfl
@[simp] theorem initWork_pq : (initWork s).pq = [] := rfl
@[simp] theorem initWork_code : (initWork s).code = s.code.map fun c => { c with len := 0 } := rfl
@[simp] theorem initWork_bwAcc : (initWork s).bwAcc = 0 := rfl
@[simp] theorem initWork_bwCur : (initWork s).bwCur = 0 := rfl
@[simp] theorem initWork_brPos : (initWork s).brPos = 0 := rfl
@[simp] theorem initWork_brCur : (initWork s).brCur = 0 := rfl
@[simp] theorem initWork_walkCur : (initWork s).walkCur = 0 := rfl
@[simp] theorem initWork_emitted : (initWork s).emitted = 0 := rfl
@[simp] theorem initWork_opSym : (initWork s).opSym = s.opSym := rfl
@[simp] theorem initWork_opBit : (initWork s).opBit = s.opBit := rfl
@[simp] theorem initWork_rbitVal : (initWork s).rbitVal = s.rbitVal := rfl
@[simp] theorem initWork_inEpoch : (initWork s).inEpoch = s.inEpoch := rfl
@[simp] theorem initWork_outEpoch : (initWork s).outEpoch = s.outEpoch := rfl
@[simp] theorem initWork_phaseDraws : (initWork s).phaseDraws = s.phaseDraws := rfl
@[simp] theorem initWork_host : (initWork s).host = s.host := rfl
@[simp] theorem initWork_replies : (initWork s).replies = s.replies := rfl

@[simp] theorem markKey_cfg (sym : Byte) : (s.markKey sym).cfg = s.cfg := by unfold State.markKey; split <;> rfl
@[simp] theorem markKey_ctrlOp (sym : Byte) : (s.markKey sym).ctrlOp = s.ctrlOp := by unfold State.markKey; split <;> rfl
@[simp] theorem markKey_state (sym : Byte) : (s.markKey sym).state = s.state := by unfold State.markKey; split <;> rfl
@[simp] theorem markKey_ok (sym : Byte) : (s.markKey sym).ok = s.ok := by unfold State.markKey; split <;> rfl
@[simp] theorem markKey_err (sym : Byte) : (s.markKey sym).err = s.err := by unfold State.markKey; split <;> rfl
@[simp] theorem markKey_phase (sym : Byte) : (s.markKey sym).phase = s.phase := by unfold State.markKey; split <;> rfl
@[simp] theorem markKey_inLen (sym : Byte) : (s.markKey sym).inLen = s.inLen := by unfold State.markKey; split <;> rfl
@[simp] theorem markKey_outLen (sym : Byte) : (s.markKey sym).outLen = s.outLen := by unfold State.markKey; split <;> rfl
@[simp] theorem markKey_inBuf (sym : Byte) : (s.markKey sym).inBuf = s.inBuf := by unfold State.markKey; split <;> rfl
@[simp] theorem markKey_outBuf (sym : Byte) : (s.markKey sym).outBuf = s.outBuf := by unfold State.markKey; split <;> rfl
@[simp] theorem markKey_freq (sym : Byte) : (s.markKey sym).freq = s.freq := by unfold State.markKey; split <;> rfl
@[simp] theorem markKey_orig (sym : Byte) : (s.markKey sym).orig = s.orig := by unfold State.markKey; split <;> rfl
@[simp] theorem markKey_inPos (sym : Byte) : (s.markKey sym).inPos = s.inPos := by unfold State.markKey; split <;> rfl
@[simp] theorem markKey_mHdr (sym : Byte) : (s.markKey sym).mHdr = s.mHdr := by unfold State.markKey; split <;> rfl
@[simp] theorem markKey_node (sym : Byte) : (s.markKey sym).node = s.node := by unfold State.markKey; split <;> rfl
@[simp] theorem markKey_nn (sym : Byte) : (s.markKey sym).nn = s.nn := by unfold State.markKey; split <;> rfl
@[simp] theorem markKey_root (sym : Byte) : (s.markKey sym).root = s.root := by unfold State.markKey; split <;> rfl
@[simp] theorem markKey_pq (sym : Byte) : (s.markKey sym).pq = s.pq := by unfold State.markKey; split <;> rfl
@[simp] theorem markKey_code (sym : Byte) : (s.markKey sym).code = s.code := by unfold State.markKey; split <;> rfl
@[simp] theorem markKey_bwAcc (sym : Byte) : (s.markKey sym).bwAcc = s.bwAcc := by unfold State.markKey; split <;> rfl
@[simp] theorem markKey_bwCur (sym : Byte) : (s.markKey sym).bwCur = s.bwCur := by unfold State.markKey; split <;> rfl
@[simp] theorem markKey_brPos (sym : Byte) : (s.markKey sym).brPos = s.brPos := by unfold State.markKey; split <;> rfl
@[simp] theorem markKey_brCur (sym : Byte) : (s.markKey sym).brCur = s.brCur := by unfold State.markKey; split <;> rfl
@[simp] theorem markKey_walkCur (sym : Byte) : (s.markKey sym).walkCur = s.walkCur := by unfold State.markKey; split <;> rfl
@[simp] theorem markKey_emitted (sym : Byte) : (s.markKey sym).emitted = s.emitted := by unfold State.markKey; split <;> rfl
@[simp] theorem markKey_opSym (sym : Byte) : (s.markKey sym).opSym = s.opSym := by unfold State.markKey; split <;> rfl
@[simp] theorem markKey_opBit (sym : Byte) : (s.markKey sym).opBit = s.opBit := by unfold State.markKey; split <;> rfl
@[simp] theorem markKey_rbitVal (sym : Byte) : (s.markKey sym).rbitVal = s.rbitVal := by unfold State.markKey; split <;> rfl
@[simp] theorem markKey_inEpoch (sym : Byte) : (s.markKey sym).inEpoch = s.inEpoch := by unfold State.markKey; split <;> rfl
@[simp] theorem markKey_outEpoch (sym : Byte) : (s.markKey sym).outEpoch = s.outEpoch := by unfold State.markKey; split <;> rfl
@[simp] theorem markKey_phaseDraws (sym : Byte) : (s.markKey sym).phaseDraws = s.phaseDraws := by unfold State.markKey; split <;> rfl
@[simp] theorem markKey_host (sym : Byte) : (s.markKey sym).host = s.host := by unfold State.markKey; split <;> rfl
@[simp] theorem markKey_replies (sym : Byte) : (s.markKey sym).replies = s.replies := by unfold State.markKey; split <;> rfl

@[simp] theorem start_cfg (op : Bool) : (s.start op).cfg = s.cfg := by unfold State.start; split <;> rfl
@[simp] theorem start_inLen (op : Bool) : (s.start op).inLen = s.inLen := by unfold State.start; split <;> rfl
@[simp] theorem start_outLen (op : Bool) : (s.start op).outLen = s.outLen := by unfold State.start; split <;> rfl
@[simp] theorem start_inBuf (op : Bool) : (s.start op).inBuf = s.inBuf := by unfold State.start; split <;> rfl
@[simp] theorem start_outBuf (op : Bool) : (s.start op).outBuf = s.outBuf := by unfold State.start; split <;> rfl
@[simp] theorem start_freq (op : Bool) : (s.start op).freq = s.freq := by unfold State.start; split <;> rfl
@[simp] theorem start_present (op : Bool) : (s.start op).present = s.present := by unfold State.start; split <;> rfl
@[simp] theorem start_orig (op : Bool) : (s.start op).orig = s.orig := by unfold State.start; split <;> rfl
@[simp] theorem start_inPos (op : Bool) : (s.start op).inPos = s.inPos := by unfold State.start; split <;> rfl
@[simp] theorem start_m (op : Bool) : (s.start op).m = s.m := by unfold State.start; split <;> rfl
@[simp] theorem start_mHdr (op : Bool) : (s.start op).mHdr = s.mHdr := by unfold State.start; split <;> rfl
@[simp] theorem start_node (op : Bool) : (s.start op).node = s.node := by unfold State.start; split <;> rfl
@[simp] theorem start_nn (op : Bool) : (s.start op).nn = s.nn := by unfold State.start; split <;> rfl
@[simp] theorem start_root (op : Bool) : (s.start op).root = s.root := by unfold State.start; split <;> rfl
@[simp] theorem start_pq (op : Bool) : (s.start op).pq = s.pq := by unfold State.start; split <;> rfl
@[simp] theorem start_code (op : Bool) : (s.start op).code = s.code := by unfold State.start; split <;> rfl
@[simp] theorem start_bwAcc (op : Bool) : (s.start op).bwAcc = s.bwAcc := by unfold State.start; split <;> rfl
@[simp] theorem start_bwCur (op : Bool) : (s.start op).bwCur = s.bwCur := by unfold State.start; split <;> rfl
@[simp] theorem start_brPos (op : Bool) : (s.start op).brPos = s.brPos := by unfold State.start; split <;> rfl
@[simp] theorem start_brCur (op : Bool) : (s.start op).brCur = s.brCur := by unfold State.start; split <;> rfl
@[simp] theorem start_walkCur (op : Bool) : (s.start op).walkCur = s.walkCur := by unfold State.start; split <;> rfl
@[simp] theorem start_emitted (op : Bool) : (s.start op).emitted = s.emitted := by unfold State.start; split <;> rfl
@[simp] theorem start_opSym (op : Bool) : (s.start op).opSym = s.opSym := by unfold State.start; split <;> rfl
@[simp] theorem start_opBit (op : Bool) : (s.start op).opBit = s.opBit := by unfold State.start; split <;> rfl
@[simp] theorem start_rbitVal (op : Bool) : (s.start op).rbitVal = s.rbitVal := by unfold State.start; split <;> rfl
@[simp] theorem start_inEpoch (op : Bool) : (s.start op).inEpoch = s.inEpoch := by unfold State.start; split <;> rfl
@[simp] theorem start_outEpoch (op : Bool) : (s.start op).outEpoch = s.outEpoch := by unfold State.start; split <;> rfl
@[simp] theorem start_phaseDraws (op : Bool) : (s.start op).phaseDraws = s.phaseDraws := by unfold State.start; split <;> rfl
@[simp] theorem start_host (op : Bool) : (s.start op).host = s.host := by unfold State.start; split <;> rfl
@[simp] theorem start_replies (op : Bool) : (s.start op).replies = s.replies := by unfold State.start; split <;> rfl

end Sys2Proof.Machine
end

