-- ==== Sys2Proof/Laws/Memory.lean ====
section
/-! SUPPORT. Memory: a read after a write, the canonical form, and reads of byte sequences. -/

namespace Sys2Proof.Machine

@[simp] theorem read?_nil (a : Nat) : Memory.read? [] a = none := rfl

theorem read?_cons (c : Host.Cell) (m : List Host.Cell) (a : Nat) :
    Memory.read? (c :: m) a = if c.1 = a then some c.2 else Memory.read? m a := rfl

/-- A read after a write of the same address gives the value written. -/
@[simp] theorem read?_write_same (m : List Host.Cell) (a : Nat) (v : Byte) :
    Memory.read? (Memory.write m a v) a = some v := by
  induction m with
  | nil => simp [Memory.write, read?_cons]
  | cons c m ih =>
    unfold Memory.write
    split
    · simp [read?_cons]
    · split
      · simp [read?_cons]
      · rw [read?_cons, if_neg (by omega), ih]

/-- A write leaves every other address alone. -/
theorem read?_write_other (m : List Host.Cell) {a x : Nat} (v : Byte) (h : x ≠ a) :
    Memory.read? (Memory.write m a v) x = Memory.read? m x := by
  induction m with
  | nil => simp [Memory.write, read?_cons, Ne.symm h]
  | cons c m ih =>
    unfold Memory.write
    split
    · rw [read?_cons, if_neg (Ne.symm h)]
    · split
      · next _ heq => rw [read?_cons, read?_cons, if_neg (Ne.symm h), if_neg (by omega)]
      · rw [read?_cons, read?_cons, ih]

theorem write_addr (m : List Host.Cell) (a : Nat) (v : Byte) {c : Host.Cell} (h : c ∈ Memory.write m a v) :
    c.1 = a ∨ c ∈ m := by
  induction m with
  | nil => simp [Memory.write] at h; simp [h]
  | cons d m ih =>
    unfold Memory.write at h
    split at h
    · rcases List.mem_cons.1 h with rfl | h
      · exact .inl rfl
      · exact .inr h
    · split at h
      · rcases List.mem_cons.1 h with rfl | h
        · exact .inl rfl
        · exact .inr (List.mem_cons_of_mem _ h)
      · rcases List.mem_cons.1 h with rfl | h
        · exact .inr List.mem_cons_self
        · exact (ih h).imp_right (List.mem_cons_of_mem _)

/-- A write keeps the canonical form. -/
theorem wf_write {m : List Host.Cell} (h : Memory.wf m) (a : Nat) (v : Byte) : Memory.wf (Memory.write m a v) := by
  induction m with
  | nil => simp [Memory.write, Memory.wf]
  | cons d m ih =>
    obtain ⟨hd, hm⟩ := List.pairwise_cons.1 h
    unfold Memory.write
    split
    · next hlt =>
      refine List.pairwise_cons.2 ⟨fun c hc => ?_, h⟩
      rcases List.mem_cons.1 hc with rfl | hc
      · exact hlt
      · exact lt_trans hlt (hd c hc)
    · split
      · next _ heq => exact List.pairwise_cons.2 ⟨fun c hc => heq ▸ hd c hc, hm⟩
      · next hlt hne =>
        refine List.pairwise_cons.2 ⟨fun c hc => ?_, ih hm⟩
        rcases write_addr m a v hc with h1 | h1
        · rw [h1]; omega
        · exact hd c h1

theorem wf_writeBytes {m : List Host.Cell} (h : Memory.wf m) (a : Nat) (bs : List Byte) :
    Memory.wf (Memory.writeBytes m a bs) := by
  induction bs generalizing m a with
  | nil => exact h
  | cons b bs ih => exact ih (wf_write h a b) (a + 1)

theorem wf_below {m : List Host.Cell} (h : Memory.wf m) (n : Nat) : Memory.wf (Memory.below m n) :=
  List.Pairwise.filter _ h

@[simp] theorem mem_below {m : List Host.Cell} {n : Nat} {c : Host.Cell} : c ∈ Memory.below m n ↔ c ∈ m ∧ c.1 < n := by
  simp [Memory.below, List.mem_filter]

/-- Below `n` nothing is forgotten. -/
theorem read?_below (m : List Host.Cell) {n a : Nat} (h : a < n) :
    Memory.read? (Memory.below m n) a = Memory.read? m a := by
  induction m with
  | nil => rfl
  | cons c m ih =>
    unfold Memory.below at ih ⊢
    by_cases hc : c.1 < n
    · rw [List.filter_cons_of_pos (by simpa using hc), read?_cons, read?_cons, ih]
    · rw [List.filter_cons_of_neg (by simpa using hc), read?_cons, if_neg (by omega), ih]

@[simp] theorem writeBytes_nil (m : List Host.Cell) (a : Nat) : Memory.writeBytes m a [] = m := rfl

theorem writeBytes_append (m : List Host.Cell) (a : Nat) (xs ys : List Byte) :
    Memory.writeBytes m a (xs ++ ys) = Memory.writeBytes (Memory.writeBytes m a xs) (a + xs.length) ys := by
  induction xs generalizing m a with
  | nil => rfl
  | cons x xs ih =>
    simp only [List.cons_append, Memory.writeBytes, ih, List.length_cons]
    congr 1; omega

/-- Outside the written bytes nothing changes. -/
theorem read?_writeBytes_outside (m : List Host.Cell) {a x : Nat} (bs : List Byte) (h : x < a ∨ a + bs.length ≤ x) :
    Memory.read? (Memory.writeBytes m a bs) x = Memory.read? m x := by
  induction bs generalizing m a with
  | nil => rfl
  | cons b bs ih =>
    simp only [List.length_cons] at h
    rw [Memory.writeBytes, ih (Memory.write m a b) (by omega), read?_write_other _ _ (by omega)]

/-- Inside the written bytes each address gives its byte. -/
theorem read?_writeBytes_inside (m : List Host.Cell) (a : Nat) (bs : List Byte) {j : Nat} (h : j < bs.length) :
    Memory.read? (Memory.writeBytes m a bs) (a + j) = some bs[j] := by
  induction bs generalizing m a j with
  | nil => simp at h
  | cons b bs ih =>
    cases j with
    | zero =>
      rw [Memory.writeBytes, read?_writeBytes_outside _ _ (by omega)]
      simp
    | succ j =>
      have hj : j < bs.length := by simpa using h
      have := ih (Memory.write m a b) (a + 1) hj
      rw [Memory.writeBytes, show a + (j + 1) = a + 1 + j by omega, this]
      rfl

@[simp] theorem length_leBytes (n v : Nat) : (leBytes n v).length = n := by
  induction n generalizing v with
  | zero => rfl
  | succ n ih => simp [leBytes, ih]

/-- Assembling the bytes of a number gives it back (rules R63, R64, R66). -/
theorem leValue_leBytes (n v : Nat) (h : v < 2 ^ (8 * n)) : leValue (leBytes n v) = v := by
  induction n generalizing v with
  | zero => simp at h; simp [leBytes, leValue, h]
  | succ n ih =>
    have h2 : v / 2 ^ 8 < 2 ^ (8 * n) := by
      rw [Nat.div_lt_iff_lt_mul (by norm_num), ← pow_add]
      rwa [show 8 * n + 8 = 8 * (n + 1) by ring]
    simp only [leBytes, leValue, ih _ h2, BitVec.toNat_ofNat]
    omega

theorem leValue_lt (bs : List Byte) : leValue bs < 2 ^ (8 * bs.length) := by
  induction bs with
  | nil => simp [leValue]
  | cons b bs ih =>
    have hb := b.isLt
    simp only [leValue, List.length_cons, Nat.mul_add, pow_add, mul_one]
    omega

@[simp] theorem length_readInBytes (s : State) (a n : Nat) : (s.readInBytes a n).length = n := by
  induction n generalizing a with
  | zero => rfl
  | succ n ih => simp [State.readInBytes, ih]

@[simp] theorem length_readOutBytes (s : State) (a n : Nat) : (s.readOutBytes a n).length = n := by
  induction n generalizing a with
  | zero => rfl
  | succ n ih => simp [State.readOutBytes, ih]

theorem getElem_readInBytes (s : State) (a n j : Nat) (h : j < (s.readInBytes a n).length) :
    (s.readInBytes a n)[j] = s.readIn (a + j) := by
  induction n generalizing a j with
  | zero => simp [State.readInBytes] at h
  | succ n ih =>
    cases j with
    | zero => rfl
    | succ j =>
      simp only [State.readInBytes, List.getElem_cons_succ]
      rw [ih]; congr 1; omega

theorem getElem_readOutBytes (s : State) (a n j : Nat) (h : j < (s.readOutBytes a n).length) :
    (s.readOutBytes a n)[j] = s.readOut (a + j) := by
  induction n generalizing a j with
  | zero => simp [State.readOutBytes] at h
  | succ n ih =>
    cases j with
    | zero => rfl
    | succ j =>
      simp only [State.readOutBytes, List.getElem_cons_succ]
      rw [ih]; congr 1; omega

/-- Two states in which IN holds the same bytes read the same byte. -/
theorem readIn_congr {s t : State} (hb : t.inBuf = s.inBuf) (he : t.inEpoch = s.inEpoch) (a : Nat) : t.readIn a = s.readIn a := by
  simp [State.readIn, State.inUnlisted, hb, he]

theorem readInBytes_congr {s t : State} (h : ∀ a, t.readIn a = s.readIn a) (a n : Nat) :
    t.readInBytes a n = s.readInBytes a n := by
  induction n generalizing a with
  | zero => rfl
  | succ n ih => simp [State.readInBytes, h, ih]

/-- Two states in which OUT holds the same bytes from `a` on for `n` addresses read the same sequence there. -/
theorem readOutBytes_congr {s t : State} (a n : Nat) (h : ∀ x, a ≤ x → x < a + n → t.readOut x = s.readOut x) :
    t.readOutBytes a n = s.readOutBytes a n := by
  induction n generalizing a with
  | zero => rfl
  | succ n ih =>
    simp only [State.readOutBytes]
    rw [h a le_rfl (by omega), ih (a + 1) fun x h1 h2 => h x (by omega) (by omega)]

theorem readInBytes_append (s : State) (a m n : Nat) :
    s.readInBytes a (m + n) = s.readInBytes a m ++ s.readInBytes (a + m) n := by
  induction m generalizing a with
  | zero => simp [State.readInBytes]
  | succ m ih =>
    rw [show m + 1 + n = (m + n) + 1 by omega]
    simp only [State.readInBytes, ih, List.cons_append]
    rw [show a + 1 + m = a + (m + 1) by omega]

theorem readOutBytes_append (s : State) (a m n : Nat) :
    s.readOutBytes a (m + n) = s.readOutBytes a m ++ s.readOutBytes (a + m) n := by
  induction m generalizing a with
  | zero => simp [State.readOutBytes]
  | succ m ih =>
    rw [show m + 1 + n = (m + n) + 1 by omega]
    simp only [State.readOutBytes, ih, List.cons_append]
    rw [show a + 1 + m = a + (m + 1) by omega]

end Sys2Proof.Machine
end

