-- ==== Sys2Proof/Laws/Ops.lean ====
section
/-! SUPPORT. What the shared operations can do: one lemma each, cited instead of unfolding. -/

namespace Sys2Proof.Machine

/-! ### Flow -/

@[simp] theorem andThen_ok (s : State) (b : State → Flow) : (Flow.ok s).andThen b = b s := rfl
@[simp] theorem andThen_raised (f : Failure) (s : State) (b : State → Flow) : (Flow.raised f s).andThen b = .raised f s := rfl
@[simp] theorem andThen_stopped (r : Fault) (b : State → Flow) : (Flow.stopped r).andThen b = .stopped r := rfl

theorem andThen_eq_ok {a : Flow} {b : State → Flow} {t : State} :
    a.andThen b = .ok t ↔ ∃ u, a = .ok u ∧ b u = .ok t := by
  cases a <;> simp

theorem andThen_eq_raised {a : Flow} {b : State → Flow} {f : Failure} {t : State} :
    a.andThen b = .raised f t ↔ a = .raised f t ∨ ∃ u, a = .ok u ∧ b u = .raised f t := by
  cases a <;> simp

theorem andThen_eq_stopped {a : Flow} {b : State → Flow} {r : Fault} :
    a.andThen b = .stopped r ↔ a = .stopped r ∨ ∃ u, a = .ok u ∧ b u = .stopped r := by
  cases a <;> simp

theorem andThen_assoc (a : Flow) (b c : State → Flow) :
    (a.andThen b).andThen c = a.andThen fun s => (b s).andThen c := by
  cases a <;> rfl

@[simp] theorem outcome_ok (s : State) : (Flow.ok s).outcome = .next s := rfl
@[simp] theorem outcome_raised (f : Failure) (s : State) : (Flow.raised f s).outcome = .next (s.failureExit f) := rfl
@[simp] theorem outcome_stopped (r : Fault) : (Flow.stopped r).outcome = .fault r := rfl

/-- A step's next state is where the operation went on to, or the failure exit of where it raised. -/
theorem outcome_eq_next {a : Flow} {t : State} :
    a.outcome = .next t ↔ a = .ok t ∨ ∃ f u, a = .raised f u ∧ t = u.failureExit f := by
  cases a <;> simp [eq_comm]

@[simp] theorem each_nil {α : Type} (body : α → State → Flow) (s : State) : Flow.each body [] s = .ok s := rfl
@[simp] theorem each_cons {α : Type} (body : α → State → Flow) (x : α) (xs : List α) (s : State) :
    Flow.each body (x :: xs) s = (body x s).andThen (Flow.each body xs) := rfl

theorem each_append {α : Type} (body : α → State → Flow) (xs ys : List α) (s : State) :
    Flow.each body (xs ++ ys) s = (Flow.each body xs s).andThen (Flow.each body ys) := by
  induction xs generalizing s with
  | nil => rfl
  | cons x xs ih =>
    simp only [List.cons_append, each_cons, andThen_assoc]
    congr 1; funext t; exact ih t

/-- A relation that every turn of a loop respects holds between its ends. -/
theorem each_rel {α : Type} {body : α → State → Flow} {P : State → State → Prop} (hrefl : ∀ s, P s s)
    (htrans : ∀ {s t u}, P s t → P t u → P s u) (hbody : ∀ x s t, body x s = .ok t → P s t) :
    ∀ (xs : List α) {s t : State}, Flow.each body xs s = .ok t → P s t
  | [], s, t, h => by
    rw [each_nil] at h
    cases h
    exact hrefl s
  | x :: xs, s, t, h => by
    rw [each_cons, andThen_eq_ok] at h
    obtain ⟨u, h1, h2⟩ := h
    exact htrans (hbody x s u h1) (each_rel hrefl htrans hbody xs h2)

/-- A property every turn of a loop keeps is kept by the loop. -/
theorem each_inv {α : Type} {body : α → State → Flow} {P : State → Prop} (hbody : ∀ x s t, body x s = .ok t → P s → P t)
    (xs : List α) {s t : State} (h : Flow.each body xs s = .ok t) (hs : P s) : P t :=
  each_rel (P := fun a b => P a → P b) (fun _ h => h) (fun h1 h2 h => h2 (h1 h)) hbody xs h hs

theorem nested_eq_ok {inner outer : PhaseCode} {op : State → Flow} {s t : State} :
    nested inner outer op s = .ok t ↔ ∃ u, op (s.goto inner) = .ok u ∧ t = u.goto outer := by
  simp only [nested, andThen_eq_ok, Flow.ok.injEq, eq_comm (a := t)]

theorem nested_eq_raised {inner outer : PhaseCode} {op : State → Flow} {f : Failure} {s t : State} :
    nested inner outer op s = .raised f t ↔ op (s.goto inner) = .raised f t := by
  simp [nested, andThen_eq_raised]

theorem nested_eq_stopped {inner outer : PhaseCode} {op : State → Flow} {r : Fault} {s : State} :
    nested inner outer op s = .stopped r ↔ op (s.goto inner) = .stopped r := by
  simp [nested, andThen_eq_stopped]

theorem withInput_eq_ok {op : State → Flow} {s t : State} : withInput op s = .ok t ↔ s.inputFits = true ∧ op s = .ok t := by
  unfold withInput; split <;> simp_all

theorem withInput_of_fits {op : State → Flow} {s : State} (h : s.inputFits = true) : withInput op s = op s := by
  simp [withInput, h]

/-! ### Append -/

theorem append_of_holds {s : State} {bs : List Byte} (h : s.cfg.outHolds (s.outLen + bs.length) = true) :
    s.append bs = .ok { s with outBuf := Memory.writeBytes s.outBuf s.outLen bs, outLen := s.outLen + bs.length } := by
  simp [State.append, h]

theorem append_eq_ok {s t : State} {bs : List Byte} :
    s.append bs = .ok t ↔ s.cfg.outHolds (s.outLen + bs.length) = true ∧
      t = { s with outBuf := Memory.writeBytes s.outBuf s.outLen bs, outLen := s.outLen + bs.length } := by
  unfold State.append
  split
  · next h => exact ⟨fun e => ⟨h, (Flow.ok.inj e).symm⟩, fun e => e.2 ▸ rfl⟩
  · next h => exact ⟨(fun e => nomatch e), fun e => absurd e.1 h⟩

/-- `Append` never raises (rule R65). -/
theorem append_ne_raised {s t : State} {bs : List Byte} {f : Failure} : s.append bs ≠ .raised f t := by
  unfold State.append; split <;> simp

theorem outHolds_mono {c : Config} {m n : Nat} (h : m ≤ n) (hn : c.outHolds n = true) : c.outHolds m = true := by
  unfold Config.outHolds at *
  split at hn
  · rfl
  · simp at *; omega

/-- Outside the appended bytes OUT reads as before; inside, each address gives its byte (rules R64, R65). -/
theorem append_readOut_outside {s t : State} {bs : List Byte} (h : s.append bs = .ok t) {a : Nat}
    (ha : a < s.outLen ∨ s.outLen + bs.length ≤ a) : t.readOut a = s.readOut a := by
  obtain ⟨-, rfl⟩ := append_eq_ok.1 h
  simp [State.readOut, State.outUnlisted, read?_writeBytes_outside _ _ ha]

theorem append_readOut_inside {s t : State} {bs : List Byte} (h : s.append bs = .ok t) {j : Nat} (hj : j < bs.length) :
    t.readOut (s.outLen + j) = bs[j] := by
  obtain ⟨-, rfl⟩ := append_eq_ok.1 h
  simp [State.readOut, read?_writeBytes_inside _ _ _ hj]

/-! ### Exits -/

theorem readOut_forgetOutFrom {s : State} {n a : Nat} (h : a < n) (hm : ∀ x, x < n → (Memory.read? s.outBuf x).isSome) :
    (s.forgetOutFrom n).readOut a = s.readOut a := by
  obtain ⟨v, hv⟩ := Option.isSome_iff_exists.1 (hm a h)
  simp [State.readOut, read?_below _ h, hv]

/-! ### The queue -/

theorem mem_pqInsert {i j : NodeIx} {pq : List NodeIx} : j ∈ pqInsert i pq ↔ j = i ∨ j ∈ pq := by
  induction pq with
  | nil => simp [pqInsert]
  | cons k pq ih =>
    unfold pqInsert
    split
    · simp
    · split
      · next _ h =>
        have : i = k := BitVec.eq_of_toNat_eq h
        subst this; simp
      · simp only [List.mem_cons, ih]; tauto

theorem pairwise_pqInsert {i : NodeIx} {pq : List NodeIx} (h : pq.Pairwise fun a b => a.toNat < b.toNat) :
    (pqInsert i pq).Pairwise fun a b => a.toNat < b.toNat := by
  induction pq with
  | nil => simp [pqInsert]
  | cons k pq ih =>
    obtain ⟨hk, hp⟩ := List.pairwise_cons.1 h
    unfold pqInsert
    split
    · next hlt =>
      refine List.pairwise_cons.2 ⟨fun c hc => ?_, h⟩
      rcases List.mem_cons.1 hc with rfl | hc
      · exact hlt
      · exact lt_trans hlt (hk c hc)
    · split
      · exact h
      · refine List.pairwise_cons.2 ⟨fun c hc => ?_, ih hp⟩
        rcases mem_pqInsert.1 hc with rfl | hc
        · omega
        · exact hk c hc

/-- Inserting an index above all others puts it last. -/
theorem pqInsert_last {i : NodeIx} {pq : List NodeIx} (h : ∀ j ∈ pq, j.toNat < i.toNat) : pqInsert i pq = pq ++ [i] := by
  induction pq with
  | nil => rfl
  | cons k pq ih =>
    have hk := h k List.mem_cons_self
    unfold pqInsert
    rw [if_neg (by omega), if_neg (by omega), ih fun j hj => h j (List.mem_cons_of_mem _ hj)]
    rfl

theorem lower_iff {node : Vector Node 511} {i j : NodeIx} :
    lower node i j = true ↔
      nfreqOf node i < nfreqOf node j ∨ (nfreqOf node i = nfreqOf node j ∧ i.toNat < j.toNat) := by
  simp [lower]

theorem lowest_eq_none {node : Vector Node 511} {pq : List NodeIx} : lowest node pq = none ↔ pq = [] := by
  cases pq with
  | nil => simp [lowest]
  | cons i rest =>
    simp only [lowest, reduceCtorEq, iff_false]
    split
    · simp
    · split <;> simp

/-- The lowest is in the set, and lower than every other element (rule R122). -/
theorem lowest_spec {node : Vector Node 511} {pq : List NodeIx} {a : NodeIx} (h : lowest node pq = some a) :
    a ∈ pq ∧ ∀ j ∈ pq, j = a ∨ lower node a j = true := by
  induction pq generalizing a with
  | nil => simp [lowest] at h
  | cons i rest ih =>
    simp only [lowest] at h
    split at h
    · next hn =>
      obtain rfl := lowest_eq_none.1 hn
      cases h
      simp
    · next j hj =>
      obtain ⟨hm, hl⟩ := ih hj
      split at h
      · next hij =>
        cases h
        refine ⟨List.mem_cons_self, fun k hk => ?_⟩
        rcases List.mem_cons.1 hk with rfl | hk
        · exact .inl rfl
        · rcases hl k hk with rfl | hjk
          · exact .inr hij
          · right; rw [lower_iff] at *; omega
      · next hij =>
        cases h
        refine ⟨List.mem_cons_of_mem _ hm, fun k hk => ?_⟩
        rcases List.mem_cons.1 hk with rfl | hk
        · by_cases hji : k = a
          · exact .inl hji
          · right
            have : k.toNat ≠ a.toNat := fun h => hji (BitVec.eq_of_toNat_eq h)
            rw [lower_iff] at *; omega
        · exact hl k hk

theorem extractMin_eq_none {node : Vector Node 511} {pq : List NodeIx} : extractMin node pq = none ↔ pq = [] := by
  simp [extractMin, lowest_eq_none]

theorem extractMin_spec {node : Vector Node 511} {pq pq' : List NodeIx} {a : NodeIx} (h : extractMin node pq = some (a, pq')) :
    a ∈ pq ∧ (∀ j ∈ pq, j = a ∨ lower node a j = true) ∧ pq' = pq.filter (fun i => !decide (i = a)) := by
  simp only [extractMin, Option.map_eq_some_iff, Prod.mk.injEq] at h
  obtain ⟨x, hx, rfl, rfl⟩ := h
  exact ⟨(lowest_spec hx).1, (lowest_spec hx).2, rfl⟩

/-! ### Bits -/

theorem testBit_one (n : Nat) : Nat.testBit 1 n = decide (n = 0) := by
  cases n with
  | zero => rfl
  | succ n => simp [Nat.testBit_succ]

/-- Bit `k` is the bit written, every other bit is as before. -/
theorem getLsbD_setBit {w : Nat} (v : BitVec w) (k : Nat) (b : Bool) (j : Nat) (hk : k < w) :
    (setBit v k b).getLsbD j = if j = k then b else v.getLsbD j := by
  by_cases hj : j < w
  · have key : (BitVec.ofNat w 1 <<< k).getLsbD j = decide (j = k) := by
      rw [BitVec.getLsbD_shiftLeft, BitVec.getLsbD_ofNat, testBit_one]
      by_cases h1 : j < k
      · simp [h1, hj]; omega
      · by_cases h2 : j = k
        · subst h2; simp [hj, (by omega : 0 < w)]
        · have : ¬ (j - k = 0) := by omega
          simp [h2, this, hj]
    unfold setBit
    cases b
    · simp only [Bool.false_eq_true, if_false, BitVec.getLsbD_and, BitVec.getLsbD_not, hj, key]
      by_cases h2 : j = k <;> simp [h2]
    · simp only [if_true, BitVec.getLsbD_or, key]
      by_cases h2 : j = k <;> simp [h2]
  · rw [BitVec.getLsbD_of_ge _ _ (by omega), BitVec.getLsbD_of_ge _ _ (by omega), if_neg (by omega)]

/-! ### Adding a node -/

theorem addNode_eq_ok {s t : State} {n : Node} :
    s.addNode n = .ok t ↔ ∃ h : s.nn.toNat < 511,
      t = { s with node := s.node.set s.nn.toNat n h, pq := pqInsert s.nn s.pq, nn := s.nn + 1 } := by
  unfold State.addNode
  split
  · next h => exact ⟨fun e => ⟨h, (Flow.ok.inj e).symm⟩, fun ⟨_, e⟩ => e ▸ rfl⟩
  · next h => exact ⟨(fun e => nomatch e), fun ⟨h', _⟩ => absurd h' h⟩

theorem addNode_ne_raised {s t : State} {n : Node} {f : Failure} : s.addNode n ≠ .raised f t := by
  unfold State.addNode; split <;> simp

end Sys2Proof.Machine
end

