-- ==== Sys2Proof/Laws/Frames.lean ====
section
/-! SUPPORT. Frames: what each operation can change, said once, for the state it goes on with and for the state it raises in. Each
frame reads "the new state is the old one but for these fields". -/

namespace Sys2Proof.Machine

/-- Wherever a part of an operation leads, going on or raising, the relation holds. -/
def Flow.Within (P : State → Prop) : Flow → Prop
  | .ok t => P t
  | .raised _ t => P t
  | .stopped _ => True

@[simp] theorem within_ok {P : State → Prop} {t : State} : (Flow.ok t).Within P ↔ P t := Iff.rfl
@[simp] theorem within_raised {P : State → Prop} {f : Failure} {t : State} : (Flow.raised f t).Within P ↔ P t := Iff.rfl
@[simp] theorem within_stopped {P : State → Prop} {r : Fault} : (Flow.stopped r).Within P := trivial

theorem Flow.Within.of_ok {P : State → Prop} {a : Flow} {t : State} (h : a.Within P) (e : a = .ok t) : P t := by
  subst e; exact h

theorem Flow.Within.of_raised {P : State → Prop} {a : Flow} {f : Failure} {t : State} (h : a.Within P) (e : a = .raised f t) :
    P t := by
  subst e; exact h

theorem Flow.Within.mono {P Q : State → Prop} {a : Flow} (h : a.Within P) (hpq : ∀ t, P t → Q t) : a.Within Q := by
  cases a <;> first | exact hpq _ h | trivial

theorem within_andThen {P Q : State → Prop} {a : Flow} {b : State → Flow} (ha : a.Within P) (hq : ∀ t, P t → Q t)
    (hb : ∀ t, P t → (b t).Within Q) : (a.andThen b).Within Q := by
  cases a with
  | ok t => exact hb t ha
  | raised f t => exact hq t ha
  | stopped r => trivial

theorem within_each {α : Type} {body : α → State → Flow} {R : State → State → Prop} (hrefl : ∀ s, R s s)
    (htrans : ∀ {s t u}, R s t → R t u → R s u) (hbody : ∀ x s, (body x s).Within (R s)) (xs : List α) (s : State) :
    (Flow.each body xs s).Within (R s) := by
  induction xs generalizing s with
  | nil => exact hrefl s
  | cons x xs ih =>
    exact within_andThen (hbody x s) (fun _ h => h) fun t ht => (ih t).mono fun _ hu => htrans ht hu

theorem within_withInput {P : State → Prop} {op : State → Flow} {s : State} (h : (op s).Within P) : (withInput op s).Within P := by
  unfold withInput; split
  · exact h
  · trivial

/-- `PHASE` and these fields. -/
theorem within_nested {inner outer : PhaseCode} {op : State → Flow} {R : State → State → Prop} {s : State}
    (hgoto : ∀ s p, R s (s.goto p)) (htrans : ∀ {s t u}, R s t → R t u → R s u)
    (hop : (op (s.goto inner)).Within (R (s.goto inner))) : (nested inner outer op s).Within (R s) :=
  within_andThen (hop.mono fun _ h => htrans (hgoto s inner) h) (fun _ h => h) fun t ht => htrans ht (hgoto t outer)

/-! ### The frequency counter and the parser -/

/-- Only the frequency table and `IN_POS`. -/
def TableFrame (s t : State) : Prop :=
  t = { s with freq := t.freq, present := t.present, m := t.m, inPos := t.inPos }

theorem TableFrame.refl (s : State) : TableFrame s s := rfl
theorem TableFrame.trans {s t u : State} (h1 : TableFrame s t) (h2 : TableFrame t u) : TableFrame s u :=
  Eq.trans h2 (by rw [h1])

theorem markKey_frame (s : State) (sym : Byte) : TableFrame s (s.markKey sym) := by
  unfold State.markKey; split <;> rfl

theorem setFreq_frame (s : State) (sym : Byte) (v : Word64) : TableFrame s (s.setFreq sym v) := rfl

theorem countByte_frame (s : State) : TableFrame s (countByte s) :=
  (markKey_frame s _).trans (TableFrame.trans (setFreq_frame _ _ _) rfl)

theorem countLoop_frame (n : Nat) (s : State) : TableFrame s (countLoop n s) := by
  induction n generalizing s with
  | zero => rfl
  | succ n ih =>
    unfold countLoop; split
    · exact (countByte_frame s).trans (ih _)
    · rfl

theorem fcountOp_frame (s : State) : (fcountOp s).Within (TableFrame s) :=
  TableFrame.trans (t := { s with inPos := 0 }) rfl (countLoop_frame _ _)

theorem parseEntry_frame (s : State) (i : Nat) : TableFrame s (parseEntry s i) :=
  (markKey_frame s _).trans (setFreq_frame _ _ _)

theorem parseEntries_frame (n i : Nat) (s : State) : TableFrame s (parseEntries n i s) := by
  induction n generalizing i s with
  | zero => rfl
  | succ n ih => exact (parseEntry_frame s i).trans (ih _ _)

/-- Only the frequency table, `ORIG`, `M_HDR` and the bit reader. -/
def ParseFrame (s t : State) : Prop :=
  t = { s with freq := t.freq, present := t.present, m := t.m, inPos := t.inPos, orig := t.orig, mHdr := t.mHdr, brPos := t.brPos, brCur := t.brCur }

theorem ParseFrame.trans {s t u : State} (h1 : ParseFrame s t) (h2 : ParseFrame t u) : ParseFrame s u :=
  Eq.trans h2 (by rw [h1])

theorem TableFrame.toParse {s t : State} (h : TableFrame s t) : ParseFrame s t := by
  rw [ParseFrame, h]

theorem cparseOp_frame (s : State) : (cparseOp s).Within (ParseFrame s) := by
  unfold cparseOp
  split; · exact rfl
  split; · exact rfl
  split; · exact rfl
  dsimp only
  split
  · exact rfl
  · exact ParseFrame.trans (t := { s with orig := BitVec.ofNat 64 (s.memRead 4 8), mHdr := BitVec.ofNat 32 (s.memRead 12 4) }) rfl
      ((parseEntries_frame _ _ _).toParse.trans rfl)

/-! ### The tree builder -/

/-- Only `NODE`, `NN` and `PQ`. -/
def TreeFrame (s t : State) : Prop := t = { s with node := t.node, nn := t.nn, pq := t.pq }

theorem TreeFrame.refl (s : State) : TreeFrame s s := rfl
theorem TreeFrame.trans {s t u : State} (h1 : TreeFrame s t) (h2 : TreeFrame t u) : TreeFrame s u :=
  Eq.trans h2 (by rw [h1])

theorem addNode_frame (s : State) (n : Node) : (s.addNode n).Within (TreeFrame s) := by
  unfold State.addNode; split
  · exact rfl
  · trivial

theorem tseedOp_frame (s : State) : (tseedOp s).Within (TreeFrame s) := by
  unfold tseedOp
  split
  · exact rfl
  · refine within_andThen (within_each TreeFrame.refl TreeFrame.trans (fun x u => addNode_frame u _) s.keys s) (fun _ h => h) ?_
    intro t ht
    split
    · exact TreeFrame.trans ht rfl
    · exact ht

theorem tmergeOp_frame (s : State) : (tmergeOp s).Within (TreeFrame s) := by
  unfold tmergeOp
  split
  · split
    · trivial
    · split
      · trivial
      · exact (addNode_frame _ _).mono fun t ht => ht
  · trivial

/-! ### The code table generator -/

theorem cgenOp_frame (s : State) : (cgenOp s).Within fun t => t = { s with code := t.code } := by
  unfold cgenOp; split <;> exact rfl

/-! ### Appending -/

/-- Only OUT and `OUT_LEN`. -/
theorem append_frame (s : State) (bs : List Byte) : (s.append bs).Within fun t => t = { s with outBuf := t.outBuf, outLen := t.outLen } := by
  unfold State.append; split
  · exact rfl
  · trivial

theorem cencOp_frame (s : State) : (cencOp s).Within fun t => t = { s with orig := s.inLen, outBuf := t.outBuf, outLen := t.outLen } :=
  append_frame _ _

/-- Only the bit writer, OUT, `OUT_LEN`, `IN_POS`, `PHASE` and the operand registers. -/
def PackFrame (s t : State) : Prop :=
  t = { s with bwAcc := t.bwAcc, bwCur := t.bwCur, outBuf := t.outBuf, outLen := t.outLen, inPos := t.inPos, phase := t.phase, opSym := t.opSym, opBit := t.opBit }

theorem PackFrame.refl (s : State) : PackFrame s s := rfl
theorem PackFrame.trans {s t u : State} (h1 : PackFrame s t) (h2 : PackFrame t u) : PackFrame s u :=
  Eq.trans h2 (by rw [h1])
theorem PackFrame.goto (s : State) (p : PhaseCode) : PackFrame s (s.goto p) := rfl

/-- WBIT and FLUSH change only the bit writer, OUT and `OUT_LEN`. -/
def WriterFrame (s t : State) : Prop :=
  t = { s with bwAcc := t.bwAcc, bwCur := t.bwCur, outBuf := t.outBuf, outLen := t.outLen }

theorem WriterFrame.toPack {s t : State} (h : WriterFrame s t) : PackFrame s t := by
  rw [PackFrame, h]

theorem wbitOp_frame (s : State) : (wbitOp s).Within (WriterFrame s) := by
  unfold wbitOp
  dsimp only
  split
  · refine within_andThen (append_frame s _) (fun t ht => ?_) fun t ht => ?_
    · rw [WriterFrame, ht]
    · rw [within_ok, WriterFrame, ht]
  · exact rfl

theorem flushOp_frame (s : State) : (flushOp s).Within (WriterFrame s) := by
  unfold flushOp
  split
  · exact rfl
  · refine within_andThen (append_frame s _) (fun t ht => ?_) fun t ht => ?_
    · rw [WriterFrame, ht]
    · rw [within_ok, WriterFrame, ht]

theorem putcodeOp_frame (s : State) : (putcodeOp s).Within (PackFrame s) := by
  refine within_each PackFrame.refl PackFrame.trans (fun k t => ?_) _ s
  exact (within_nested (R := PackFrame) PackFrame.goto PackFrame.trans
    ((wbitOp_frame _).mono fun _ h => h.toPack)).mono fun u hu => hu

theorem packByte_frame (s : State) : (packByte s).Within (PackFrame s) := by
  refine within_andThen ((within_nested (R := PackFrame) PackFrame.goto PackFrame.trans (putcodeOp_frame _)).mono
    fun u hu => hu) (fun _ h => h) fun t ht => PackFrame.trans ht rfl

theorem packLoop_frame (n : Nat) (s : State) : (packLoop n s).Within (PackFrame s) := by
  induction n generalizing s with
  | zero => exact rfl
  | succ n ih =>
    unfold packLoop; split
    · exact within_andThen (packByte_frame s) (fun _ h => h) fun t ht => (ih t).mono fun _ hu => ht.trans hu
    · exact rfl

theorem packOp_frame (s : State) : (packOp s).Within (PackFrame s) :=
  (packLoop_frame _ _).mono fun _ h => h

/-! ### The unpacker -/

/-- Only the bit reader, the walk, OUT, `OUT_LEN`, `PHASE` and the value RBIT returned. -/
def WalkFrame (s t : State) : Prop :=
  t = { s with rbitVal := t.rbitVal, brPos := t.brPos, brCur := t.brCur, walkCur := t.walkCur, emitted := t.emitted, outBuf := t.outBuf, outLen := t.outLen, phase := t.phase }

theorem WalkFrame.refl (s : State) : WalkFrame s s := rfl
theorem WalkFrame.trans {s t u : State} (h1 : WalkFrame s t) (h2 : WalkFrame t u) : WalkFrame s u :=
  Eq.trans h2 (by rw [h1])
theorem WalkFrame.goto (s : State) (p : PhaseCode) : WalkFrame s (s.goto p) := rfl

theorem rbitOp_frame (s : State) :
    (rbitOp s).Within fun t => t = { s with rbitVal := t.rbitVal, brPos := t.brPos, brCur := t.brCur } := by
  unfold rbitOp
  split
  · exact rfl
  · split <;> exact rfl

theorem arrive_frame (s : State) (n : NodeIx) : (arrive s n).Within (WalkFrame s) := by
  unfold arrive
  split
  · trivial
  · split
    · exact rfl
    · split
      · exact rfl
      · refine within_andThen (append_frame s _) (fun t ht => ?_) fun t ht => ?_
        · rw [WalkFrame, ht]
        · rw [within_ok, WalkFrame, ht]

theorem dstepOp_frame (s : State) : (dstepOp s).Within (WalkFrame s) := by
  refine within_andThen (within_nested (R := WalkFrame) WalkFrame.goto WalkFrame.trans
    ((rbitOp_frame _).mono fun t ht => ?_)) (fun _ h => h) fun t ht => ?_
  · rw [WalkFrame, ht]
  · split
    · exact ht
    · split
      · trivial
      · exact (arrive_frame t _).mono fun _ hu => ht.trans hu

theorem dwalkLoop_frame (n : Nat) (s : State) : (dwalkLoop n s).Within (WalkFrame s) := by
  induction n generalizing s with
  | zero => exact rfl
  | succ n ih =>
    unfold dwalkLoop; split
    · exact within_andThen (within_nested (R := WalkFrame) WalkFrame.goto WalkFrame.trans (dstepOp_frame _))
        (fun _ h => h) fun t ht => (ih t).mono fun _ hu => ht.trans hu
    · exact rfl

theorem dwalkOp_frame (s : State) : (dwalkOp s).Within (WalkFrame s) :=
  (dwalkLoop_frame _ _).mono fun _ h => h

/-! ### INIT -/

/-- INIT keeps the parameters, the host registers but `OUT_LEN` and `PHASE`, both buffers, the arena and everything of the model's own. -/
theorem initOp_frame (s : State) : (initOp s).Within fun t => t = initWork s := by
  unfold initOp; dsimp only; split <;> exact rfl

end Sys2Proof.Machine
end

