-- ==== Sys2Proof/Laws/PerInstr.lean ====
section
/-! SUPPORT. Facts about every instruction as syntax, one lemma per constructor. -/

namespace Sys2Proof.Laws.RoundTrip

/-- The encoding of an instruction decodes to it (rules R100, R101). -/
def Statement (i : Instr) : Prop := decode (encode i) = .ok i

theorem compress : Statement .compress := rfl
theorem decompress : Statement .decompress := rfl
theorem idle : Statement .idle := rfl
theorem init : Statement .init := rfl
theorem fcount : Statement .fcount := rfl
theorem cparse : Statement .cparse := rfl
theorem tseed : Statement .tseed := rfl
theorem tmerge : Statement .tmerge := rfl
theorem cgen : Statement .cgen := rfl
theorem cenc : Statement .cenc := rfl
theorem pack : Statement .pack := rfl
theorem putcode : Statement .putcode := rfl
theorem wbit : Statement .wbit := rfl
theorem flush : Statement .flush := rfl
theorem dwalk : Statement .dwalk := rfl
theorem dstep : Statement .dstep := rfl
theorem rbit : Statement .rbit := rfl
theorem done : Statement .done := rfl

end Sys2Proof.Laws.RoundTrip
end

