-- ==== Sys2Proof/Laws/Step.lean ====
section
/-! SUPPORT. What a turn is, case by case, runs of several steps, and the frame of every meaning. -/

namespace Sys2Proof.Machine

/-! ### Whose turn it is -/

theorem step_of_no_host {s : State} (h : s.host = []) : step s = exec (fetch s) s := by
  simp [step, nextTurn, h]

theorem step_of_waiting {s : State} {e : HostEvent} {rest : List HostEvent} (h : s.host = e :: rest) (hd : e.due s = false) :
    step s = exec (fetch s) { s with host := e.tick :: rest } := by
  simp [step, nextTurn, h, hd]

theorem step_of_due {s : State} {e : HostEvent} {rest : List HostEvent} (h : s.host = e :: rest) (hd : e.due s = true) :
    step s = match hostMove e.move { s with host := rest } with
      | .run i t => exec i t
      | .ended o => o := by
  have hn : nextTurn s = hostMove e.move { s with host := rest } := by simp [nextTurn, h, hd]
  cases hm : hostMove e.move { s with host := rest } <;> simp [step, hn, hm]

theorem fetch_of_busy {s : State} (h : s.state = .busy) : fetch s = decodePhase s.phase := by
  simp [fetch, h]

/-- A step is an operation in a state that differs from the present one only in the host's pending moves, or a host move. -/
theorem step_cases (s : State) :
    (∃ h, step s = exec (fetch s) { s with host := h }) ∨
    (∃ e rest, s.host = e :: rest ∧ e.due s = true ∧
      step s = match hostMove e.move { s with host := rest } with
        | .run i t => exec i t
        | .ended o => o) := by
  rcases hh : s.host with _ | ⟨e, rest⟩
  · exact .inl ⟨[], by rw [step_of_no_host hh, ← hh]⟩
  · cases hd : e.due s
    · exact .inl ⟨e.tick :: rest, step_of_waiting hh hd⟩
    · exact .inr ⟨e, rest, rfl, hd, step_of_due hh hd⟩

/-! ### Runs -/

@[simp] theorem run_zero (s : State) : run 0 s = .next s := rfl

theorem run_succ (n : Nat) (s : State) :
    run (n + 1) s = match step s with
      | .next t => run n t
      | .fault r => .fault r
      | .refused r => .refused r := by
  have h : Sys2Proof.core.step s = step s := rfl
  simp only [run, Host.Core.run]
  rw [h]
  cases step s <;> rfl

theorem run_succ_of_next {n : Nat} {s t : State} (h : step s = .next t) : run (n + 1) s = run n t := by
  rw [run_succ, h]

theorem run_add {m n : Nat} {s t : State} (h : run m s = .next t) : run (m + n) s = run n t := by
  induction m generalizing s with
  | zero =>
    rw [run_zero] at h
    cases h
    rw [Nat.zero_add]
  | succ m ih =>
    rw [run_succ] at h
    rw [show m + 1 + n = (m + n) + 1 by omega, run_succ]
    split at h
    · next u hu => exact ih h
    · cases h
    · cases h

/-- What every step keeps, every run keeps. -/
theorem run_keeps {P : State → Prop} (hstep : ∀ s t, P s → step s = .next t → P t) {n : Nat} {s t : State}
    (hs : P s) (h : run n s = .next t) : P t := by
  induction n generalizing s with
  | zero =>
    rw [run_zero] at h
    cases h
    exact hs
  | succ n ih =>
    rw [run_succ] at h
    split at h
    · next u hu => exact ih (hstep s u hs hu) h
    · cases h
    · cases h

/-! ### The sequencer's moves -/

theorem afterInit_cases (s : State) :
    (s.ctrlOp = true ∧ afterInit s = .ok (s.goto Phase.cparse)) ∨
    (s.ctrlOp = false ∧ s.inLen = 0 ∧ afterInit s = .raised .inputEmpty s) ∨
    (s.ctrlOp = false ∧ s.inLen ≠ 0 ∧ afterInit s = .ok (s.goto Phase.fcount)) := by
  unfold afterInit; split
  · simp_all
  · split <;> simp_all

theorem afterQueue_cases (s : State) :
    (s.pq = [] ∧ afterQueue s = .stopped .queueUnderflow) ∨
    (∃ r, s.pq = [r] ∧ afterQueue s = .ok ({ s with root := r }.goto Phase.cgen)) ∨
    (2 ≤ s.pq.length ∧ afterQueue s = .ok (s.goto Phase.tmerge)) := by
  unfold afterQueue
  split
  · next h => exact .inl ⟨h, rfl⟩
  · next r h => exact .inr (.inl ⟨r, h, rfl⟩)
  · next h => exact .inr (.inr ⟨by simp [h], rfl⟩)

theorem afterCodes_cases (s : State) :
    (∃ p, afterCodes s = .ok (s.goto p) ∧
      ((s.ctrlOp = true ∧ p = Phase.dwalk ∧ s.cfg.outHolds s.orig.toNat = true) ∨
       (s.ctrlOp = false ∧ p = Phase.cenc ∧ s.cfg.outHolds s.containerLen = true))) ∨
    (afterCodes s = .raised .capacityExceeded s ∧
      ((s.ctrlOp = true ∧ s.cfg.outHolds s.orig.toNat = false) ∨
       (s.ctrlOp = false ∧ s.cfg.outHolds s.containerLen = false))) := by
  unfold afterCodes
  split <;> split <;> simp_all

end Sys2Proof.Machine
end

