-- ==== Sys2Proof/Tests/Slice0.lean ====
section
/-! SUPPORT. Tests: words written out from the encodings of rules R100 and R101, ill-formed terms that the checks refuse, one step of each
operation on the specification's own examples, and for every statement with hypotheses a state that meets them. -/

open Sys2Proof Sys2Proof.Machine

namespace Sys2Proof.Tests

-- One theorem at a time: every kernel evaluation that waits holds a thread.
set_option Elab.async false

/-! ### Helpers -/

/-- The outcome is a next state with a property. -/
def goesOn (o : Host.Outcome State Fault Refusal) (p : State → Bool) : Bool :=
  match o with
  | .next t => p t
  | _ => false

theorem goesOn_elim {o : Host.Outcome State Fault Refusal} {p : State → Bool} (h : goesOn o p = true) :
    ∃ t, o = .next t ∧ p t = true := by
  cases o with
  | next t => exact ⟨t, rfl, h⟩
  | fault r => cases h
  | refused r => cases h

/-- The reset state with bytes in IN and their number in `IN_LEN`. -/
def fed (bs : List Byte) : State :=
  { State.reset with inBuf := Memory.writeBytes [] 0 bs, inLen := BitVec.ofNat 64 bs.length }

/-- A host move that is due now. -/
def now (m : HostMove) : HostEvent := { wait := .turns 0, move := m }

/-- A leaf of the arena. -/
def leafOf (sym : Byte) (f : NodeFreq) : Node := { kind := .leaf, ph := false, sym := sym, nfreq := f, left := 0, right := 0 }

/-- An internal node of the arena. -/
def forkOf (f : NodeFreq) (l r : NodeIx) : Node := { kind := .internal, ph := false, sym := 0, nfreq := f, left := l, right := r }

/-- The arena whose first entries are listed. -/
def arena (ns : List Node) : Vector Node 511 :=
  (ns.foldl (fun (a : Nat × Vector Node 511) x => (a.1 + 1, a.2.setIfInBounds a.1 x)) (0, State.reset.node)).2

/-- "AB" and "ABRACADABRA". -/
def abBytes : List Byte := [0x41, 0x42]
def abraBytes : List Byte := [0x41, 0x42, 0x52, 0x41, 0x43, 0x41, 0x44, 0x41, 0x42, 0x52, 0x41]

/-- The container of "AB" without and with its bitstream byte (95_test_vectors.md V1). -/
def abHeader : List Byte := [0x48, 0x55, 0x46, 0x31, 2, 0, 0, 0, 0, 0, 0, 0, 2, 0, 0, 0]
def abTable : List Byte := [0x41, 1, 0, 0, 0, 0, 0, 0, 0, 0x42, 1, 0, 0, 0, 0, 0, 0, 0]
def abContainer : List Byte := abHeader ++ abTable ++ [2]

/-- The table {0x41: 1, 0x42: 1}. -/
def abKeys : State :=
  { State.reset with
    m := 2
    present := (State.reset.present.set 0x41 true).set 0x42 true
    freq := (State.reset.freq.set 0x41 1).set 0x42 1 }

theorem abKeys_keys : abKeys.keys = [0x41, 0x42] := by decide +kernel

/-- The table {0x41: 6}. -/
def oneKey : State :=
  { State.reset with m := 1, present := State.reset.present.set 0x41 true, freq := State.reset.freq.set 0x41 6 }

theorem oneKey_keys : oneKey.keys = [0x41] := by decide +kernel

/-- The tree of "AB" (rule R212's example): root 2 = (leaf 0x41, leaf 0x42). -/
def abTree : State :=
  { State.reset with node := arena [leafOf 0x41 1, leafOf 0x42 1, forkOf 2 0 1], root := 2, walkCur := 2, nn := 3 }

/-- The single-symbol tree of 0x41 (rule R125). -/
def oneTree : State :=
  { State.reset with
    node := arena [leafOf 0x41 6, { leafOf 0 0 with ph := true }, forkOf 6 0 1], root := 2, walkCur := 2, nn := 3 }

/-- The leaves and the tree of "ABRACADABRA" (rules R123, R126, R140). -/
def abraLeaves : List Node := [leafOf 0x41 5, leafOf 0x42 2, leafOf 0x43 1, leafOf 0x44 1, leafOf 0x52 2]
def abraSeeded : State := { State.reset with node := arena abraLeaves, nn := 5, pq := [0, 1, 2, 3, 4], m := 5 }
def abraTree : State :=
  { State.reset with node := arena (abraLeaves ++ [forkOf 2 2 3, forkOf 4 1 4, forkOf 6 5 6, forkOf 11 0 7]), root := 8, nn := 9 }

/-- A code: its bits as a number, bit 0 the branch at the root. -/
def withCode (s : State) (sym : Byte) (len : BitVec 8) (bits : BitVec 255) : State :=
  { s with code := s.code.set sym.toNat { len := len, bits := bits } sym.isLt }

/-! ### Decoding: the words of rules R100 and R101, bit by bit -/

/-- Rule R100: `CTRL[1:0]` = 01, and bits 31:2 are ignored. -/
theorem test_decode_compress : decode [0b00000001, 0, 0, 0] = .ok .compress ∧ decode [0b11111101, 0xFF, 0xFF, 0xFF] = .ok .compress := by
  decide
/-- Rule R100: `CTRL[1:0]` = 11. -/
theorem test_decode_decompress : decode [0b00000011, 0, 0, 0] = .ok .decompress ∧ decode [0b11110111, 1, 2, 3] = .ok .decompress := by
  decide
/-- Rule R100: with bit 0 = 0 a write starts nothing. -/
theorem test_decode_no_start : decode [0b00000010, 0, 0, 0] = .error .startsNothing ∧ decode [0, 1, 1, 1] = .error .startsNothing := by
  decide
theorem test_decode_idle : decode [0b0000] = .ok .idle := by decide
theorem test_decode_init : decode [0b0001] = .ok .init := by decide
theorem test_decode_fcount : decode [0b0010] = .ok .fcount := by decide
theorem test_decode_cparse : decode [0b0011] = .ok .cparse := by decide
theorem test_decode_tseed : decode [0b0100] = .ok .tseed := by decide
theorem test_decode_tmerge : decode [0b0101] = .ok .tmerge := by decide
theorem test_decode_cgen : decode [0b0110] = .ok .cgen := by decide
theorem test_decode_cenc : decode [0b0111] = .ok .cenc := by decide
theorem test_decode_pack : decode [0b1000] = .ok .pack := by decide
theorem test_decode_putcode : decode [0b1001] = .ok .putcode := by decide
theorem test_decode_wbit : decode [0b1010] = .ok .wbit := by decide
theorem test_decode_flush : decode [0b1011] = .ok .flush := by decide
theorem test_decode_dwalk : decode [0b1100] = .ok .dwalk := by decide
theorem test_decode_dstep : decode [0b1101] = .ok .dstep := by decide
theorem test_decode_rbit : decode [0b1110] = .ok .rbit := by decide
theorem test_decode_done : decode [0b1111] = .ok .done := by decide
theorem test_decode_not_a_code : decode [16] = .error .notAPhaseCode ∧ decode [] = .error .wrongLength := by decide
theorem test_table_words : decodeTableWord 8 5 = some .tmerge ∧ decodeTableWord 32 1 = some .compress ∧
    decodeTableWord 32 3 = some .decompress ∧ decodeTableWord 32 2 = none := by decide

/-- The next step runs exactly the instruction placed. -/
theorem test_fetch_word : nextTurn (State.reset.withFetchWord 8 14) = .run .rbit (State.reset.withFetchWord 8 14) ∧
    nextTurn (State.reset.withFetchWord 32 3) = .run .decompress State.reset := ⟨rfl, rfl⟩

/-! ### What the checks refuse -/

theorem test_ill_formed_byte : wfBytes [16] = false ∧ wfBytes [15] = true := by decide
theorem test_ill_formed_ctrl : wfBytes [2, 0, 0, 0] = false ∧ wfBytes [3, 0, 0, 0] = true := by decide
theorem test_ill_formed_length : wfBytes [] = false ∧ wfBytes [1, 0] = false := by decide
theorem test_ill_formed_capacity : capWf (some (2 ^ 64)) = false ∧ capWf (some (2 ^ 64 - 1)) = true := by decide
theorem test_ill_formed_config : Config.wf { inCap := some (2 ^ 64), outCap := none } = false ∧
    Config.wf { inCap := none, outCap := some (2 ^ 64) } = false ∧ Config.unbounded.wf = true := by decide
theorem test_every_instruction_well_formed : Instr.wf .compress = true ∧ Instr.wf .rbit = true := by decide

/-! ### One step of each operation, on the specification's examples -/

/-- Rule R210. -/
theorem test_compress : goesOn (exec .compress { fed abBytes with ctrlOp := true }) (fun t =>
    decide (t.ctrlOp = false ∧ t.state = .busy ∧ t.phase = 1)) = true := by decide +kernel
theorem test_decompress : goesOn (exec .decompress (fed abContainer)) (fun t =>
    decide (t.ctrlOp = true ∧ t.state = .busy ∧ t.phase = 1)) = true := by decide +kernel
theorem test_idle : goesOn (step State.reset) (fun t => decide (t.state = .idle ∧ t.phase = 0)) = true := by decide +kernel
/-- Rule R211's example: INIT clears `M_HDR`. -/
theorem test_init : goesOn (exec .init { fed abContainer with ctrlOp := true, mHdr := 5 }) (fun t =>
    decide (t.mHdr = 0 ∧ t.phase = 3)) = true := by decide +kernel
/-- Rules R212, R231: COMPRESS refuses an empty input. -/
theorem test_init_empty : goesOn (exec .init State.reset) (fun t =>
    decide (t.err = some .inputEmpty ∧ t.state = .done ∧ t.outLen = 0)) = true := by decide +kernel
/-- Rule R111's example. -/
theorem test_fcount : goesOn (exec .fcount (fed abraBytes)) (fun t =>
    decide (t.freqOf 0x41 = 5 ∧ t.freqOf 0x42 = 2 ∧ t.freqOf 0x43 = 1 ∧ t.freqOf 0x44 = 1 ∧ t.freqOf 0x52 = 2 ∧ t.m = 5 ∧
      t.isKey 0x45 = false)) = true := by decide +kernel
/-- Rule R215's example: what CPARSE takes from the container V1. -/
theorem test_cparse : goesOn (exec .cparse (fed abContainer)) (fun t =>
    decide (t.orig = 2 ∧ t.mHdr = 2 ∧ t.m = 2 ∧ t.freqOf 0x41 = 1 ∧ t.isKey 0x42 = true ∧ t.brPos = 34 ∧ t.phase = 4)) = true := by
  decide +kernel
/-- Rule R190's example. -/
theorem test_cparse_magic : goesOn (exec .cparse (fed [0x41, 0x42, 0x43, 0x44])) (fun t => decide (t.err = some .headerInvalid)) = true ∧
    goesOn (exec .cparse (fed [0x48, 0x55, 0x46])) (fun t => decide (t.err = some .headerTruncated)) = true := by decide +kernel
theorem test_tseed : goesOn (exec .tseed abKeys) (fun t =>
    decide (t.node[0] = leafOf 0x41 1 ∧ t.node[1] = leafOf 0x42 1 ∧ t.nn = 2 ∧ t.pq = [0, 1] ∧ t.phase = 5)) = true := by decide +kernel
/-- Rule R125. -/
theorem test_tseed_single : goesOn (exec .tseed oneKey) (fun t =>
    decide (t.node[1].ph = true ∧ t.node[2] = forkOf 6 0 1 ∧ t.nn = 3 ∧ t.root = 2 ∧ t.phase = 6)) = true := by decide +kernel
/-- Rule R126's example. -/
theorem test_tmerge : goesOn (exec .tmerge abraSeeded) (fun t =>
    decide (t.node[5] = forkOf 2 2 3 ∧ t.pq = [0, 1, 4, 5] ∧ t.nn = 6 ∧ t.phase = 5)) = true := by decide +kernel
/-- Rule R140's example. -/
theorem test_cgen : goesOn (exec .cgen { abraTree with ctrlOp := true }) (fun t =>
    decide (t.codeBitsOf 0x41 = [false] ∧ t.codeBitsOf 0x43 = [true, false, false] ∧ t.codeBitsOf 0x44 = [true, false, true] ∧
      t.codeBitsOf 0x42 = [true, true, false] ∧ t.codeBitsOf 0x52 = [true, true, true])) = true := by decide +kernel
/-- Rule R141: the placeholder gets no entry; its symbol field is 0. -/
theorem test_cgen_single : goesOn (exec .cgen { oneTree with ctrlOp := true }) (fun t =>
    decide (t.codeBitsOf 0x41 = [false] ∧ (t.codeOf 0).len = 0)) = true := by decide +kernel
/-- Rule R185's example: the 34 bytes. -/
theorem test_cenc : goesOn (exec .cenc { abKeys with inLen := 2 }) (fun t =>
    decide (t.output = abHeader ++ abTable ∧ t.phase = 8)) = true := by decide +kernel
/-- Rule R154's example. -/
theorem test_pack : goesOn (exec .pack (withCode (withCode (fed abBytes) 0x41 1 0) 0x42 1 1)) (fun t =>
    decide (t.bwAcc = 2 ∧ t.bwCur = 2 ∧ t.outLen = 0 ∧ t.phase = 11)) = true := by decide +kernel
/-- Rule R153's example: "110". -/
theorem test_putcode : goesOn (exec .putcode (withCode { State.reset with opSym := 0x42 } 0x42 3 0b011)) (fun t =>
    decide (t.bwAcc = 0b011 ∧ t.bwCur = 3 ∧ t.phase = 8)) = true := by decide +kernel
/-- Rule R151's example: its last call appends 0x76. -/
theorem test_wbit_eighth : goesOn (exec .wbit { State.reset with bwAcc := 0b1110110, bwCur := 7 }) (fun t =>
    decide (t.output = [0x76] ∧ t.bwAcc = 0 ∧ t.bwCur = 0)) = true := by decide +kernel
theorem test_wbit : goesOn (exec .wbit { State.reset with bwAcc := 0b010, bwCur := 2, opBit := true }) (fun t =>
    decide (t.bwAcc = 0b110 ∧ t.bwCur = 3 ∧ t.outLen = 0 ∧ t.phase = 9)) = true := by decide +kernel
/-- Rule R152's example. -/
theorem test_flush : goesOn (exec .flush { State.reset with bwAcc := 0x3B, bwCur := 7 }) (fun t =>
    decide (t.output = [0x3B] ∧ t.ok = true ∧ t.state = .done)) = true := by decide +kernel
/-- Rule R168's example. -/
theorem test_dwalk : goesOn (exec .dwalk { abTree with inBuf := [(0, 2)], inLen := 1, orig := 2 }) (fun t =>
    decide (t.output = [0x41, 0x42] ∧ t.emitted = 2 ∧ t.brPos = 0 ∧ t.brCur = 2 ∧ t.ok = true)) = true := by decide +kernel
/-- Rule R236: a bit 1 in the single-symbol tree. -/
theorem test_dwalk_placeholder : goesOn (exec .dwalk { oneTree with inBuf := [(0, 4)], inLen := 1, orig := 3 }) (fun t =>
    decide (t.err = some .placeholderReached ∧ t.outLen = 0 ∧ t.state = .done)) = true := by decide +kernel
/-- Rule R167's example. -/
theorem test_dstep : goesOn (exec .dstep { abTree with inBuf := [(0, 2)], inLen := 1, orig := 2, brCur := 1 }) (fun t =>
    decide (t.output = [0x42] ∧ t.emitted = 1 ∧ t.walkCur = 2 ∧ t.phase = 12)) = true := by decide +kernel
/-- Rule R165's example: the second RBIT. -/
theorem test_rbit : goesOn (exec .rbit { State.reset with inBuf := [(0, 2)], inLen := 1, brCur := 1 }) (fun t =>
    decide (t.rbitVal = some true ∧ t.brPos = 0 ∧ t.brCur = 2 ∧ t.phase = 13)) = true := by decide +kernel
/-- Rule R166: at the end of the buffer nothing moves. -/
theorem test_rbit_exhausted : goesOn (exec .rbit { State.reset with inLen := 1, brPos := 1 }) (fun t =>
    decide (t.rbitVal = none ∧ t.brPos = 1 ∧ t.brCur = 0)) = true := by decide +kernel
theorem test_done : goesOn (exec .done { State.reset with state := .busy, phase := 15 }) (fun t =>
    decide (t.ok = true ∧ t.state = .done)) = true := by decide +kernel
/-- Rule R23: DONE, OK, no failure, `PHASE` = 15. -/
theorem test_status_word : ({ State.reset with state := .done, ok := true, phase := 15 } : State).statusWord 15 = 0xF06 := by decide

/-! ### Witnesses: the hypotheses of each statement, met together -/

/-- A run in progress that has written nothing meets the invariant when its accumulator is clear above the cursor. -/
theorem inv_of_running {s : State} (hi : Memory.wf s.inBuf) (ho : s.outBuf = []) (hl : s.outLen = 0) (hq : s.pq = [])
    (ha : ∀ k, s.bwCur.toNat ≤ k → s.bwAcc.getLsbD k = false) (hb : s.state = .busy) (hk : s.ok = false) (he : s.err = none) :
    s.Inv where
  inCanonical := hi
  outCanonical := by rw [ho]; exact List.Pairwise.nil
  queueIsSet := by rw [hq]; exact List.Pairwise.nil
  accumulatorClear := ha
  idlePhase h := by rw [hb] at h; cases h
  donePhase h := by rw [hb] at h; cases h
  clearWhileRunning _ := ⟨hk, he⟩
  resultIsEither h := by rw [hb] at h; cases h
  specifiedOutput h := absurd hb h
  outputListed a h := by rw [hl] at h; exact absurd h (Nat.not_lt_zero a)

/-- A run in progress with a `PHASE` code and a bit-writer accumulator. -/
def running (p : PhaseCode) (acc : Byte) (cur : BitVec 3) : State :=
  { State.reset with state := .busy, phase := p, bwAcc := acc, bwCur := cur }

theorem running_inv (p : PhaseCode) : (running p 0 0).Inv :=
  inv_of_running List.Pairwise.nil rfl rfl rfl (by simp [running]) rfl rfl rfl

/-- The tree of "AB", the one of the single symbol 0x41, the one of "ABRACADABRA" (rule R133). -/
def abT : HTree := .fork (.leaf 0x41) (.leaf 0x42)
def oneT : HTree := .fork (.leaf 0x41) .hole
def abraT : HTree :=
  .fork (.leaf 0x41) (.fork (.fork (.leaf 0x43) (.leaf 0x44)) (.fork (.leaf 0x42) (.leaf 0x52)))

theorem abTree_holds : Holds abTree.node 2 abT :=
  ⟨forkOf 2 0 1, by decide +kernel, rfl, ⟨leafOf 0x41 1, by decide +kernel, rfl, rfl, rfl⟩, leafOf 0x42 1, by decide +kernel, rfl, rfl, rfl⟩

theorem oneTree_holds : Holds oneTree.node 2 oneT :=
  ⟨forkOf 6 0 1, by decide +kernel, rfl, ⟨leafOf 0x41 6, by decide +kernel, rfl, rfl, rfl⟩,
    { leafOf 0 0 with ph := true }, by decide +kernel, rfl, rfl⟩

theorem abraTree_holds : Holds abraTree.node 8 abraT :=
  ⟨forkOf 11 0 7, by decide +kernel, rfl, ⟨leafOf 0x41 5, by decide +kernel, rfl, rfl, rfl⟩,
    forkOf 6 5 6, by decide +kernel, rfl,
    ⟨forkOf 2 2 3, by decide +kernel, rfl, ⟨leafOf 0x43 1, by decide +kernel, rfl, rfl, rfl⟩, leafOf 0x44 1, by decide +kernel, rfl, rfl, rfl⟩,
    forkOf 4 1 4, by decide +kernel, rfl, ⟨leafOf 0x42 2, by decide +kernel, rfl, rfl, rfl⟩, leafOf 0x52 2, by decide +kernel, rfl, rfl, rfl⟩

/-- The states the walks start from. -/
def walking (s : State) (bs : List Byte) (n : Word64) : State :=
  { s with inBuf := Memory.writeBytes [] 0 bs, inLen := BitVec.ofNat 64 bs.length, orig := n, state := .busy, phase := 12,
           cfg := { inCap := some bs.length, outCap := some n.toNat } }

theorem abTree_hasTree (bs : List Byte) (n : Word64) : (walking abTree bs n).HasTree abT :=
  ⟨abTree_holds, ⟨_, _, rfl⟩, by decide, by decide⟩
theorem oneTree_hasTree (bs : List Byte) (n : Word64) : (walking oneTree bs n).HasTree oneT :=
  ⟨oneTree_holds, ⟨_, _, rfl⟩, by decide, by decide⟩
theorem abraTree_hasTree (bs : List Byte) (n : Word64) : (walking abraTree bs n).HasTree abraT :=
  ⟨abraTree_holds, ⟨_, _, rfl⟩, by decide, by decide⟩

theorem witness_DecodeInvertsEncode : Instr.wf .dwalk = true ∧ decode [3, 0, 0, 0] = .ok .decompress := by decide

/-- A host move made as soon as no run is in progress. -/
def later (m : HostMove) : HostEvent := { wait := .untilNotBusy, move := m }

/-- A state with one pending move, which just fits two bytes of each buffer. -/
def pending (r : RunState) (e : HostEvent) : State :=
  { State.reset with cfg := { inCap := some 2, outCap := some 2 }, state := r, host := [e] }

/-- The move is the next one and is due, whichever of the two it waited for. -/
theorem pending_due (m : HostMove) :
    ((pending .idle (later m)).host = later m :: [] ∧ (later m).due (pending .idle (later m)) = true) ∧
    ((pending .done (later m)).host = later m :: [] ∧ (later m).due (pending .done (later m)) = true) ∧
    ((pending .busy (now m)).host = now m :: [] ∧ (now m).due (pending .busy (now m)) = true) ∧
    (later m).move = m ∧ (now m).move = m :=
  ⟨⟨rfl, rfl⟩, ⟨rfl, rfl⟩, ⟨rfl, rfl⟩, rfl, rfl⟩

theorem witness_StepPerformsDecodedInstruction :
    ((running 10 0 7).state = .busy ∧ (running 10 0 7).host = [] ∧ decodePhase (running 10 0 7).phase = .wbit) ∧
    (let e : HostEvent := later .readStatus
     let s : State := { running 14 0 0 with host := [e] }
     s.state = .busy ∧ s.host = e :: [] ∧ e.due s = false ∧ decodePhase s.phase = .rbit) ∧
    (State.reset.state = .idle ∧ State.reset.host = []) ∧
    (let e : HostEvent := { wait := .turns 1, move := .readStatus }
     (pending .idle e).state = .idle ∧ (pending .idle e).host = e :: [] ∧ e.due (pending .idle e) = false) ∧
    (let s : State := { State.reset with state := .done }
     s.state = .done ∧ s.host = []) ∧
    (let e : HostEvent := { wait := .turns 1, move := .reset }
     (pending .done e).state = .done ∧ (pending .done e).host = e :: [] ∧ e.due (pending .done e) = false) ∧
    (let e := later (.writeCtrl 3)
     (pending .done e).host = e :: [] ∧ e.due (pending .done e) = true ∧ e.move = .writeCtrl 3 ∧ decodeCtrl 3 = .ok .decompress) :=
  ⟨⟨rfl, rfl, rfl⟩, ⟨rfl, rfl, rfl, rfl⟩, ⟨rfl, rfl⟩, ⟨rfl, rfl, rfl⟩, ⟨rfl, rfl⟩, ⟨rfl, rfl, rfl⟩, rfl, rfl, rfl, rfl⟩

theorem witness_StartBeginsRun : State.reset.state ≠ .busy ∧ ({ State.reset with state := .done } : State).state ≠ .busy := by decide

theorem witness_RestDoesNothing : State.reset.state ≠ .busy ∧ (running 15 0 0).state = .busy ∧ (running 15 0 0).Inv :=
  ⟨by decide, rfl, running_inv 15⟩

theorem witness_IgnoredHostWrites :
    (let e := now (.writeCtrl 3)
     (pending .busy e).host = e :: [] ∧ e.due (pending .busy e) = true ∧ (pending .busy e).state = .busy ∧ e.move = .writeCtrl 3) ∧
    (let e := later (.writeStatus 7)
     (pending .done e).host = e :: [] ∧ e.due (pending .done e) = true ∧ e.move = .writeStatus 7) ∧
    (let e := later (.writeOutLen 7)
     (pending .idle e).host = e :: [] ∧ e.due (pending .idle e) = true ∧ e.move = .writeOutLen 7) :=
  ⟨⟨rfl, rfl, rfl, rfl⟩, ⟨rfl, rfl, rfl⟩, rfl, rfl, rfl⟩

theorem witness_CtrlWithoutStartSetsOp :
    let e := later (.writeCtrl 2)
    (pending .idle e).state ≠ .busy ∧ (2 : Word32).getLsbD 0 = false ∧ (pending .idle e).host = e :: [] ∧
      e.due (pending .idle e) = true ∧ e.move = .writeCtrl 2 :=
  ⟨by decide, by decide, rfl, rfl, rfl⟩

theorem witness_StatusReadInEveryState :
    (let e := now .readStatus
     let s : State := { running 8 0 0 with host := [e] }
     s.host = e :: [] ∧ e.due s = true ∧ e.move = .readStatus ∧ s.Inv ∧ s.state = .busy) ∧
    (let e := later .readStatus
     (pending .done e).host = e :: [] ∧ e.due (pending .done e) = true ∧ e.move = .readStatus ∧ (pending .done e).state ≠ .busy) :=
  ⟨⟨rfl, rfl, rfl, inv_of_running List.Pairwise.nil rfl rfl rfl (by simp [running]) rfl rfl rfl, rfl⟩, rfl, rfl, rfl, by decide⟩

/-- Every move can be due while BUSY (`pending_due`), those of this statement among them. -/
theorem witness_NoHostAccessWhileBusy (m : HostMove) :
    (pending .busy (now m)).state = .busy ∧ (pending .busy (now m)).host = now m :: [] ∧
    (now m).due (pending .busy (now m)) = true ∧ (now m).move = m :=
  ⟨rfl, rfl, rfl, rfl⟩

theorem witness_HostLoadsInput :
    (let e := later (.writeIn 0 abBytes)
     (pending .idle e).state ≠ .busy ∧ (pending .idle e).host = e :: [] ∧ e.due (pending .idle e) = true ∧
       e.move = .writeIn 0 abBytes ∧ (pending .idle e).cfg.inHolds (0 + abBytes.length) = true) ∧
    (let e := later (.writeInLen 2)
     (pending .done e).state ≠ .busy ∧ (pending .done e).host = e :: [] ∧ e.due (pending .done e) = true ∧ e.move = .writeInLen 2) :=
  ⟨⟨by decide, rfl, rfl, rfl, by decide⟩, by decide, rfl, rfl, rfl⟩

/-- `pending_due` gives the move that is due in DONE, where all five reads are answered; two bytes are the whole of each buffer. -/
theorem witness_HostReadsReturnStored (m : HostMove) :
    (pending .done (later m)).host = later m :: [] ∧ (later m).due (pending .done (later m)) = true ∧
    (later m).move = m ∧ (pending .done (later m)).state ≠ .busy ∧ (pending .done (later m)).state = .done ∧
    (pending .done (later m)).cfg.inHolds (1 + 1) = true ∧ (pending .done (later m)).cfg.outHolds (1 + 1) = true :=
  ⟨rfl, rfl, rfl, RunState.noConfusion, rfl, rfl, rfl⟩

/-- A write of CTRL with START = 0 that is due, and a reset that is not due yet. -/
theorem witness_ResultStaysReadable :
    (let s := pending .done (later (.writeCtrl 2))
     s.state = .done ∧ (∀ e ∈ s.host.head?, e.due s = true → e.move ≠ .reset ∧ ∀ v, e.move = .writeCtrl v → v.getLsbD 0 = false) ∧
       ∃ t, step s = .next t) ∧
    (let s := pending .done { wait := .turns 1, move := .reset }
     s.state = .done ∧ (∀ e ∈ s.host.head?, e.due s = true → e.move ≠ .reset ∧ ∀ v, e.move = .writeCtrl v → v.getLsbD 0 = false) ∧
       ∃ t, step s = .next t) := by
  refine ⟨⟨rfl, ?_, _, rfl⟩, rfl, ?_, _, rfl⟩
  · intro e he _
    cases he
    refine ⟨by decide, fun v hv => ?_⟩
    cases hv
    decide
  · intro e he hd
    cases he
    cases hd

theorem witness_ResetMoveAbandonsRun :
    (let e := now .reset
     (pending .busy e).host = e :: [] ∧ e.due (pending .busy e) = true ∧ e.move = .reset) ∧
    (let e := later .reset
     (pending .done e).host = e :: [] ∧ e.due (pending .done e) = true ∧ e.move = .reset) :=
  ⟨⟨rfl, rfl, rfl⟩, rfl, rfl, rfl⟩

theorem fed_clear (bs : List Byte) : (fed bs).TableClear :=
  ⟨rfl, fun sym => by simp [fed, State.reset, State.isKey, State.freqOf]⟩

theorem witness_FcountTalliesInput : (fed abraBytes).cfg.inHolds (fed abraBytes).inLen.toNat = true ∧ (fed abraBytes).TableClear :=
  ⟨by decide, fed_clear _⟩

theorem witness_CparseChecksInOrder :
    (let s := fed [0x48, 0x55, 0x46]
     s.cfg.inHolds s.inLen.toNat = true ∧ s.inLen.toNat < 4) ∧
    (let s := fed [0x48, 0x55, 0x46, 0x32]
     s.cfg.inHolds s.inLen.toNat = true ∧ 4 ≤ s.inLen.toNat ∧
       [s.readIn 0, s.readIn 1, s.readIn 2, s.readIn 3] ≠ [0x48, 0x55, 0x46, 0x31]) ∧
    (let s := fed (abHeader.take 15)
     s.cfg.inHolds s.inLen.toNat = true ∧ [s.readIn 0, s.readIn 1, s.readIn 2, s.readIn 3] = [0x48, 0x55, 0x46, 0x31] ∧
       4 ≤ s.inLen.toNat ∧ s.inLen.toNat < 16) ∧
    (let s := fed ((abHeader ++ abTable).take 33)
     s.cfg.inHolds s.inLen.toNat = true ∧ [s.readIn 0, s.readIn 1, s.readIn 2, s.readIn 3] = [0x48, 0x55, 0x46, 0x31] ∧
       16 ≤ s.inLen.toNat ∧ s.inLen.toNat < 16 + 9 * s.memRead 12 4) := by
  refine ⟨⟨?_, ?_⟩, ⟨?_, ?_, ?_⟩, ⟨?_, ?_, ?_, ?_⟩, ?_, ?_, ?_, ?_⟩ <;> decide +kernel

theorem witness_CparseLoadsTable :
    (let s := fed (abHeader ++ abTable)
     s.cfg.inHolds s.inLen.toNat = true ∧ [s.readIn 0, s.readIn 1, s.readIn 2, s.readIn 3] = [0x48, 0x55, 0x46, 0x31] ∧
       16 + 9 * s.memRead 12 4 ≤ s.inLen.toNat ∧ s.TableClear ∧ 1 < s.memRead 12 4 ∧
       (∀ j < s.memRead 12 4, 1 < j → s.readIn (16 + 9 * j) ≠ s.readIn (16 + 9 * 1)) ∧ s.isKey 0x43 = false) ∧
    (let s := fed [0x48, 0x55, 0x46, 0x31, 0, 0, 0, 0, 0, 0, 0, 0, 0, 0, 0, 0]
     16 + 9 * s.memRead 12 4 ≤ s.inLen.toNat ∧ s.TableClear) := by
  refine ⟨⟨?_, ?_, ?_, fed_clear _, ?_, ?_, ?_⟩, ?_, fed_clear _⟩ <;> decide +kernel

theorem witness_CencWritesHeaderAndTable :
    let s : State := { abKeys with inLen := 2, cfg := { inCap := none, outCap := some 34 } }
    s.cfg.outHolds (s.outLen + (16 + 9 * s.keys.length)) = true := by
  intro s
  have h : s.keys = [0x41, 0x42] := abKeys_keys
  rw [h]
  decide

theorem witness_NodeOrderIsTotal :
    abraTree.node[(2 : NodeIx).toNat]? = some (leafOf 0x43 1) ∧ abraTree.node[(3 : NodeIx).toNat]? = some (leafOf 0x44 1) ∧
    lower abraTree.node 2 3 = true ∧ lower abraTree.node 3 1 = true := by
  refine ⟨?_, ?_, ?_, ?_⟩ <;> decide +kernel

theorem witness_ExtractMinTakesTheLowest :
    ([4, 1] : List NodeIx) ≠ [] ∧ (∀ i, nfreqOf abraTree.node i = nfreqOf abraTree.node i) ∧
    ∀ j : NodeIx, j ∈ [1, 4, 1] ↔ j ∈ ([4, 1] : List NodeIx) := by
  refine ⟨by decide, fun _ => rfl, fun j => ?_⟩
  simp
  tauto

theorem witness_TseedRefusesEmptyTable : State.reset.m = 0 := rfl

theorem witness_TseedSeedsLeaves :
    abKeys.nn = 0 ∧ abKeys.pq = [] ∧ abKeys.m.toNat = abKeys.keys.length ∧ 2 ≤ abKeys.keys.length := by
  rw [abKeys_keys]
  decide

theorem witness_TseedSingleSymbolTree : oneKey.nn = 0 ∧ oneKey.pq = [] ∧ oneKey.m = 1 ∧ oneKey.keys = [0x41] :=
  ⟨rfl, rfl, rfl, oneKey_keys⟩

theorem witness_TmergeJoinsTwoLowest :
    (let s := abraSeeded
     s.nn.toNat < 511 ∧ (∀ i ∈ s.pq, i.toNat < s.nn.toNat) ∧ 2 ∈ s.pq ∧ (∀ j ∈ s.pq, j ≠ 2 → lower s.node 2 j = true) ∧
       3 ∈ s.pq ∧ (3 : NodeIx) ≠ 2 ∧ (∀ j ∈ s.pq, j ≠ 2 → j ≠ 3 → lower s.node 3 j = true) ∧
       nfreqOf s.node 2 + nfreqOf s.node 3 < 2 ^ 72 ∧ ∃ j ∈ s.pq, j ≠ 2 ∧ j ≠ 3) ∧
    (let s : State := { abraSeeded with pq := [0, 1] }
     s.nn.toNat < 511 ∧ (∀ i ∈ s.pq, i.toNat < s.nn.toNat) ∧ 1 ∈ s.pq ∧ (∀ j ∈ s.pq, j ≠ 1 → lower s.node 1 j = true) ∧
       0 ∈ s.pq ∧ (0 : NodeIx) ≠ 1 ∧ (∀ j ∈ s.pq, j ≠ 1 → j ≠ 0 → lower s.node 0 j = true) ∧ ∀ j ∈ s.pq, j = 1 ∨ j = 0) := by
  refine ⟨⟨?_, ?_, ?_, ?_, ?_, ?_, ?_, ?_, ?_⟩, ?_, ?_, ?_, ?_, ?_, ?_, ?_, ?_⟩ <;> decide +kernel

theorem witness_BuiltTreeCarriesTheKeys :
    (let s : State := { abKeys with state := .busy, phase := Phase.tseed }
     s.state = .busy ∧ s.host = [] ∧ s.phase = Phase.tseed ∧ s.nn = 0 ∧ s.pq = [] ∧ s.m.toNat = s.keys.length ∧ s.keys ≠ [] ∧
       2 ≤ s.keys.length) ∧
    (let s : State := { oneKey with state := .busy, phase := Phase.tseed }
     s.state = .busy ∧ s.host = [] ∧ s.phase = Phase.tseed ∧ s.nn = 0 ∧ s.pq = [] ∧ s.m.toNat = s.keys.length ∧ s.keys = [0x41]) := by
  have h2 : ({ abKeys with state := .busy, phase := Phase.tseed } : State).keys = [0x41, 0x42] := abKeys_keys
  have h1 : ({ oneKey with state := .busy, phase := Phase.tseed } : State).keys = [0x41] := oneKey_keys
  dsimp only
  rw [h1, h2]
  decide

theorem witness_CgenWritesPaths : (walking abraTree [] 0).HasTree abraT := abraTree_hasTree [] 0

theorem witness_CodesArePrefixFree :
    (walking { abTree with ctrlOp := true } [] 0).HasTree abT ∧
    (∃ t, exec .cgen (walking { abTree with ctrlOp := true } [] 0) = .next t) ∧
    0x41 ∈ abT.codes.map Prod.fst ∧ 0x42 ∈ abT.codes.map Prod.fst ∧ (0x41 : Byte) ≠ 0x42 := by
  refine ⟨⟨abTree_holds, ⟨_, _, rfl⟩, by decide, by decide⟩, ?_, by decide, by decide, by decide⟩
  have h : goesOn (exec .cgen (walking { abTree with ctrlOp := true } [] 0)) (fun _ => true) = true := by decide +kernel
  exact (goesOn_elim h).imp fun t ht => ht.1

theorem witness_WbitWritesOneBit :
    (running 10 0 6).bwCur ≠ 7 ∧
    (let s : State := { running 10 0 7 with cfg := { inCap := none, outCap := some 1 } }
     s.bwCur = 7 ∧ s.cfg.outHolds (s.outLen + 1) = true) := by decide

theorem witness_FlushAppendsPartialByte :
    ((running 11 0 0).Inv ∧ (running 11 0 0).bwCur = 0) ∧
    (let s : State := { running 11 0x3B 7 with cfg := { inCap := none, outCap := some 1 } }
     s.Inv ∧ s.bwCur ≠ 0 ∧ s.cfg.outHolds (s.outLen + 1) = true) := by
  refine ⟨⟨running_inv 11, rfl⟩, inv_of_running List.Pairwise.nil rfl rfl rfl ?_ rfl rfl rfl, by decide, by decide⟩
  intro k hk
  by_cases h : k = 7
  · subst h; decide
  · apply BitVec.getLsbD_of_ge
    have : 7 ≤ k := hk
    omega

/-- A code of three bits for 0x42, one bit from the end of a byte and with room for one byte. -/
def coded : State :=
  withCode { fed [0x42] with opSym := 0x42, bwCur := 6, cfg := { inCap := some 1, outCap := some 1 } } 0x42 3 0b011

theorem coded_bits : coded.codeBitsOf coded.opSym = [true, true, false] := by decide +kernel

theorem witness_PutcodeWritesTheCode :
    [true, true, false] = coded.codeBitsOf coded.opSym ∧
    coded.cfg.outHolds (coded.outLen + (coded.bwCur.toNat + [true, true, false].length) / 8) = true :=
  ⟨coded_bits.symm, by decide⟩

theorem witness_PackWritesAllCodes :
    coded.cfg.inHolds coded.inLen.toNat = true ∧ [true, true, false] = coded.input.flatMap coded.codeBitsOf ∧
    coded.cfg.outHolds (coded.outLen + (coded.bwCur.toNat + [true, true, false].length) / 8) = true := by
  refine ⟨?_, ?_, ?_⟩ <;> decide +kernel

theorem witness_RbitReadsNextBit :
    (let s : State := { fed [2] with brPos := 1 }
     s.cfg.inHolds s.inLen.toNat = true ∧ s.inLen.toNat ≤ s.brPos.toNat) ∧
    (let s : State := { fed [2] with brCur := 7 }
     s.cfg.inHolds s.inLen.toNat = true ∧ s.brPos.toNat < s.inLen.toNat ∧ s.brCur = 7) ∧
    (let s : State := { fed [2] with brCur := 6 }
     s.cfg.inHolds s.inLen.toNat = true ∧ s.brPos.toNat < s.inLen.toNat ∧ s.brCur ≠ 7) := by decide

/-- One clause of DSTEP's table: where a bit leads. -/
def leadsTo (s : State) (c x : Node) (b : Bool) (n : NodeIx) : Prop :=
  s.cfg.inHolds s.inLen.toNat = true ∧ s.brPos.toNat < s.inLen.toNat ∧ s.nodeAt? s.walkCur = some c ∧
    b = (s.readIn s.brPos.toNat).getLsbD s.brCur.toNat ∧ n = (if b = true then c.right else c.left) ∧ s.nodeAt? n = some x

theorem witness_DstepTransitions :
    (let s := walking abTree [] 2
     s.cfg.inHolds s.inLen.toNat = true ∧ s.inLen.toNat ≤ s.brPos.toNat) ∧
    (leadsTo { walking abraTree [3] 2 with walkCur := 8 } (forkOf 11 0 7) (forkOf 6 5 6) true 7 ∧ (forkOf 6 5 6).kind = .internal) ∧
    (leadsTo { walking oneTree [0x80] 2 with brCur := 7 } (forkOf 6 0 1) { leafOf 0 0 with ph := true } true 1 ∧
      ({ leafOf 0 0 with ph := true } : Node).kind = .leaf ∧ ({ leafOf 0 0 with ph := true } : Node).ph = true) ∧
    (leadsTo (walking abTree [2] 1) (forkOf 2 0 1) (leafOf 0x41 1) false 0 ∧ (leafOf 0x41 1).kind = .leaf ∧
      (leafOf 0x41 1).ph = false ∧ (walking abTree [2] 1).cfg.outHolds ((walking abTree [2] 1).outLen + 1) = true) := by
  refine ⟨by decide +kernel, ⟨⟨?_, ?_, ?_, ?_, ?_, ?_⟩, rfl⟩, ⟨⟨?_, ?_, ?_, ?_, ?_, ?_⟩, rfl, rfl⟩, ⟨?_, ?_, ?_, ?_, ?_, ?_⟩, rfl, rfl, by decide⟩
    <;> decide +kernel

theorem witness_DwalkDecodesCodes :
    let s := walking abTree [2] 2
    let xs : List (Byte × List Bool) := [(0x41, [false]), (0x42, [true])]
    s.Inv ∧ s.HasTree abT ∧ s.cfg.inHolds s.inLen.toNat = true ∧ s.emitted = 0 ∧ xs.length = s.orig.toNat ∧
      s.cfg.outHolds (s.outLen + xs.length) = true ∧ (∀ e ∈ xs, e ∈ abT.codes) ∧ xs.flatMap Prod.snd <+: s.bitsAhead := by
  refine ⟨inv_of_running (by simp [walking, Memory.writeBytes, Memory.write]) rfl rfl rfl (by simp [walking, abTree, State.reset]) rfl rfl rfl,
    abTree_hasTree _ _, ?_, ?_, ?_, ?_, ?_, ?_⟩ <;> decide +kernel

theorem witness_DwalkFailsOnBadStream :
    (let s := walking abraTree [0xFF] 3
     let xs : List (Byte × List Bool) := [(0x52, [true, true, true]), (0x52, [true, true, true])]
     s.HasTree abraT ∧ s.cfg.inHolds s.inLen.toNat = true ∧ s.emitted = 0 ∧ xs.length < s.orig.toNat ∧
       s.cfg.outHolds (s.outLen + xs.length) = true ∧ (∀ e ∈ xs, e ∈ abraT.codes) ∧
       s.bitsAhead = xs.flatMap Prod.snd ++ [true, true] ∧ ∃ e ∈ abraT.codes, [true, true] <+: e.2 ∧ [true, true] ≠ e.2) ∧
    (let s := walking oneTree [4] 3
     s.HasTree (.fork (.leaf 0x41) .hole) ∧ s.cfg.inHolds s.inLen.toNat = true ∧ s.emitted = 0 ∧ 2 < s.orig.toNat ∧
       s.cfg.outHolds (s.outLen + 2) = true ∧ (List.replicate 2 false ++ [true]) <+: s.bitsAhead) := by
  refine ⟨⟨abraTree_hasTree _ _, ?_, ?_, ?_, ?_, ?_, ?_, ?_⟩, oneTree_hasTree _ _, ?_, ?_, ?_, ?_, ?_⟩ <;> decide +kernel

theorem witness_DwalkAlwaysEndsTheRun :
    let s := walking abTree [2] 2
    s.HasTree abT ∧ s.cfg.inHolds s.inLen.toNat = true ∧ s.cfg.outHolds (s.outLen + (s.orig.toNat - s.emitted.toNat)) = true :=
  ⟨abTree_hasTree _ _, by decide, by decide⟩

/-- The same tree and stream, with other padding bits and a byte more. -/
def padded : State := { walking abTree [2] 2 with inBuf := [(0, 0xFE), (1, 0x55)], inLen := 2, cfg := Config.unbounded }

theorem witness_DecoderNeverLooksPastItsLastBit :
    let s : State := { walking abTree [2] 2 with cfg := Config.unbounded }
    padded = { s with inBuf := padded.inBuf, inLen := padded.inLen, inEpoch := padded.inEpoch } ∧
    padded.cfg.inHolds padded.inLen.toNat = true ∧
    ∃ t, exec .dwalk s = .next t ∧ t.ok = true ∧ 8 * t.brPos.toNat + t.brCur.toNat ≤ 8 * padded.inLen.toNat ∧
      ∀ a, ∀ k < 8, 8 * a + k < 8 * t.brPos.toNat + t.brCur.toNat → (padded.readIn a).getLsbD k = (s.readIn a).getLsbD k := by
  intro s
  refine ⟨rfl, by decide, ?_⟩
  have h : goesOn (exec .dwalk s) (fun t => decide (t.ok = true ∧ 8 * t.brPos.toNat + t.brCur.toNat = 2)) = true := by decide +kernel
  obtain ⟨t, ht, hp⟩ := goesOn_elim h
  obtain ⟨hok, hpos⟩ := of_decide_eq_true hp
  refine ⟨t, ht, hok, by rw [hpos]; decide, fun a k _ hlt => ?_⟩
  rw [hpos] at hlt
  obtain rfl : a = 0 := by omega
  obtain rfl | rfl : k = 0 ∨ k = 1 := by omega
  all_goals decide +kernel

theorem witness_StopsOutsideRequirements :
    State.reset.pq = [] ∧
    (let s : State := { fed [2] with cfg := { inCap := some 0, outCap := none } }
     s.cfg.inHolds s.inLen.toNat = false) ∧
    (let s : State := { running 10 0 7 with cfg := { inCap := none, outCap := some 0 } }
     s.bwCur = 7 ∧ s.cfg.outHolds (s.outLen + 1) = false) := by decide

theorem witness_EngineNeverWritesItsInput : ∃ t, exec .fcount State.reset = .next t ∧ Instr.fcount ≠ .compress ∧ Instr.fcount ≠ .decompress := by
  have h : goesOn (exec .fcount State.reset) (fun _ => true) = true := by decide +kernel
  exact (goesOn_elim h).imp fun t ht => ⟨ht.1, by decide, by decide⟩

theorem witness_OutputIsOnlyAppended :
    (running 10 0 0).Inv ∧ Instr.wbit ≠ .init ∧ ∃ t, exec .wbit (running 10 0 0) = .next t ∧ t.err = none := by
  refine ⟨running_inv 10, by decide, ?_⟩
  have h : goesOn (exec .wbit (running 10 0 0)) (fun t => decide (t.err = none)) = true := by decide +kernel
  exact (goesOn_elim h).imp fun t ht => ⟨ht.1, of_decide_eq_true ht.2⟩

theorem witness_QuietOperationsNeverFail : (running 10 0 0).err = none ∧ ∃ t, exec .wbit (running 10 0 0) = .next t := by
  have h : goesOn (exec .wbit (running 10 0 0)) (fun _ => true) = true := by decide +kernel
  exact ⟨rfl, (goesOn_elim h).imp fun t ht => ht.1⟩

theorem witness_EveryStepKeepsTheInvariant : (running 10 0 0).Inv ∧ ∃ t, step (running 10 0 0) = .next t := by
  have h : goesOn (step (running 10 0 0)) (fun _ => true) = true := by decide +kernel
  exact ⟨running_inv 10, (goesOn_elim h).imp fun t ht => ht.1⟩

theorem witness_EveryRunEnds : (fed abBytes).state ≠ .busy ∧ (fed abBytes).host = [] := by decide

theorem witness_RefusalsAtOnce :
    (State.reset.state ≠ .busy ∧ State.reset.host = [] ∧ State.reset.inLen = 0) ∧
    (let s : State := { State.reset with inLen := 5, cfg := { inCap := some 4, outCap := none } }
     s.state ≠ .busy ∧ s.host = [] ∧ s.cfg.inHolds s.inLen.toNat = false) := by decide

/-- Eight steps compress "AB" into the 35 bytes of 95_test_vectors.md V1. -/
theorem ab_compresses :
    goesOn (run 8 ((fed abBytes).start false)) (fun t =>
      decide (t.state = .done ∧ t.ok = true ∧ t.output = abContainer ∧ t.outLen = 35 ∧ t.cfg = Config.unbounded)) = true := by
  decide +kernel

theorem witness_CompressWritesAContainer :
    (fed abBytes).state ≠ .busy ∧ (fed abBytes).host = [] ∧
    ∃ t, run 8 ((fed abBytes).start false) = .next t ∧ t.state = .done ∧ t.ok = true := by
  refine ⟨by decide, rfl, ?_⟩
  obtain ⟨t, ht, hp⟩ := goesOn_elim ab_compresses
  have h := of_decide_eq_true hp
  exact ⟨t, ht, h.1, h.2.1⟩

/-- 95_test_vectors.md, section 2.8: "AB" fits 35 bytes and not 34. -/
theorem test_size_check :
    goesOn (run 8 (({ fed abBytes with cfg := { inCap := some 2, outCap := some 35 } } : State).start false)) (fun t =>
      decide (t.ok = true ∧ t.outLen = 35)) = true ∧
    goesOn (run 5 (({ fed abBytes with cfg := { inCap := some 2, outCap := some 34 } } : State).start false)) (fun t =>
      decide (t.err = some .capacityExceeded ∧ t.outLen = 0)) = true := by decide +kernel

theorem witness_CompressSucceedsWithRoom :
    let s : State := { fed abBytes with cfg := { inCap := some 2, outCap := some 35 } }
    s.state ≠ .busy ∧ s.host = [] ∧ s.inLen ≠ 0 ∧ s.cfg.inHolds s.inLen.toNat = true := by decide

theorem witness_ResultDependsOnlyOnInput :
    let s := fed abBytes
    let s' : State := { walking abraTree [0x41, 0x42, 0x43] 9 with cfg := Config.unbounded, inLen := 2, state := .done, phase := 15 }
    s.state ≠ .busy ∧ s'.state ≠ .busy ∧ s.host = [] ∧ s'.host = [] ∧ s'.cfg = s.cfg ∧ s'.inLen = s.inLen ∧ s'.input = s.input ∧
    ∃ t, run 8 (s.start false) = .next t ∧ t.state = .done := by
  intro s s'
  refine ⟨by decide, by decide, rfl, rfl, rfl, by decide, by decide +kernel, ?_⟩
  obtain ⟨t, ht, hp⟩ := goesOn_elim ab_compresses
  exact ⟨t, ht, (of_decide_eq_true hp).1⟩

theorem witness_DecompressInvertsCompress :
    let s := fed abBytes
    s.state ≠ .busy ∧ s.host = [] ∧ ∃ t, run 8 (s.start false) = .next t ∧ t.state = .done ∧ t.ok = true ∧ t.outLen < 2 ^ 64 ∧
      t.cfg.inHolds t.outLen = true ∧ t.cfg.outHolds s.inLen.toNat = true := by
  intro s
  refine ⟨by decide, rfl, ?_⟩
  obtain ⟨t, ht, hp⟩ := goesOn_elim ab_compresses
  obtain ⟨hs, hok, -, hl, hc⟩ := of_decide_eq_true hp
  refine ⟨t, ht, hs, hok, by omega, ?_, ?_⟩
  · rw [hc, hl]; decide
  · rw [hc]; decide

theorem witness_TruncatedContainerFails :
    let s := fed abBytes
    let s' := fed (abHeader ++ abTable)
    s.state ≠ .busy ∧ s.host = [] ∧ s'.state ≠ .busy ∧ s'.host = [] ∧ s'.cfg.inHolds s'.inLen.toNat = true ∧
    s'.cfg.outHolds s.inLen.toNat = true ∧
    ∃ t, run 8 (s.start false) = .next t ∧ t.state = .done ∧ t.ok = true ∧ s'.inLen.toNat + 1 = t.outLen ∧ s'.input = t.output.dropLast := by
  intro s s'
  refine ⟨by decide, rfl, by decide, rfl, by decide, by decide, ?_⟩
  obtain ⟨t, ht, hp⟩ := goesOn_elim ab_compresses
  obtain ⟨hs, hok, hout, hl, -⟩ := of_decide_eq_true hp
  refine ⟨t, ht, hs, hok, by rw [hl]; decide, ?_⟩
  rw [hout]
  decide +kernel

/-- The container V41 of 95_test_vectors.md: its third bit leads to the placeholder. -/
def onesContainer : List Byte := [0x48, 0x55, 0x46, 0x31, 3, 0, 0, 0, 0, 0, 0, 0, 1, 0, 0, 0, 0x41, 3, 0, 0, 0, 0, 0, 0, 0, 4]

theorem witness_PlaceholderOnlyWithOneKey :
    let s := fed onesContainer
    s.state ≠ .busy ∧ s.host = [] ∧ ∃ t, run 5 (s.start true) = .next t ∧ t.state = .done ∧ t.err = some .placeholderReached := by
  intro s
  refine ⟨by decide, rfl, ?_⟩
  have h : goesOn (run 5 (s.start true)) (fun t => decide (t.state = .done ∧ t.err = some .placeholderReached)) = true := by decide +kernel
  obtain ⟨t, ht, hp⟩ := goesOn_elim h
  exact ⟨t, ht, (of_decide_eq_true hp).1, (of_decide_eq_true hp).2⟩

end Sys2Proof.Tests
end

section
/-! PROOFS of the family 10_state.md: the invariant at reset (O5), what a step performs (O6), the words of `STATUS` and `CTRL` (O11), and
what no operation writes (O44). -/

namespace Sys2Proof.Machine

/-! ### Whose turn it is, with no run in progress and for a command -/

theorem fetch_of_idle {s : State} (h : s.state = .idle) : fetch s = .idle := by
  simp [fetch, h]

theorem fetch_of_done {s : State} (h : s.state = .done) : fetch s = .done := by
  simp [fetch, h]

theorem hostMove_writeCtrl_of_command {v : Word32} {i : Instr} (s : State) (h : decodeCtrl v = .ok i) :
    hostMove (.writeCtrl v) s = .run i s := by
  simp [hostMove, h]

theorem step_of_due_command {s : State} {e : HostEvent} {rest : List HostEvent} {v : Word32} {i : Instr}
    (h : s.host = e :: rest) (hd : e.due s = true) (hm : e.move = .writeCtrl v) (hi : decodeCtrl v = .ok i) :
    step s = exec i { s with host := rest } := by
  rw [step_of_due h hd, hm, hostMove_writeCtrl_of_command _ hi]

/-! ### Words put together from fields -/

/-- The field on the left stands above the one on the right. -/
theorem toNat_append_eq_add {m n : Nat} (x : BitVec m) (y : BitVec n) : (x ++ y).toNat = 2 ^ n * x.toNat + y.toNat := by
  rw [BitVec.toNat_append, ← Nat.shiftLeft_add_eq_or_of_lt y.isLt, Nat.shiftLeft_eq, Nat.mul_comm]

theorem statusWord_toNat (s : State) (p : PhaseCode) :
    (s.statusWord p).toNat = s.state.bits.toNat + 4 * s.ok.toNat + 16 * (errBits s.err).toNat + 256 * p.toNat := by
  simp only [State.statusWord, toNat_append_eq_add, BitVec.toNat_ofBool, BitVec.ofNat_eq_ofNat, BitVec.toNat_ofNat]
  omega

theorem ctrlWord_toNat (s : State) : s.ctrlWord.toNat = 2 * s.ctrlOp.toNat := by
  simp only [State.ctrlWord, toNat_append_eq_add, BitVec.toNat_ofBool, BitVec.ofNat_eq_ofNat, BitVec.toNat_ofNat]
  omega

/-! ### What belongs to the host: no operation writes it -/

/-- IN, `IN_LEN`, the parameters, the host's pending moves and the answers it got are as before (rules R24, R26, R61). -/
structure InputFrame (s t : State) : Prop where
  inBuf : t.inBuf = s.inBuf
  inEpoch : t.inEpoch = s.inEpoch
  inLen : t.inLen = s.inLen
  cfg : t.cfg = s.cfg
  host : t.host = s.host
  replies : t.replies = s.replies

/-- `CTRL.OP` too, which only a START sets (rules R21, R210). -/
structure HostFrame (s t : State) : Prop extends InputFrame s t where
  ctrlOp : t.ctrlOp = s.ctrlOp

/-- The form in which the frames of the operations state it: `t` is `t` with the host's fields of `s`. -/
theorem HostFrame.of_eq {s t : State}
    (h : t = { t with inBuf := s.inBuf, inEpoch := s.inEpoch, inLen := s.inLen, cfg := s.cfg, host := s.host, replies := s.replies,
                      ctrlOp := s.ctrlOp }) : HostFrame s t := by
  rw [h]
  exact ⟨⟨rfl, rfl, rfl, rfl, rfl, rfl⟩, rfl⟩

theorem HostFrame.refl (s : State) : HostFrame s s := .of_eq rfl

theorem HostFrame.trans {s t u : State} (h1 : HostFrame s t) (h2 : HostFrame t u) : HostFrame s u where
  inBuf := h2.inBuf.trans h1.inBuf
  inEpoch := h2.inEpoch.trans h1.inEpoch
  inLen := h2.inLen.trans h1.inLen
  cfg := h2.cfg.trans h1.cfg
  host := h2.host.trans h1.host
  replies := h2.replies.trans h1.replies
  ctrlOp := h2.ctrlOp.trans h1.ctrlOp

theorem goto_hostFrame (s : State) (p : PhaseCode) : HostFrame s (s.goto p) := .of_eq rfl

theorem failureExit_hostFrame (s : State) (f : Failure) : HostFrame s (s.failureExit f) := .of_eq rfl

theorem successExit_hostFrame (s : State) : HostFrame s s.successExit := .of_eq rfl

theorem initWork_hostFrame (s : State) : HostFrame s (initWork s) := .of_eq rfl

theorem start_inputFrame (s : State) (op : Bool) : InputFrame s (s.start op) :=
  ⟨start_inBuf s op, start_inEpoch s op, start_inLen s op, start_cfg s op, start_host s op, start_replies s op⟩

theorem TableFrame.toHost {s t : State} (h : TableFrame s t) : HostFrame s t := .of_eq (by rw [h])
theorem ParseFrame.toHost {s t : State} (h : ParseFrame s t) : HostFrame s t := .of_eq (by rw [h])
theorem TreeFrame.toHost {s t : State} (h : TreeFrame s t) : HostFrame s t := .of_eq (by rw [h])
theorem PackFrame.toHost {s t : State} (h : PackFrame s t) : HostFrame s t := .of_eq (by rw [h])
theorem WalkFrame.toHost {s t : State} (h : WalkFrame s t) : HostFrame s t := .of_eq (by rw [h])

/-! ### The operations -/

theorem fcountOp_hostFrame (s : State) : (fcountOp s).Within (HostFrame s) := (fcountOp_frame s).mono fun _ h => h.toHost
theorem cparseOp_hostFrame (s : State) : (cparseOp s).Within (HostFrame s) := (cparseOp_frame s).mono fun _ h => h.toHost
theorem tseedOp_hostFrame (s : State) : (tseedOp s).Within (HostFrame s) := (tseedOp_frame s).mono fun _ h => h.toHost
theorem tmergeOp_hostFrame (s : State) : (tmergeOp s).Within (HostFrame s) := (tmergeOp_frame s).mono fun _ h => h.toHost
theorem packOp_hostFrame (s : State) : (packOp s).Within (HostFrame s) := (packOp_frame s).mono fun _ h => h.toHost
theorem putcodeOp_hostFrame (s : State) : (putcodeOp s).Within (HostFrame s) := (putcodeOp_frame s).mono fun _ h => h.toHost
theorem wbitOp_hostFrame (s : State) : (wbitOp s).Within (HostFrame s) := (wbitOp_frame s).mono fun _ h => h.toPack.toHost
theorem flushOp_hostFrame (s : State) : (flushOp s).Within (HostFrame s) := (flushOp_frame s).mono fun _ h => h.toPack.toHost
theorem dwalkOp_hostFrame (s : State) : (dwalkOp s).Within (HostFrame s) := (dwalkOp_frame s).mono fun _ h => h.toHost
theorem dstepOp_hostFrame (s : State) : (dstepOp s).Within (HostFrame s) := (dstepOp_frame s).mono fun _ h => h.toHost
theorem rbitOp_hostFrame (s : State) : (rbitOp s).Within (HostFrame s) := (rbitOp_frame s).mono fun _ h => .of_eq (by rw [h])
theorem cgenOp_hostFrame (s : State) : (cgenOp s).Within (HostFrame s) := (cgenOp_frame s).mono fun _ h => .of_eq (by rw [h])
theorem cencOp_hostFrame (s : State) : (cencOp s).Within (HostFrame s) := (cencOp_frame s).mono fun _ h => .of_eq (by rw [h])
theorem initOp_hostFrame (s : State) : (initOp s).Within (HostFrame s) :=
  (initOp_frame s).mono fun _ h => h ▸ initWork_hostFrame s

/-! ### The sequencer's moves -/

theorem afterInit_hostFrame (s : State) : (afterInit s).Within (HostFrame s) := by
  obtain ⟨-, h⟩ | ⟨-, -, h⟩ | ⟨-, -, h⟩ := afterInit_cases s <;> rw [h]
  · exact goto_hostFrame s _
  · exact HostFrame.refl s
  · exact goto_hostFrame s _

theorem afterQueue_hostFrame (s : State) : (afterQueue s).Within (HostFrame s) := by
  obtain ⟨-, h⟩ | ⟨r, -, h⟩ | ⟨-, h⟩ := afterQueue_cases s <;> rw [h]
  · exact within_stopped
  · exact .of_eq rfl
  · exact goto_hostFrame s _

theorem afterCodes_hostFrame (s : State) : (afterCodes s).Within (HostFrame s) := by
  obtain ⟨p, h, -⟩ | ⟨h, -⟩ := afterCodes_cases s <;> rw [h]
  · exact goto_hostFrame s p
  · exact HostFrame.refl s

theorem afterTable_hostFrame (s : State) : (afterTable s).Within (HostFrame s) := goto_hostFrame s _
theorem afterHeader_hostFrame (s : State) : (afterHeader s).Within (HostFrame s) := goto_hostFrame s _
theorem afterPack_hostFrame (s : State) : (afterPack s).Within (HostFrame s) := goto_hostFrame s _
theorem afterOutput_hostFrame (s : State) : (afterOutput s).Within (HostFrame s) := successExit_hostFrame s

/-! ### The meanings -/

theorem within_andThen_hostFrame {a : Flow} {b : State → Flow} {s : State} (ha : a.Within (HostFrame s))
    (hb : ∀ u, (b u).Within (HostFrame u)) : (a.andThen b).Within (HostFrame s) :=
  within_andThen ha (fun _ h => h) fun u hu => (hb u).mono fun _ h => hu.trans h

theorem within_nested_hostFrame {op : State → Flow} (hop : ∀ u, (op u).Within (HostFrame u)) (inner outer : PhaseCode) (s : State) :
    (nested inner outer op s).Within (HostFrame s) :=
  within_nested goto_hostFrame HostFrame.trans (hop _)

/-- Both ends of an operation, going on and the failure exit, keep what the operation keeps (rule R240). -/
theorem Flow.Within.hostFrame_of_outcome {a : Flow} {s t : State} (ha : a.Within (HostFrame s)) (h : a.outcome = .next t) :
    HostFrame s t := by
  obtain hok | ⟨f, u, hraised, rfl⟩ := outcome_eq_next.1 h
  · exact ha.of_ok hok
  · exact (ha.of_raised hraised).trans (failureExit_hostFrame u f)

theorem execDone_hostFrame {s t : State} (h : execDone s = .next t) : HostFrame s t := by
  unfold execDone at h
  split at h <;> cases h
  · exact successExit_hostFrame s
  · exact HostFrame.refl s

/-- Every operation but the two commands keeps the host's side of the state. -/
theorem exec_hostFrame {i : Instr} {s t : State} (hc : i ≠ .compress) (hd : i ≠ .decompress) (h : exec i s = .next t) :
    HostFrame s t := by
  cases i with
  | compress => exact absurd rfl hc
  | decompress => exact absurd rfl hd
  | idle => cases h; exact HostFrame.refl s
  | init => exact (within_andThen_hostFrame (initOp_hostFrame s) afterInit_hostFrame).hostFrame_of_outcome h
  | fcount => exact (within_andThen_hostFrame (within_withInput (fcountOp_hostFrame s)) afterTable_hostFrame).hostFrame_of_outcome h
  | cparse => exact (within_andThen_hostFrame (within_withInput (cparseOp_hostFrame s)) afterTable_hostFrame).hostFrame_of_outcome h
  | tseed => exact (within_andThen_hostFrame (tseedOp_hostFrame s) afterQueue_hostFrame).hostFrame_of_outcome h
  | tmerge => exact (within_andThen_hostFrame (tmergeOp_hostFrame s) afterQueue_hostFrame).hostFrame_of_outcome h
  | cgen => exact (within_andThen_hostFrame (cgenOp_hostFrame s) afterCodes_hostFrame).hostFrame_of_outcome h
  | cenc => exact (within_andThen_hostFrame (cencOp_hostFrame s) afterHeader_hostFrame).hostFrame_of_outcome h
  | pack => exact (within_andThen_hostFrame (within_withInput (packOp_hostFrame s)) afterPack_hostFrame).hostFrame_of_outcome h
  | putcode => exact (within_nested_hostFrame putcodeOp_hostFrame _ _ s).hostFrame_of_outcome h
  | wbit => exact (within_nested_hostFrame wbitOp_hostFrame _ _ s).hostFrame_of_outcome h
  | flush => exact (within_andThen_hostFrame (flushOp_hostFrame s) afterOutput_hostFrame).hostFrame_of_outcome h
  | dwalk => exact (within_andThen_hostFrame (within_withInput (dwalkOp_hostFrame s)) afterOutput_hostFrame).hostFrame_of_outcome h
  | dstep => exact (within_withInput (within_nested_hostFrame dstepOp_hostFrame _ _ s)).hostFrame_of_outcome h
  | rbit => exact (within_withInput (within_nested_hostFrame rbitOp_hostFrame _ _ s)).hostFrame_of_outcome h
  | done => exact execDone_hostFrame h

/-- Every instruction, the two commands included, keeps IN, `IN_LEN`, the parameters and the host's moves and answers. -/
theorem exec_inputFrame {i : Instr} {s t : State} (h : exec i s = .next t) : InputFrame s t := by
  by_cases hc : i = .compress
  · subst hc; cases h; exact start_inputFrame s false
  by_cases hd : i = .decompress
  · subst hd; cases h; exact start_inputFrame s true
  exact (exec_hostFrame hc hd h).toInputFrame

/-! ### The obligations -/

/-- Settles O5: at reset both buffers and the queue are empty, the accumulator is 0 and no run is in progress. -/
theorem resetMeetsInvariant : Obligations.ResetMeetsInvariant where
  inCanonical := List.Pairwise.nil
  outCanonical := List.Pairwise.nil
  queueIsSet := List.Pairwise.nil
  accumulatorClear := fun _ _ => BitVec.getLsbD_zero
  idlePhase := fun _ => rfl
  donePhase := nofun
  clearWhileRunning := fun _ => ⟨rfl, rfl⟩
  resultIsEither := nofun
  specifiedOutput := nofun
  outputListed := nofun

/-- Settles O6: the turn is the engine's unless a host move is due, and a due write of `CTRL` is the command its word decodes to. -/
theorem stepPerformsDecodedInstruction : Obligations.StepPerformsDecodedInstruction := by
  refine ⟨?busy, ?busyWaiting, ?idle, ?idleWaiting, ?done, ?doneWaiting, ?command⟩
  case busy => rintro s i hs hh rfl; rw [step_of_no_host hh, fetch_of_busy hs]
  case busyWaiting => rintro s e rest i hs hh hd rfl; rw [step_of_waiting hh hd, fetch_of_busy hs]
  case idle => intro s hs hh; rw [step_of_no_host hh, fetch_of_idle hs]
  case idleWaiting => intro s e rest hs hh hd; rw [step_of_waiting hh hd, fetch_of_idle hs]
  case done => intro s hs hh; rw [step_of_no_host hh, fetch_of_done hs]
  case doneWaiting => intro s e rest hs hh hd; rw [step_of_waiting hh hd, fetch_of_done hs]
  case command => intro s e rest v i hh hd hm hi; exact step_of_due_command hh hd hm hi

/-- Settles O11: each field is read off its place in the word; the numbers are the model's tables. -/
theorem statusAndCtrlLayout : Obligations.StatusAndCtrlLayout :=
  ⟨fun s p => ⟨statusWord_toNat s p, ctrlWord_toNat s⟩, rfl, rfl, rfl, rfl, rfl, rfl, rfl, rfl, rfl, rfl, rfl⟩

/-- Settles O44: the frames of the meanings, `exec_inputFrame` for every instruction and `exec_hostFrame` for all but the commands. -/
theorem engineNeverWritesItsInput : Obligations.EngineNeverWritesItsInput := by
  intro i s t h
  obtain ⟨hin, hepoch, hlen, hcfg, hhost, hrep⟩ := exec_inputFrame h
  exact ⟨hin, hepoch, hlen, hcfg, hhost, hrep, fun hc hd => (exec_hostFrame hc hd h).ctrlOp⟩

end Sys2Proof.Machine
end

section
/-! PROOFS of the family 20_memory.md: OUT is written front to back (O45), and the byte order of `MemRead` (O55). -/

namespace Sys2Proof.Machine

/-! ### OUT grows at its end: nothing before `OUT_LEN` is written or forgotten -/

/-- `OUT_LEN` is at least as large, and OUT lists before the old `OUT_LEN` what it listed (rule R65). Said of the listed bytes and
not of the bytes read, so that it needs no invariant: the success exit, which draws the unlisted bytes anew, keeps it too. -/
structure OutExtends (s t : State) : Prop where
  outLen_le : s.outLen ≤ t.outLen
  read?_eq : ∀ a < s.outLen, Memory.read? t.outBuf a = Memory.read? s.outBuf a

/-- What writes neither OUT nor `OUT_LEN` extends OUT. -/
theorem OutExtends.of_eq {s t : State} (hlen : t.outLen = s.outLen) (hbuf : t.outBuf = s.outBuf) : OutExtends s t :=
  ⟨hlen.ge, fun a _ => by rw [hbuf]⟩

theorem OutExtends.refl (s : State) : OutExtends s s := .of_eq rfl rfl

theorem OutExtends.trans {s t u : State} (h1 : OutExtends s t) (h2 : OutExtends t u) : OutExtends s u where
  outLen_le := h1.outLen_le.trans h2.outLen_le
  read?_eq a ha := (h2.read?_eq a (ha.trans_le h1.outLen_le)).trans (h1.read?_eq a ha)

/-- Where every byte before `OUT_LEN` is listed, as the invariant says, those bytes read as before. -/
theorem OutExtends.readOut_eq {s t : State} (h : OutExtends s t) {a : Nat} (ha : a < s.outLen)
    (hlisted : (Memory.read? s.outBuf a).isSome = true) : t.readOut a = s.readOut a := by
  obtain ⟨v, hv⟩ := Option.isSome_iff_exists.1 hlisted
  simp [State.readOut, h.read?_eq a ha, hv]

theorem goto_outExtends (s : State) (p : PhaseCode) : OutExtends s (s.goto p) := .of_eq rfl rfl

theorem start_outExtends (s : State) (op : Bool) : OutExtends s (s.start op) := .of_eq (start_outLen s op) (start_outBuf s op)

/-- The success exit forgets nothing before `OUT_LEN` (rules R27, R214). -/
theorem successExit_outExtends (s : State) : OutExtends s s.successExit :=
  ⟨le_rfl, fun _ ha => read?_below s.outBuf ha⟩

theorem TableFrame.outExtends {s t : State} (h : TableFrame s t) : OutExtends s t := .of_eq (by rw [h]) (by rw [h])
theorem ParseFrame.outExtends {s t : State} (h : ParseFrame s t) : OutExtends s t := .of_eq (by rw [h]) (by rw [h])
theorem TreeFrame.outExtends {s t : State} (h : TreeFrame s t) : OutExtends s t := .of_eq (by rw [h]) (by rw [h])

/-! ### Parts of an operation, one after the other -/

theorem within_andThen_outExtends {a : Flow} {b : State → Flow} {s : State} (ha : a.Within (OutExtends s))
    (hb : ∀ u, (b u).Within (OutExtends u)) : (a.andThen b).Within (OutExtends s) :=
  within_andThen ha (fun _ h => h) fun u hu => (hb u).mono fun _ h => hu.trans h

theorem within_nested_outExtends {op : State → Flow} (hop : ∀ u, (op u).Within (OutExtends u)) (inner outer : PhaseCode) (s : State) :
    (nested inner outer op s).Within (OutExtends s) :=
  within_nested goto_outExtends OutExtends.trans (hop _)

/-- Registers set before a part do not matter, as long as OUT and `OUT_LEN` are not among them. -/
theorem Flow.Within.outExtends_of_same_out {a : Flow} {s u : State} (ha : a.Within (OutExtends u)) (hlen : u.outLen = s.outLen)
    (hbuf : u.outBuf = s.outBuf) : a.Within (OutExtends s) :=
  ha.mono fun _ h => (OutExtends.of_eq hlen hbuf).trans h

/-! ### The operations that do not append -/

theorem fcountOp_outExtends (s : State) : (fcountOp s).Within (OutExtends s) := (fcountOp_frame s).mono fun _ h => h.outExtends
theorem cparseOp_outExtends (s : State) : (cparseOp s).Within (OutExtends s) := (cparseOp_frame s).mono fun _ h => h.outExtends
theorem tseedOp_outExtends (s : State) : (tseedOp s).Within (OutExtends s) := (tseedOp_frame s).mono fun _ h => h.outExtends
theorem tmergeOp_outExtends (s : State) : (tmergeOp s).Within (OutExtends s) := (tmergeOp_frame s).mono fun _ h => h.outExtends
theorem cgenOp_outExtends (s : State) : (cgenOp s).Within (OutExtends s) :=
  (cgenOp_frame s).mono fun _ h => .of_eq (by rw [h]) (by rw [h])
theorem rbitOp_outExtends (s : State) : (rbitOp s).Within (OutExtends s) :=
  (rbitOp_frame s).mono fun _ h => .of_eq (by rw [h]) (by rw [h])

/-! ### The operations that append -/

/-- `Append` writes from `OUT_LEN` on (rules R64, R65). -/
theorem append_outExtends (s : State) (bs : List Byte) : (s.append bs).Within (OutExtends s) := by
  by_cases h : s.cfg.outHolds (s.outLen + bs.length) = true
  · rw [append_of_holds h]
    exact ⟨Nat.le_add_right _ _, fun a ha => read?_writeBytes_outside s.outBuf bs (.inl ha)⟩
  · rw [State.append, if_neg h]
    exact within_stopped

theorem cencOp_outExtends (s : State) : (cencOp s).Within (OutExtends s) :=
  (append_outExtends { s with orig := s.inLen } _).outExtends_of_same_out rfl rfl

theorem wbitOp_outExtends (s : State) : (wbitOp s).Within (OutExtends s) := by
  unfold wbitOp
  dsimp only
  split
  · exact within_andThen_outExtends (append_outExtends s _) fun _ => .of_eq rfl rfl
  · exact .of_eq rfl rfl

theorem flushOp_outExtends (s : State) : (flushOp s).Within (OutExtends s) := by
  unfold flushOp
  split
  · exact OutExtends.refl s
  · exact within_andThen_outExtends (append_outExtends s _) fun _ => .of_eq rfl rfl

theorem putcodeOp_outExtends (s : State) : (putcodeOp s).Within (OutExtends s) := by
  refine within_each OutExtends.refl OutExtends.trans (fun k u => ?_) _ s
  exact (within_nested_outExtends wbitOp_outExtends _ _ { u with opBit := _ }).outExtends_of_same_out rfl rfl

theorem packByte_outExtends (s : State) : (packByte s).Within (OutExtends s) :=
  within_andThen_outExtends
    ((within_nested_outExtends putcodeOp_outExtends _ _ { s with opSym := _ }).outExtends_of_same_out rfl rfl)
    fun _ => .of_eq rfl rfl

theorem packLoop_outExtends (n : Nat) (s : State) : (packLoop n s).Within (OutExtends s) := by
  induction n generalizing s with
  | zero => exact OutExtends.refl s
  | succ n ih =>
    unfold packLoop; split
    · exact within_andThen_outExtends (packByte_outExtends s) ih
    · exact OutExtends.refl s

theorem packOp_outExtends (s : State) : (packOp s).Within (OutExtends s) :=
  (packLoop_outExtends _ { s with inPos := 0 }).outExtends_of_same_out rfl rfl

/-- A real leaf appends its symbol; nothing else that is reached writes OUT (rule R169). -/
theorem arrive_outExtends (s : State) (n : NodeIx) : (arrive s n).Within (OutExtends s) := by
  unfold arrive
  split
  · exact within_stopped
  · split
    · exact .of_eq rfl rfl
    · split
      · exact OutExtends.refl s
      · exact within_andThen_outExtends (append_outExtends s _) fun _ => .of_eq rfl rfl

theorem dstepOp_outExtends (s : State) : (dstepOp s).Within (OutExtends s) := by
  refine within_andThen_outExtends (within_nested_outExtends rbitOp_outExtends _ _ s) fun u => ?_
  split
  · exact OutExtends.refl u
  · split
    · exact within_stopped
    · exact arrive_outExtends u _

theorem dwalkLoop_outExtends (n : Nat) (s : State) : (dwalkLoop n s).Within (OutExtends s) := by
  induction n generalizing s with
  | zero => exact OutExtends.refl s
  | succ n ih =>
    unfold dwalkLoop; split
    · exact within_andThen_outExtends (within_nested_outExtends dstepOp_outExtends _ _ s) ih
    · exact OutExtends.refl s

theorem dwalkOp_outExtends (s : State) : (dwalkOp s).Within (OutExtends s) :=
  (dwalkLoop_outExtends _ { s with walkCur := s.root }).outExtends_of_same_out rfl rfl

/-! ### The sequencer's moves -/

theorem afterQueue_outExtends (s : State) : (afterQueue s).Within (OutExtends s) := by
  obtain ⟨-, h⟩ | ⟨r, -, h⟩ | ⟨-, h⟩ := afterQueue_cases s <;> rw [h]
  · exact within_stopped
  · exact .of_eq rfl rfl
  · exact goto_outExtends s _

theorem afterCodes_outExtends (s : State) : (afterCodes s).Within (OutExtends s) := by
  obtain ⟨p, h, -⟩ | ⟨h, -⟩ := afterCodes_cases s <;> rw [h]
  · exact goto_outExtends s p
  · exact OutExtends.refl s

theorem afterTable_outExtends (s : State) : (afterTable s).Within (OutExtends s) := goto_outExtends s _
theorem afterHeader_outExtends (s : State) : (afterHeader s).Within (OutExtends s) := goto_outExtends s _
theorem afterPack_outExtends (s : State) : (afterPack s).Within (OutExtends s) := goto_outExtends s _
theorem afterOutput_outExtends (s : State) : (afterOutput s).Within (OutExtends s) := successExit_outExtends s

/-! ### The meanings -/

/-- With `ERR` = 0 the operation went on: the failure exit, the one place where OUT is lost, sets `ERR` (rule R240). -/
theorem Flow.Within.outExtends_of_outcome {a : Flow} {s t : State} (ha : a.Within (OutExtends s)) (h : a.outcome = .next t)
    (herr : t.err = none) : OutExtends s t := by
  obtain hok | ⟨f, u, -, rfl⟩ := outcome_eq_next.1 h
  · exact ha.of_ok hok
  · cases herr

theorem execDone_outExtends {s t : State} (h : execDone s = .next t) : OutExtends s t := by
  unfold execDone at h
  split at h <;> cases h
  · exact successExit_outExtends s
  · exact OutExtends.refl s

/-- Every instruction but INIT that does not fail extends OUT; INIT sets `OUT_LEN` to 0 (rule R211). -/
theorem exec_outExtends {i : Instr} {s t : State} (hi : i ≠ .init) (h : exec i s = .next t) (herr : t.err = none) :
    OutExtends s t := by
  cases i with
  | compress => cases h; exact start_outExtends s false
  | decompress => cases h; exact start_outExtends s true
  | idle => cases h; exact OutExtends.refl s
  | init => exact absurd rfl hi
  | fcount =>
    exact (within_andThen_outExtends (within_withInput (fcountOp_outExtends s)) afterTable_outExtends).outExtends_of_outcome h herr
  | cparse =>
    exact (within_andThen_outExtends (within_withInput (cparseOp_outExtends s)) afterTable_outExtends).outExtends_of_outcome h herr
  | tseed => exact (within_andThen_outExtends (tseedOp_outExtends s) afterQueue_outExtends).outExtends_of_outcome h herr
  | tmerge => exact (within_andThen_outExtends (tmergeOp_outExtends s) afterQueue_outExtends).outExtends_of_outcome h herr
  | cgen => exact (within_andThen_outExtends (cgenOp_outExtends s) afterCodes_outExtends).outExtends_of_outcome h herr
  | cenc => exact (within_andThen_outExtends (cencOp_outExtends s) afterHeader_outExtends).outExtends_of_outcome h herr
  | pack =>
    exact (within_andThen_outExtends (within_withInput (packOp_outExtends s)) afterPack_outExtends).outExtends_of_outcome h herr
  | putcode => exact (within_nested_outExtends putcodeOp_outExtends _ _ s).outExtends_of_outcome h herr
  | wbit => exact (within_nested_outExtends wbitOp_outExtends _ _ s).outExtends_of_outcome h herr
  | flush => exact (within_andThen_outExtends (flushOp_outExtends s) afterOutput_outExtends).outExtends_of_outcome h herr
  | dwalk =>
    exact (within_andThen_outExtends (within_withInput (dwalkOp_outExtends s)) afterOutput_outExtends).outExtends_of_outcome h herr
  | dstep => exact (within_withInput (within_nested_outExtends dstepOp_outExtends _ _ s)).outExtends_of_outcome h herr
  | rbit => exact (within_withInput (within_nested_outExtends rbitOp_outExtends _ _ s)).outExtends_of_outcome h herr
  | done => exact execDone_outExtends h

/-! ### `MemRead` -/

@[simp] theorem memRead_zero (s : State) (a : Nat) : s.memRead a 0 = 0 := rfl

/-- The byte at the lowest address is bits 7:0, the rest is what stands above it (rule R66). -/
theorem memRead_succ (s : State) (a n : Nat) : s.memRead a (n + 1) = (s.readIn a).toNat + 2 ^ 8 * s.memRead (a + 1) n := rfl

theorem memRead_eq_sum (s : State) (a n : Nat) :
    s.memRead a n = ((List.range n).map fun j => (s.readIn (a + j)).toNat * 2 ^ (8 * j)).sum := by
  induction n generalizing a with
  | zero => rfl
  | succ n ih =>
    have hshift : ∀ j, 2 ^ 8 * ((s.readIn (a + 1 + j)).toNat * 2 ^ (8 * j)) = (s.readIn (a + (j + 1))).toNat * 2 ^ (8 * (j + 1)) :=
      fun j => by rw [show a + 1 + j = a + (j + 1) by omega, Nat.mul_succ, pow_add]; ring
    rw [memRead_succ, ih, ← List.sum_map_mul_left, List.range_succ_eq_map, List.map_cons, List.map_map, List.sum_cons]
    simp only [hshift, Function.comp_def, Nat.succ_eq_add_one, Nat.add_zero, Nat.mul_zero, pow_zero, Nat.mul_one]

/-! ### The obligations -/

/-- Settles O45: `exec_outExtends`, and by the invariant every byte before `OUT_LEN` is listed. -/
theorem outputIsOnlyAppended : Obligations.OutputIsOnlyAppended := by
  intro i s t hinv hi h herr
  have hext := exec_outExtends hi h herr
  exact ⟨hext.outLen_le, fun a ha => hext.readOut_eq ha (hinv.outputListed a ha)⟩

/-- Settles O55, by induction on the number of bytes. -/
theorem memReadIsLittleEndian : Obligations.MemReadIsLittleEndian := memRead_eq_sum

end Sys2Proof.Machine
end

section
/-! PROOFS of the family 30_encoding.md: the decoder of instructions (O1, O2, O3), and that DWALK never looks past the last bit it
needs (O42). -/

namespace Sys2Proof

/-! ### The instruction decoder -/

/-- Every instruction's encoding decodes to it (rules R100, R101). -/
theorem decode_encode (i : Instr) : decode (encode i) = .ok i := by
  cases i with
  | compress => exact Laws.RoundTrip.compress
  | decompress => exact Laws.RoundTrip.decompress
  | idle => exact Laws.RoundTrip.idle
  | init => exact Laws.RoundTrip.init
  | fcount => exact Laws.RoundTrip.fcount
  | cparse => exact Laws.RoundTrip.cparse
  | tseed => exact Laws.RoundTrip.tseed
  | tmerge => exact Laws.RoundTrip.tmerge
  | cgen => exact Laws.RoundTrip.cgen
  | cenc => exact Laws.RoundTrip.cenc
  | pack => exact Laws.RoundTrip.pack
  | putcode => exact Laws.RoundTrip.putcode
  | wbit => exact Laws.RoundTrip.wbit
  | flush => exact Laws.RoundTrip.flush
  | dwalk => exact Laws.RoundTrip.dwalk
  | dstep => exact Laws.RoundTrip.dstep
  | rbit => exact Laws.RoundTrip.rbit
  | done => exact Laws.RoundTrip.done

/-- Only a write with `START` = 1 is a command (rule R100). -/
theorem start_of_decodeCtrl_eq_ok {v : Word32} {i : Instr} (h : decodeCtrl v = .ok i) : v.getLsbD 0 = true := by
  by_contra hstart
  rw [decodeCtrl, if_neg hstart] at h
  cases h

/-- Bit 0 of a word stands in the byte at its lowest address (rule R66). -/
theorem getLsbD_zero_wordOfBytes (b0 b1 b2 b3 : Byte) : (wordOfBytes b0 b1 b2 b3).getLsbD 0 = b0.getLsbD 0 := by
  rw [wordOfBytes, BitVec.getLsbD_append, if_pos (by decide)]

/-- What decodes is a `PHASE` code in one byte or a `CTRL` write that starts a command (rules R100, R101). -/
theorem wfBytes_of_decode_eq_ok {bs : List Byte} {i : Instr} (h : decode bs = .ok i) : wfBytes bs = true := by
  unfold decode at h
  split at h
  next c =>
    split at h
    next hlt => simpa [wfBytes] using hlt
    next => cases h
  next b0 b1 b2 b3 =>
    have hstart := start_of_decodeCtrl_eq_ok h
    rwa [getLsbD_zero_wordOfBytes] at hstart
  next => cases h

/-- The command is a matter of the two low bits of the word's number (rules R21, R100). -/
theorem decodeCtrl_eq_of_mod (v : Word32) : decodeCtrl v =
    if v.toNat % 4 = 1 then .ok .compress else if v.toNat % 4 = 3 then .ok .decompress else .error .startsNothing := by
  have hstart : v.getLsbD 0 = decide (v.toNat % 2 = 1) := Nat.testBit_zero _
  have hop : v.getLsbD 1 = decide (v.toNat / 2 % 2 = 1) := by rw [BitVec.getLsbD, Nat.testBit_succ, Nat.testBit_zero]
  have hmod : v.toNat % 4 = v.toNat % 2 + 2 * (v.toNat / 2 % 2) := by omega
  unfold decodeCtrl
  rw [hstart, hop, hmod]
  rcases Nat.mod_two_eq_zero_or_one v.toNat with h0 | h0 <;>
    rcases Nat.mod_two_eq_zero_or_one (v.toNat / 2) with h1 | h1 <;> simp [h0, h1]

end Sys2Proof

namespace Sys2Proof.Machine

/-! ### The bit reader's position in the bitstream -/

/-- The number of the bit the bit reader stands at, in stream order (rules R40, R67). -/
def State.bitPos (s : State) : Nat := 8 * s.brPos.toNat + s.brCur.toNat

theorem bitsLeft_eq (s : State) : s.bitsLeft = 8 * s.inLen.toNat - s.bitPos := by
  unfold State.bitsLeft State.bitPos
  omega

theorem exhausted_eq_false_iff {s : State} : s.exhausted = false ↔ s.bitPos < 8 * s.inLen.toNat := by
  have hcur := s.brCur.isLt
  unfold State.exhausted State.bitPos
  rw [decide_eq_false_iff_not]
  omega

/-! ### What RBIT, DSTEP and DWALK do when they go on -/

/-- The state after the next bit is read (rule R165). -/
def State.bitRead (s : State) : State :=
  { s with rbitVal := some s.streamBit, brCur := s.brCur + 1, brPos := if s.brCur = 7 then s.brPos + 1 else s.brPos }

theorem rbitOp_of_exhausted {s : State} (h : s.exhausted = true) : rbitOp s = .ok { s with rbitVal := none } := by
  simp [rbitOp, h]

theorem rbitOp_of_not_exhausted {s : State} (h : s.exhausted = false) : rbitOp s = .ok s.bitRead := by
  unfold rbitOp State.bitRead
  rw [h, if_neg Bool.false_ne_true]
  split
  next h7 => simp [h7]
  next => rfl

@[simp] theorem bitRead_rbitVal (s : State) : s.bitRead.rbitVal = some s.streamBit := rfl
@[simp] theorem bitRead_walkCur (s : State) : s.bitRead.walkCur = s.walkCur := rfl
@[simp] theorem bitRead_nodeAt? (s : State) (i : NodeIx) : s.bitRead.nodeAt? i = s.nodeAt? i := rfl
@[simp] theorem goto_nodeAt? (s : State) (p : PhaseCode) (i : NodeIx) : (s.goto p).nodeAt? i = s.nodeAt? i := rfl

/-- RBIT as DSTEP performs it (rule R217). -/
theorem nested_rbitOp_of_exhausted {s : State} (h : s.exhausted = true) :
    nested Phase.rbit Phase.dstep rbitOp s = .ok ({ s with rbitVal := none }.goto Phase.dstep) :=
  nested_eq_ok.2 ⟨_, rbitOp_of_exhausted (s := s.goto Phase.rbit) h, rfl⟩

theorem nested_rbitOp_of_not_exhausted {s : State} (h : s.exhausted = false) :
    nested Phase.rbit Phase.dstep rbitOp s = .ok (s.bitRead.goto Phase.dstep) :=
  nested_eq_ok.2 ⟨_, rbitOp_of_not_exhausted (s := s.goto Phase.rbit) h, rfl⟩

/-- Reading a bit moves by one bit. Where there is a bit, `BR.POS` is below `IN_LEN`, so that it does not wrap. -/
theorem bitPos_bitRead {s : State} (h : s.exhausted = false) : s.bitRead.bitPos = s.bitPos + 1 := by
  have hpos : s.brPos.toNat < s.inLen.toNat := by simpa [State.exhausted] using h
  have hlen := s.inLen.isLt
  have hcur := s.brCur.isLt
  unfold State.bitRead State.bitPos
  dsimp only
  split
  next h7 =>
    simp only [h7, BitVec.ofNat_eq_ofNat, BitVec.toNat_add, BitVec.toNat_ofNat]
    omega
  next h7 =>
    have h7' : s.brCur.toNat ≠ 7 := fun e => h7 (BitVec.eq_of_toNat_eq e)
    simp only [BitVec.ofNat_eq_ofNat, BitVec.toNat_add, BitVec.toNat_ofNat]
    omega

/-- The walk goes on from an internal node, and from a real leaf with room for its symbol (rules R167, R169). -/
theorem arrive_eq_ok {s t : State} {n : NodeIx} : arrive s n = .ok t ↔ ∃ x, s.nodeAt? n = some x ∧
    ((x.kind = .internal ∧ t = { s with walkCur := n }) ∨
     (x.kind = .leaf ∧ x.ph = false ∧ ∃ u, s.append [x.sym] = .ok u ∧
       t = { u with emitted := u.emitted + 1, walkCur := u.root })) := by
  constructor
  · intro h
    unfold arrive at h
    split at h
    next => cases h
    next x hx =>
      split at h
      next hk => exact ⟨x, hx, .inl ⟨hk, (Flow.ok.inj h).symm⟩⟩
      next hk =>
        split at h
        next => cases h
        next hp =>
          obtain ⟨u, hu, ht⟩ := andThen_eq_ok.1 h
          exact ⟨x, hx, .inr ⟨hk, Bool.eq_false_iff.2 hp, u, hu, (Flow.ok.inj ht).symm⟩⟩
  · rintro ⟨x, hx, ⟨hk, rfl⟩ | ⟨hk, hp, u, hu, rfl⟩⟩
    · simp [arrive, hx, hk]
    · simp [arrive, hx, hk, hp, hu]

theorem bitPos_of_arrive {s t : State} {n : NodeIx} (h : arrive s n = .ok t) : t.bitPos = s.bitPos := by
  obtain ⟨x, -, ⟨-, rfl⟩ | ⟨-, -, u, hu, rfl⟩⟩ := arrive_eq_ok.1 h
  · rfl
  · obtain ⟨-, rfl⟩ := append_eq_ok.1 hu
    rfl

/-- DSTEP goes on where there is a bit, and the child it selects lets the walk go on (rule R167). -/
theorem dstepOp_eq_ok {s t : State} : dstepOp s = .ok t ↔ s.exhausted = false ∧
    ∃ c, s.nodeAt? s.walkCur = some c ∧ arrive (s.bitRead.goto Phase.dstep) (c.child s.streamBit) = .ok t := by
  unfold dstepOp
  cases he : s.exhausted with
  | true => rw [nested_rbitOp_of_exhausted he]; simp
  | false =>
    rw [nested_rbitOp_of_not_exhausted he]
    cases hc : s.nodeAt? s.walkCur <;> simp [hc]

theorem bitPos_of_dstepOp {s t : State} (h : dstepOp s = .ok t) : t.bitPos = s.bitPos + 1 := by
  obtain ⟨hbit, c, -, harrive⟩ := dstepOp_eq_ok.1 h
  rw [bitPos_of_arrive harrive, ← bitPos_bitRead hbit]
  rfl

/-- DSTEP as DWALK performs it. -/
abbrev walkTurn : State → Flow := nested Phase.dstep Phase.dwalk dstepOp

theorem bitPos_of_walkTurn {s t : State} (h : walkTurn s = .ok t) : t.bitPos = s.bitPos + 1 := by
  obtain ⟨u, hu, rfl⟩ := nested_eq_ok.1 h
  exact (bitPos_of_dstepOp hu :)

theorem inputFrame_of_walkTurn {s t : State} (h : walkTurn s = .ok t) : InputFrame s t :=
  ((within_nested_hostFrame dstepOp_hostFrame _ _ s).of_ok h).toInputFrame

/-- A turn takes one of the bits that are left (rule R170). -/
theorem bitsLeft_of_walkTurn {s t : State} (h : walkTurn s = .ok t) : t.bitsLeft + 1 = s.bitsLeft := by
  obtain ⟨u, hu, -⟩ := nested_eq_ok.1 h
  have hbit : s.bitPos < 8 * s.inLen.toNat := exhausted_eq_false_iff.1 (dstepOp_eq_ok.1 hu).1
  rw [bitsLeft_eq, bitsLeft_eq, bitPos_of_walkTurn h, (inputFrame_of_walkTurn h).inLen]
  omega

theorem dwalkLoop_succ_of_lt {n : Nat} {s : State} (h : s.emitted < s.orig) :
    dwalkLoop (n + 1) s = (walkTurn s).andThen (dwalkLoop n) := if_pos h

theorem dwalkLoop_succ_of_not_lt {n : Nat} {s : State} (h : ¬ s.emitted < s.orig) : dwalkLoop (n + 1) s = .ok s := if_neg h

theorem bitPos_le_of_dwalkLoop {n : Nat} {s t : State} (h : dwalkLoop n s = .ok t) : s.bitPos ≤ t.bitPos := by
  induction n generalizing s with
  | zero => cases h; exact le_rfl
  | succ n ih =>
    by_cases hlt : s.emitted < s.orig
    · rw [dwalkLoop_succ_of_lt hlt, andThen_eq_ok] at h
      obtain ⟨u, hturn, hrest⟩ := h
      have hpos := bitPos_of_walkTurn hturn
      have hle := ih hrest
      omega
    · rw [dwalkLoop_succ_of_not_lt hlt] at h
      cases h; exact le_rfl

/-- A successful DWALK is the walk, then the success exit (rules R214, R215): the failure exit leaves `OK` = 0. -/
theorem exec_dwalk_succeeds_iff {s t : State} : exec .dwalk s = .next t ∧ t.ok = true ↔
    s.inputFits = true ∧ ∃ u, dwalkOp s = .ok u ∧ t = u.successExit := by
  simp only [exec, execDwalk, afterOutput, outcome_eq_next, andThen_eq_ok, withInput_eq_ok, Flow.ok.injEq]
  constructor
  · rintro ⟨⟨u, ⟨hfits, hwalk⟩, rfl⟩ | ⟨f, u, -, rfl⟩, hok⟩
    · exact ⟨hfits, u, hwalk, rfl⟩
    · cases hok
  · rintro ⟨hfits, u, hwalk, rfl⟩
    exact ⟨.inl ⟨u, ⟨hfits, hwalk⟩, rfl⟩, rfl⟩

/-! ### The same walk over another input -/

/-- `s` with the input of `v`: its bytes of IN and its `IN_LEN`. -/
def State.withInputOf (s v : State) : State := { s with inBuf := v.inBuf, inLen := v.inLen, inEpoch := v.inEpoch }

/-- The input of `v` reaches past the first `p` bits of IN, and they are the same as in `s`. -/
structure SameBitsBelow (p : Nat) (s v : State) : Prop where
  le_length : p ≤ 8 * v.inLen.toNat
  getLsbD_eq : ∀ a, ∀ k < 8, 8 * a + k < p → (v.readIn a).getLsbD k = (s.readIn a).getLsbD k

theorem SameBitsBelow.mono {p q : Nat} {s v : State} (h : SameBitsBelow q s v) (hpq : p ≤ q) : SameBitsBelow p s v where
  le_length := hpq.trans h.le_length
  getLsbD_eq a k hk hlt := h.getLsbD_eq a k hk (hlt.trans_le hpq)

/-- The engine does not write its input, so what is the same stays the same. -/
theorem SameBitsBelow.of_inputFrame {p : Nat} {s t v : State} (h : SameBitsBelow p s v) (hf : InputFrame s t) :
    SameBitsBelow p t v where
  le_length := h.le_length
  getLsbD_eq a k hk hlt := by rw [readIn_congr hf.inBuf hf.inEpoch, h.getLsbD_eq a k hk hlt]

section
variable {s t v : State}

/-- The next bit is there in the other input too. -/
theorem withInputOf_not_exhausted (h : SameBitsBelow (s.bitPos + 1) s v) : (s.withInputOf v).exhausted = false :=
  exhausted_eq_false_iff.2 h.le_length

theorem withInputOf_streamBit (h : SameBitsBelow (s.bitPos + 1) s v) : (s.withInputOf v).streamBit = s.streamBit :=
  h.getLsbD_eq _ _ s.brCur.isLt (Nat.lt_succ_self _)

theorem withInputOf_bitRead (h : SameBitsBelow (s.bitPos + 1) s v) :
    (s.withInputOf v).bitRead = s.bitRead.withInputOf v := by
  unfold State.bitRead
  rw [withInputOf_streamBit h]
  rfl

/-- Arriving at a node reads nothing of IN. -/
theorem arrive_withInputOf {n : NodeIx} (v : State) (h : arrive s n = .ok t) :
    arrive (s.withInputOf v) n = .ok (t.withInputOf v) := by
  obtain ⟨x, hx, ⟨hk, rfl⟩ | ⟨hk, hp, u, hu, rfl⟩⟩ := arrive_eq_ok.1 h
  · exact arrive_eq_ok.2 ⟨x, hx, .inl ⟨hk, rfl⟩⟩
  · obtain ⟨hroom, rfl⟩ := append_eq_ok.1 hu
    exact arrive_eq_ok.2 ⟨x, hx, .inr ⟨hk, hp, _, append_of_holds hroom, rfl⟩⟩

/-- DSTEP reads one bit of IN and nothing else of it. -/
theorem dstepOp_withInputOf (h : dstepOp s = .ok t) (hv : SameBitsBelow (s.bitPos + 1) s v) :
    dstepOp (s.withInputOf v) = .ok (t.withInputOf v) := by
  obtain ⟨-, c, hc, harrive⟩ := dstepOp_eq_ok.1 h
  refine dstepOp_eq_ok.2 ⟨withInputOf_not_exhausted hv, c, hc, ?_⟩
  rw [withInputOf_streamBit hv, withInputOf_bitRead hv]
  exact arrive_withInputOf v harrive

theorem walkTurn_withInputOf (h : walkTurn s = .ok t) (hv : SameBitsBelow (s.bitPos + 1) s v) :
    walkTurn (s.withInputOf v) = .ok (t.withInputOf v) := by
  obtain ⟨u, hu, rfl⟩ := nested_eq_ok.1 h
  exact nested_eq_ok.2 ⟨_, (dstepOp_withInputOf hu (hv.of_inputFrame (goto_hostFrame s _).toInputFrame) :), rfl⟩

end

/-- With the bits the walk reads the same, both walks take the same turns. Each has its own bound on the turns, which its own bits
keep it from reaching: so both end because `ORIG` symbols are out. -/
theorem dwalkLoop_withInputOf {n m : Nat} {s t v : State} (h : dwalkLoop n s = .ok t) (hn : s.bitsLeft < n)
    (hm : (s.withInputOf v).bitsLeft < m) (hv : SameBitsBelow t.bitPos s v) :
    dwalkLoop m (s.withInputOf v) = .ok (t.withInputOf v) := by
  induction n generalizing s m with
  | zero => omega
  | succ n ih =>
    obtain ⟨m, rfl⟩ : ∃ m', m = m' + 1 := ⟨m - 1, by omega⟩
    by_cases hlt : s.emitted < s.orig
    · rw [dwalkLoop_succ_of_lt hlt, andThen_eq_ok] at h
      obtain ⟨u, hturn, hrest⟩ := h
      have hpos : s.bitPos + 1 ≤ t.bitPos := bitPos_of_walkTurn hturn ▸ bitPos_le_of_dwalkLoop hrest
      have hturn' := walkTurn_withInputOf hturn (hv.mono hpos)
      have hleft := bitsLeft_of_walkTurn hturn
      have hleft' := bitsLeft_of_walkTurn hturn'
      rw [dwalkLoop_succ_of_lt (s := s.withInputOf v) hlt, hturn', andThen_ok]
      exact ih hrest (by omega) (by omega) (hv.of_inputFrame (inputFrame_of_walkTurn hturn))
    · rw [dwalkLoop_succ_of_not_lt hlt] at h
      cases h
      exact dwalkLoop_succ_of_not_lt hlt

/-- DWALK's turns are bounded by the bits left, one more than there are (rule R170). -/
theorem dwalkOp_withInputOf {s t v : State} (h : dwalkOp s = .ok t) (hv : SameBitsBelow t.bitPos s v) :
    dwalkOp (s.withInputOf v) = .ok (t.withInputOf v) :=
  dwalkLoop_withInputOf (s := { s with walkCur := s.root }) h (Nat.lt_succ_self _) (Nat.lt_succ_self _) ⟨hv.le_length, hv.getLsbD_eq⟩

/-! ### The obligations -/

/-- Settles O1: the byte forms are the encodings of the eighteen instructions; the last two words are refused by evaluation. -/
theorem tableWordsDecode : Obligations.TableWordsDecode :=
  ⟨decode_encode .idle, decode_encode .init, decode_encode .fcount, decode_encode .cparse, decode_encode .tseed,
    decode_encode .tmerge, decode_encode .cgen, decode_encode .cenc, decode_encode .pack, decode_encode .putcode,
    decode_encode .wbit, decode_encode .flush, decode_encode .dwalk, decode_encode .dstep, decode_encode .rbit,
    decode_encode .done, decode_encode .compress, decode_encode .decompress, rfl, rfl⟩

/-- Settles O2: `decodeCtrl_eq_of_mod`, by the four values of bits 1:0. -/
theorem ctrlWordSelectsCommand : Obligations.CtrlWordSelectsCommand := decodeCtrl_eq_of_mod

/-- Settles O3: the round trip by cases on the instruction; the encoding is well-formed because it decodes. -/
theorem decodeInvertsEncode : Obligations.DecodeInvertsEncode :=
  ⟨fun i _ => ⟨decode_encode i, wfBytes_of_decode_eq_ok (decode_encode i)⟩, fun _ _ => wfBytes_of_decode_eq_ok⟩

/-- Settles O42: the walk over the other input takes the same turns (`dwalkLoop_withInputOf`, by induction on the turns), and the
success exit reads nothing of IN. -/
theorem decoderNeverLooksPastItsLastBit : Obligations.DecoderNeverLooksPastItsLastBit := by
  intro s s' t hs' hexec hok hfits hlen hbits
  obtain ⟨-, u, hwalk, rfl⟩ := exec_dwalk_succeeds_iff.1 ⟨hexec, hok⟩
  have hs : s' = s.withInputOf s' := hs'
  have hwalk' := dwalkOp_withInputOf hwalk (v := s') ⟨hlen, hbits⟩
  rw [← hs] at hwalk'
  obtain ⟨hexec', hok'⟩ := exec_dwalk_succeeds_iff.2 ⟨hfits, _, hwalk', rfl⟩
  exact ⟨_, hexec', hok', rfl, rfl⟩

end Sys2Proof.Machine
end

section
/-! PROOFS of the family 40_frequency_counter.md: FCOUNT tallies the input (O20). -/

namespace Sys2Proof.Machine

/-! ### The 256 symbols and the keys -/

theorem mem_allSymbols (sym : Byte) : sym ∈ allSymbols :=
  List.mem_map.2 ⟨sym.toNat, List.mem_range.2 sym.isLt, by simp⟩

theorem nodup_allSymbols : allSymbols.Nodup := by
  refine List.Nodup.map_on (fun i hi j hj h => ?_) List.nodup_range
  have hmod : i % 256 = j % 256 := by simpa using congrArg BitVec.toNat h
  rwa [Nat.mod_eq_of_lt (List.mem_range.1 hi), Nat.mod_eq_of_lt (List.mem_range.1 hj)] at hmod

theorem mem_keys {s : State} {sym : Byte} : sym ∈ s.keys ↔ s.isKey sym = true := by
  simp [State.keys, mem_allSymbols]

theorem nodup_keys (s : State) : s.keys.Nodup := nodup_allSymbols.filter _

/-- A table whose keys are the symbols of a byte sequence has as many keys as the sequence has distinct symbols (rule R17). -/
theorem length_keys_eq {s : State} {bs : List Byte} (h : ∀ sym, s.isKey sym = true ↔ sym ∈ bs) :
    s.keys.length = bs.dedup.length :=
  List.Perm.length_eq <| (List.perm_ext_iff_of_nodup (nodup_keys s) (List.nodup_dedup bs)).2 fun sym => by
    rw [mem_keys, h, List.mem_dedup]

theorem length_keys_le (s : State) : s.keys.length ≤ 256 :=
  (List.length_filter_le _ _).trans_eq (by rw [allSymbols, List.length_map, List.length_range])

/-- Every byte of a sequence is one of the 256 symbols, so the counts of the symbols add up to its length. -/
theorem sum_count_allSymbols (bs : List Byte) : (allSymbols.map fun sym => bs.count sym).sum = bs.length := by
  rw [← List.sum_toFinset _ nodup_allSymbols]
  simp only [← Multiset.coe_count]
  exact Multiset.sum_count_eq_card fun sym _ => List.mem_toFinset.2 (mem_allSymbols sym)

/-! ### The table after a write of an entry -/

theorem freqOf_setFreq (s : State) (sym : Byte) (v : Word64) (k : Byte) :
    (s.setFreq sym v).freqOf k = if sym = k then v else s.freqOf k := by
  simp [State.freqOf, Vector.getElem_set, BitVec.toNat_inj]

@[simp] theorem isKey_setFreq (s : State) (sym : Byte) (v : Word64) (k : Byte) : (s.setFreq sym v).isKey k = s.isKey k := rfl

@[simp] theorem freqOf_markKey (s : State) (sym k : Byte) : (s.markKey sym).freqOf k = s.freqOf k := by
  simp [State.freqOf]

theorem markKey_of_isKey {s : State} {sym : Byte} (h : s.isKey sym = true) : s.markKey sym = s := if_pos h

theorem markKey_m_of_not_isKey {s : State} {sym : Byte} (h : ¬ s.isKey sym = true) : (s.markKey sym).m = s.m + 1 := by
  rw [State.markKey, if_neg h]

theorem isKey_markKey {s : State} {sym k : Byte} : (s.markKey sym).isKey k = true ↔ k = sym ∨ s.isKey k = true := by
  by_cases hsym : s.isKey sym = true
  · rw [markKey_of_isKey hsym]
    exact (or_iff_right_of_imp fun h => h ▸ hsym).symm
  · rw [State.markKey, if_neg hsym]
    simp [State.isKey, Vector.getElem_set, BitVec.toNat_inj, @eq_comm _ k sym]

/-! ### The table that tallies a byte sequence -/

/-- The frequency table is the tally of a byte sequence (rule R111), its numbers cut to the widths of `FREQ` and `M`: so every
byte counted keeps it, whatever the length. -/
structure State.Tallies (s : State) (bs : List Byte) : Prop where
  freqOf_eq : ∀ sym, s.freqOf sym = BitVec.ofNat 64 (bs.count sym)
  isKey_iff : ∀ sym, s.isKey sym = true ↔ sym ∈ bs
  m_eq : s.m = BitVec.ofNat 9 bs.dedup.length

/-- A clear table tallies the empty sequence, wherever `IN_POS` stands. -/
theorem State.TableClear.tallies_nil {s : State} (h : s.TableClear) (p : Word64) : ({ s with inPos := p } : State).Tallies [] where
  freqOf_eq sym := (h.2 sym).2
  isKey_iff sym := iff_of_false (ne_true_of_eq_false (h.2 sym).1) List.not_mem_nil
  m_eq := h.1

section
variable {s : State} {bs cs : List Byte}

/-- A tally does not depend on the order of the bytes. -/
theorem State.Tallies.perm (h : s.Tallies bs) (hp : bs.Perm cs) : s.Tallies cs where
  freqOf_eq sym := by rw [← hp.count_eq, h.freqOf_eq]
  isKey_iff sym := by rw [h.isKey_iff, hp.mem_iff]
  m_eq := by rw [h.m_eq, hp.dedup.length_eq]

theorem State.Tallies.toNat_freqOf (h : s.Tallies bs) (hlen : bs.length < 2 ^ 64) (sym : Byte) :
    (s.freqOf sym).toNat = bs.count sym := by
  rw [h.freqOf_eq, BitVec.toNat_ofNat, Nat.mod_eq_of_lt (List.count_le_length.trans_lt hlen)]

theorem State.Tallies.length_keys (h : s.Tallies bs) : s.keys.length = bs.dedup.length := length_keys_eq h.isKey_iff

/-- There are at most 256 distinct bytes, and `M` has 9 bits (rule R32). -/
theorem State.Tallies.toNat_m (h : s.Tallies bs) : s.m.toNat = bs.dedup.length := by
  have hle : bs.dedup.length ≤ 256 := h.length_keys ▸ length_keys_le s
  rw [h.m_eq, BitVec.toNat_ofNat, Nat.mod_eq_of_lt (by omega)]

/-! ### FCOUNT's loop -/

theorem countByte_isKey_iff (s : State) (k : Byte) :
    (countByte s).isKey k = true ↔ k = s.readIn s.inPos.toNat ∨ s.isKey k = true := isKey_markKey

theorem countByte_freqOf (s : State) (k : Byte) :
    (countByte s).freqOf k = if s.readIn s.inPos.toNat = k then s.freqOf k + 1 else s.freqOf k := by
  refine (freqOf_setFreq _ _ _ k).trans ?_
  split
  next h => rw [h, freqOf_markKey]
  next => rw [freqOf_markKey]

theorem countByte_m (s : State) : (countByte s).m = (s.markKey (s.readIn s.inPos.toNat)).m := rfl

/-- One turn adds the byte at `IN_POS` to the tally. -/
theorem State.Tallies.countByte (h : s.Tallies bs) : (countByte s).Tallies (s.readIn s.inPos.toNat :: bs) where
  freqOf_eq sym := by
    rw [countByte_freqOf, h.freqOf_eq, List.count_cons]
    split
    next heq => simp [heq, BitVec.ofNat_add]
    next hne => simp [hne]
  isKey_iff sym := by rw [countByte_isKey_iff, h.isKey_iff, List.mem_cons]
  m_eq := by
    rw [countByte_m]
    by_cases hmem : s.readIn s.inPos.toNat ∈ bs
    · rw [markKey_of_isKey ((h.isKey_iff _).2 hmem), h.m_eq, List.dedup_cons_of_mem hmem]
    · rw [markKey_m_of_not_isKey (mt (h.isKey_iff _).1 hmem), h.m_eq, List.dedup_cons_of_notMem hmem, List.length_cons,
        BitVec.ofNat_add]
      rfl

end

theorem countByte_inLen (s : State) : (countByte s).inLen = s.inLen := by rw [countByte_frame s]

theorem countByte_readIn (s : State) (a : Nat) : (countByte s).readIn a = s.readIn a := by rw [countByte_frame s]; rfl

theorem countByte_inPos_toNat {s : State} (h : s.inPos < s.inLen) : (countByte s).inPos.toNat = s.inPos.toNat + 1 :=
  BitVec.toNat_add_of_lt (x := s.inPos) (y := 1#64) (Nat.lt_of_le_of_lt (BitVec.lt_def.1 h) s.inLen.isLt)

theorem countLoop_succ_of_lt {n : Nat} {s : State} (h : s.inPos < s.inLen) : countLoop (n + 1) s = countLoop n (countByte s) :=
  if_pos h

/-- With `n` bytes still to come the loop takes `n` turns: it ends at `IN_LEN`, and has added those bytes to the tally. -/
theorem countLoop_spec {n : Nat} {s : State} (hn : s.inPos.toNat + n = s.inLen.toNat) :
    (countLoop n s).inPos = s.inLen ∧
      ∀ bs, s.Tallies bs → (countLoop n s).Tallies (s.readInBytes s.inPos.toNat n ++ bs) := by
  induction n generalizing s with
  | zero => exact ⟨BitVec.eq_of_toNat_eq hn, fun _ h => h⟩
  | succ n ih =>
    have hlt : s.inPos < s.inLen := BitVec.lt_def.2 (by omega)
    have hpos := countByte_inPos_toNat hlt
    obtain ⟨hend, htally⟩ := ih (s := countByte s) (by rw [hpos, countByte_inLen]; omega)
    rw [countLoop_succ_of_lt hlt]
    refine ⟨hend.trans (countByte_inLen s), fun bs h => (htally _ h.countByte).perm ?_⟩
    rw [hpos, readInBytes_congr (countByte_readIn s)]
    exact List.perm_middle

/-- The state as FCOUNT leaves it, before the sequencer moves on. -/
def State.counted (s : State) : State := countLoop s.inLen.toNat { s with inPos := 0 }

theorem counted_inPos (s : State) : s.counted.inPos = s.inLen :=
  (countLoop_spec (s := { s with inPos := 0 }) (Nat.zero_add _)).1

theorem counted_frame (s : State) :
    s.counted = { s with freq := s.counted.freq, present := s.counted.present, m := s.counted.m, inPos := s.inLen } := by
  have hframe : TableFrame s s.counted := fcountOp_frame s
  rwa [TableFrame, counted_inPos] at hframe

/-- FCOUNT on a clear table leaves the tally of the input (rule R111). -/
theorem counted_tallies {s : State} (h : s.TableClear) : s.counted.Tallies s.input := by
  have htally := (countLoop_spec (s := { s with inPos := 0 }) (Nat.zero_add _)).2 [] (h.tallies_nil 0)
  rwa [List.append_nil, readInBytes_congr (s := s) (t := { s with inPos := 0 }) fun _ => rfl] at htally

theorem exec_fcount {s : State} (h : s.inputFits = true) : exec .fcount s = .next (s.counted.goto Phase.tseed) := by
  rw [exec, execFcount, withInput_of_fits h]
  rfl

theorem length_input (s : State) : s.input.length = s.inLen.toNat := length_readInBytes s 0 _

/-! ### The obligation -/

/-- Settles O20: FCOUNT leaves the tally of the input (`counted_tallies`, by induction on the bytes still to come), and neither the
counts nor the number of keys outgrow their registers. -/
theorem fcountTalliesInput : Obligations.FcountTalliesInput := by
  intro s hfits
  refine ⟨_, exec_fcount hfits, ?_, fun hclear => ?_⟩
  · exact congrArg (·.goto Phase.tseed) (counted_frame s)
  · have h := counted_tallies hclear
    have hfreq := h.toNat_freqOf (length_input s ▸ s.inLen.isLt)
    refine ⟨hfreq, h.isKey_iff, h.toNat_m, h.length_keys.trans h.toNat_m.symm, ?_⟩
    exact (congrArg List.sum (List.map_congr_left fun k _ => hfreq k)).trans ((sum_count_allSymbols _).trans (length_input s))

end Sys2Proof.Machine
end

section
/-! PROOFS of the family 41_tree_builder.md: the order on nodes and `extract_min` (O24, O25), the leaves TSEED creates (O26 to O28), the
merge (O29), and where the model stops by name (O43). -/

namespace Sys2Proof.Machine

/-! ### The order on nodes (rule R121) -/

theorem nfreqOf_of_getElem? {node : Vector Node 511} {i : NodeIx} {x : Node} (h : node[i.toNat]? = some x) :
    nfreqOf node i = x.nfreq.toNat := by
  simp [nfreqOf, h]

theorem nfreqOf_congr {node node' : Vector Node 511} {i : NodeIx} (h : node'[i.toNat]? = node[i.toNat]?) :
    nfreqOf node' i = nfreqOf node i := by
  rw [nfreqOf, h, nfreqOf]

theorem lower_irrefl (node : Vector Node 511) (i : NodeIx) : lower node i i = false := by
  simp [lower]

theorem lower_trans {node : Vector Node 511} {i j k : NodeIx} (hij : lower node i j = true) (hjk : lower node j k = true) :
    lower node i k = true := by
  rw [lower_iff] at *
  omega

theorem lower_total (node : Vector Node 511) (i j : NodeIx) : i = j ∨ lower node i j = true ∨ lower node j i = true := by
  rw [lower_iff, lower_iff, ← BitVec.toNat_inj]
  omega

theorem lower_congr {node node' : Vector Node 511} (h : ∀ i, nfreqOf node' i = nfreqOf node i) (i j : NodeIx) :
    lower node' i j = lower node i j := by
  simp only [lower, h]

/-! ### The lowest element, and `extract_min` (rule R122) -/

/-- The element of a set that is lower than every other. -/
def IsLowest (node : Vector Node 511) (pq : List NodeIx) (a : NodeIx) : Prop :=
  a ∈ pq ∧ ∀ j ∈ pq, j ≠ a → lower node a j = true

theorem IsLowest.unique {node : Vector Node 511} {pq : List NodeIx} {a b : NodeIx} (ha : IsLowest node pq a)
    (hb : IsLowest node pq b) : a = b := by
  by_contra hne
  have hself := lower_trans (ha.2 b hb.1 (Ne.symm hne)) (hb.2 a ha.1 hne)
  simp [lower_irrefl] at hself

theorem IsLowest.congr {node node' : Vector Node 511} {pq pq' : List NodeIx} {a : NodeIx} (h : IsLowest node pq a)
    (hfreq : ∀ i, nfreqOf node' i = nfreqOf node i) (hmem : ∀ j, j ∈ pq' ↔ j ∈ pq) : IsLowest node' pq' a :=
  ⟨(hmem a).2 h.1, fun j hj hne => (lower_congr hfreq a j).trans (h.2 j ((hmem j).1 hj) hne)⟩

/-- What `extract_min` returns depends only on which indices the list holds: the lowest, and the list without it. -/
theorem extractMin_eq_some {node : Vector Node 511} {pq rest : List NodeIx} {a : NodeIx} :
    extractMin node pq = some (a, rest) ↔ IsLowest node pq a ∧ rest = pq.filter fun i => !decide (i = a) := by
  have hspec : ∀ {b rest'}, extractMin node pq = some (b, rest') →
      IsLowest node pq b ∧ rest' = pq.filter fun i => !decide (i = b) := fun h =>
    have ⟨hmem, hlow, hrest⟩ := extractMin_spec h
    ⟨⟨hmem, fun j hj hne => (hlow j hj).resolve_left hne⟩, hrest⟩
  refine ⟨hspec, fun ⟨hlow, hrest⟩ => ?_⟩
  obtain ⟨⟨b, rest'⟩, hb⟩ := Option.ne_none_iff_exists'.1 (mt extractMin_eq_none.1 (List.ne_nil_of_mem hlow.1))
  obtain ⟨hlow', rfl⟩ := hspec hb
  rw [hb, hrest, hlow.unique hlow']

theorem mem_rest_of_extractMin {node : Vector Node 511} {pq rest : List NodeIx} {a : NodeIx}
    (h : extractMin node pq = some (a, rest)) (j : NodeIx) : j ∈ rest ↔ j ∈ pq ∧ j ≠ a := by
  obtain ⟨-, rfl⟩ := extractMin_eq_some.1 h
  simp

/-- From a set, given as a list without repeats, exactly the one element is removed. -/
theorem perm_of_extractMin {node : Vector Node 511} {pq rest : List NodeIx} {a : NodeIx} (h : extractMin node pq = some (a, rest))
    (hset : pq.Nodup) : pq.Perm (a :: rest) := by
  obtain ⟨hlow, rfl⟩ := extractMin_eq_some.1 h
  have herase : pq.erase a = pq.filter fun i => !decide (i = a) := hset.erase_eq_filter a
  exact herase ▸ List.perm_cons_erase hlow.1

theorem IsLowest.exists_extractMin {node : Vector Node 511} {pq : List NodeIx} {a : NodeIx} (h : IsLowest node pq a) :
    ∃ rest, extractMin node pq = some (a, rest) :=
  ⟨_, extractMin_eq_some.2 ⟨h, rfl⟩⟩

theorem exists_extractMin (node : Vector Node 511) {pq : List NodeIx} (h : pq ≠ []) :
    ∃ a rest, extractMin node pq = some (a, rest) := by
  obtain ⟨⟨a, rest⟩, h'⟩ := Option.ne_none_iff_exists'.1 (mt (extractMin_eq_none (node := node)).1 h)
  exact ⟨a, rest, h'⟩

/-! ### A node added to the arena above the queue -/

/-- `NODE[NN] <- n; PQ <- PQ with NN inserted; NN <- NN + 1`, where the arena has that entry and every index in `PQ` is below `NN`. -/
def State.pushed (s : State) (n : Node) : State :=
  { s with node := s.node.setIfInBounds s.nn.toNat n, pq := s.pq ++ [s.nn], nn := s.nn + 1 }

theorem addNode_eq_pushed {s : State} (n : Node) (hnn : s.nn.toNat < 511) (hpq : ∀ i ∈ s.pq, i.toNat < s.nn.toNat) :
    s.addNode n = .ok (s.pushed n) := by
  refine addNode_eq_ok.2 ⟨hnn, ?_⟩
  rw [State.pushed, pqInsert_last hpq]
  congr
  exact Vector.ext fun i hi => by simp [Vector.getElem_setIfInBounds, Vector.getElem_set]

@[simp] theorem pushed_pq (s : State) (n : Node) : (s.pushed n).pq = s.pq ++ [s.nn] := rfl

theorem pushed_frame (s : State) (n : Node) : TreeFrame s (s.pushed n) := rfl

theorem pushed_nn_toNat {s : State} (n : Node) (hnn : s.nn.toNat < 511) : (s.pushed n).nn.toNat = s.nn.toNat + 1 :=
  BitVec.toNat_add_of_lt (x := s.nn) (y := 1#9) (Nat.succ_lt_succ hnn)

theorem pushed_node_same {s : State} (n : Node) (hnn : s.nn.toNat < 511) : (s.pushed n).node[s.nn.toNat]? = some n := by
  simp [State.pushed, hnn]

theorem pushed_node_other (s : State) (n : Node) {k : Nat} (hk : k ≠ s.nn.toNat) : (s.pushed n).node[k]? = s.node[k]? := by
  simp [State.pushed, hk.symm]

/-! ### The leaves TSEED creates (rule R123) -/

/-- A count of 64 bits is kept whole in the 72 bits of `NFREQ` (rule R96). -/
theorem toNat_nfreq_leafFor (s : State) (sym : Byte) : (s.leafFor sym).nfreq.toNat = (s.freqOf sym).toNat :=
  BitVec.toNat_setWidth_of_le (by decide)

/-- `t` is `s` with one leaf for each of the symbols, in their order, from `NODE[NN]` on, and all of them in `PQ`. -/
structure LeavesAdded (s : State) (xs : List Byte) (t : State) : Prop where
  frame : TreeFrame s t
  nn_toNat : t.nn.toNat = s.nn.toNat + xs.length
  pq_eq : t.pq = s.pq ++ (List.range' s.nn.toNat xs.length).map (BitVec.ofNat 9)
  leaf : ∀ (k : Nat) (h : k < xs.length), t.node[s.nn.toNat + k]? = some (s.leafFor xs[k])
  kept : ∀ k, k < s.nn.toNat ∨ s.nn.toNat + xs.length ≤ k → t.node[k]? = s.node[k]?

theorem LeavesAdded.cons {s t : State} {x : Byte} {xs : List Byte} (hnn : s.nn.toNat < 511)
    (h : LeavesAdded (s.pushed (s.leafFor x)) xs t) : LeavesAdded s (x :: xs) t := by
  have hnext := pushed_nn_toNat (s.leafFor x) hnn
  have hfirst : t.node[s.nn.toNat]? = some (s.leafFor x) :=
    (h.kept _ (.inl (by omega))).trans (pushed_node_same _ hnn)
  refine ⟨(pushed_frame s _).trans h.frame, ?_, ?_, fun k hk => ?_, fun k hk => ?_⟩
  · rw [h.nn_toNat, hnext, List.length_cons]; omega
  · rw [h.pq_eq, hnext, List.length_cons, List.range'_succ]
    simp
  · cases k with
    | zero => exact hfirst
    | succ k =>
      rw [show s.nn.toNat + (k + 1) = (s.pushed (s.leafFor x)).nn.toNat + k by omega]
      exact h.leaf k (Nat.lt_of_succ_lt_succ hk)
  · rw [List.length_cons] at hk
    rw [h.kept k (by omega), pushed_node_other _ _ (by omega)]

/-- The loop of TSEED, as long as the arena has room. -/
theorem each_addNode_leaves (xs : List Byte) {s : State} (hroom : s.nn.toNat + xs.length ≤ 511)
    (hpq : ∀ i ∈ s.pq, i.toNat < s.nn.toNat) :
    ∃ t, Flow.each (fun sym t => t.addNode (t.leafFor sym)) xs s = .ok t ∧ LeavesAdded s xs t := by
  induction xs generalizing s with
  | nil => exact ⟨s, rfl, .refl s, rfl, by simp, fun k hk => absurd hk (Nat.not_lt_zero k), fun _ _ => rfl⟩
  | cons x xs ih =>
    rw [List.length_cons] at hroom
    have hnn : s.nn.toNat < 511 := by omega
    have hnext := pushed_nn_toNat (s.leafFor x) hnn
    have hbelow : ∀ i ∈ (s.pushed (s.leafFor x)).pq, i.toNat < (s.pushed (s.leafFor x)).nn.toNat := by
      rw [pushed_pq, hnext, List.forall_mem_append]
      exact ⟨fun i hi => Nat.lt_succ_of_lt (hpq i hi), by simp⟩
    obtain ⟨t, ht, hadded⟩ := ih (by omega) hbelow
    exact ⟨t, by rw [each_cons, addNode_eq_pushed _ hnn hpq, andThen_ok, ht], hadded.cons hnn⟩

/-- A table with as many keys as `M` says, at least one, and no node yet: TSEED adds the leaves of the keys, and with one key
makes the single-symbol tree of them. -/
theorem tseedOp_of_keys {s : State} (hnn : s.nn = 0) (hpq : s.pq = []) (hm : s.m.toNat = s.keys.length) (hkeys : s.keys ≠ []) :
    ∃ t, LeavesAdded s s.keys t ∧ tseedOp s = .ok (if s.keys.length = 1 then singleSymbolRoot t else t) := by
  have hlen := length_keys_le s
  have hpos := List.length_pos_iff.2 hkeys
  have hm0 : s.m ≠ 0 := fun h => by simp [h] at hm; omega
  obtain ⟨t, ht, hadded⟩ := each_addNode_leaves s.keys (s := s) (by simp [hnn]; omega) (by simp [hpq])
  have htm : t.m = 1 ↔ s.keys.length = 1 := by
    have hkept : t.m = s.m := by rw [hadded.frame]
    rw [hkept, ← hm, ← BitVec.toNat_inj]
    rfl
  refine ⟨t, hadded, ?_⟩
  rw [tseedOp, if_neg hm0, ht, andThen_ok, ← apply_ite Flow.ok]
  simp only [htm]

/-! ### What follows TSEED and TMERGE (rule R127) -/

theorem exec_tseed (s : State) : exec .tseed s = ((tseedOp s).andThen afterQueue).outcome := rfl

theorem exec_tmerge (s : State) : exec .tmerge s = ((tmergeOp s).andThen afterQueue).outcome := rfl

theorem afterQueue_of_single {s : State} {r : NodeIx} (h : s.pq = [r]) :
    afterQueue s = .ok ({ s with root := r }.goto Phase.cgen) := by
  simp [afterQueue, h]

theorem afterQueue_of_two_le {s : State} (h : 2 ≤ s.pq.length) : afterQueue s = .ok (s.goto Phase.tmerge) := by
  rcases afterQueue_cases s with ⟨hpq, -⟩ | ⟨r, hpq, -⟩ | ⟨-, heq⟩
  · simp [hpq] at h
  · simp [hpq] at h
  · exact heq

/-! ### One merge (rule R126) -/

/-- `a` and `b` joined under the node `NODE[NN]`, with the rest of the queue given. -/
def State.merged (s : State) (a b : NodeIx) (rest : List NodeIx) : State :=
  { s with pq := rest }.pushed (parentOf s.node a b)

theorem tmergeOp_eq_merged {s : State} {a b : NodeIx} {rest rest' : List NodeIx} (hnn : s.nn.toNat < 511)
    (hpq : ∀ i ∈ s.pq, i.toNat < s.nn.toNat) (ha : extractMin s.node s.pq = some (a, rest))
    (hb : extractMin s.node rest = some (b, rest')) : tmergeOp s = .ok (s.merged a b rest') := by
  have hall : (s.pq.all fun i => decide (i.toNat < 511)) = true :=
    List.all_eq_true.2 fun i hi => decide_eq_true ((hpq i hi).trans hnn)
  have hrest : ∀ i ∈ rest', i.toNat < s.nn.toNat := fun i hi =>
    hpq i ((mem_rest_of_extractMin ha i).1 ((mem_rest_of_extractMin hb i).1 hi).1).1
  rw [tmergeOp, if_pos hall, ha]
  simp only [hb]
  exact addNode_eq_pushed (s := { s with pq := rest' }) _ hnn hrest

@[simp] theorem merged_pq (s : State) (a b : NodeIx) (rest : List NodeIx) : (s.merged a b rest).pq = rest ++ [s.nn] := rfl
@[simp] theorem merged_keys (s : State) (a b : NodeIx) (rest : List NodeIx) : (s.merged a b rest).keys = s.keys := rfl

theorem mem_merged_pq (s : State) (a b : NodeIx) (rest : List NodeIx) (i : NodeIx) :
    i ∈ (s.merged a b rest).pq ↔ i = s.nn ∨ i ∈ rest := by
  simp [or_comm]

theorem merged_nn_toNat {s : State} (a b : NodeIx) (rest : List NodeIx) (hnn : s.nn.toNat < 511) :
    (s.merged a b rest).nn.toNat = s.nn.toNat + 1 :=
  pushed_nn_toNat (s := { s with pq := rest }) _ hnn

theorem merged_node_same {s : State} (a b : NodeIx) (rest : List NodeIx) (hnn : s.nn.toNat < 511) :
    (s.merged a b rest).node[s.nn.toNat]? = some (parentOf s.node a b) :=
  pushed_node_same (s := { s with pq := rest }) _ hnn

theorem merged_node_other (s : State) (a b : NodeIx) (rest : List NodeIx) {k : Nat} (hk : k ≠ s.nn.toNat) :
    (s.merged a b rest).node[k]? = s.node[k]? :=
  pushed_node_other { s with pq := rest } _ hk

/-- TMERGE's step: with nothing else in the queue the new node is `ROOT` and CGEN follows, else another TMERGE. -/
theorem exec_tmerge_of_merged {s : State} {a b : NodeIx} {rest : List NodeIx} (h : tmergeOp s = .ok (s.merged a b rest)) :
    exec .tmerge s = .next { s.merged a b rest with
      root := if rest = [] then s.nn else s.root, phase := if rest = [] then Phase.cgen else Phase.tmerge } := by
  have hpq := merged_pq s a b rest
  rw [exec_tmerge, h, andThen_ok]
  by_cases hrest : rest = []
  · subst hrest
    rw [afterQueue_of_single hpq]
    rfl
  · have hpos := List.length_pos_iff.2 hrest
    rw [afterQueue_of_two_le (by rw [hpq, List.length_append, List.length_singleton]; omega), if_neg hrest, if_neg hrest]
    rfl

theorem toNat_nfreq_parentOf {node : Vector Node 511} {a b : NodeIx} (h : nfreqOf node a + nfreqOf node b < 2 ^ 72) :
    (parentOf node a b).nfreq.toNat = nfreqOf node a + nfreqOf node b := by
  rw [parentOf, BitVec.toNat_ofNat, Nat.mod_eq_of_lt h]

/-! ### The stops (rules R62, R64) -/

theorem withInput_of_not_fits {op : State → Flow} {s : State} (h : s.inputFits = false) :
    withInput op s = .stopped .inAddressAbsent := if_neg (ne_true_of_eq_false h)

theorem append_of_not_holds {s : State} {bs : List Byte} (h : s.cfg.outHolds (s.outLen + bs.length) = false) :
    s.append bs = .stopped .outAddressAbsent := if_neg (ne_true_of_eq_false h)

/-! ### The obligations -/

/-- Settles O24: a lexicographic order on frequency and index. -/
theorem nodeOrderIsTotal : Obligations.NodeOrderIsTotal := by
  refine fun node => ⟨fun i j x y hx hy => ?_, lower_irrefl node, fun _ _ _ => lower_trans, lower_total node⟩
  rw [lower_iff, nfreqOf_of_getElem? hx, nfreqOf_of_getElem? hy, BitVec.toNat_inj]

/-- Settles O25: the lowest element is unique (`IsLowest.unique`), so the list's order and history cannot matter. -/
theorem extractMinTakesTheLowest : Obligations.ExtractMinTakesTheLowest := by
  intro node pq hpq
  obtain ⟨a, rest, h⟩ := exists_extractMin node hpq
  obtain ⟨hlow, -⟩ := extractMin_eq_some.1 h
  have hrest := mem_rest_of_extractMin h
  refine ⟨a, rest, h, hlow.1, hlow.2, hrest, fun node' pq' hfreq hmem => ?_⟩
  have h' := extractMin_eq_some.2 ⟨hlow.congr hfreq hmem, rfl⟩
  exact ⟨_, h', fun j => by rw [mem_rest_of_extractMin h', hmem, hrest]⟩

/-- Settles O26: the check of `M` is TSEED's first statement. -/
theorem tseedRefusesEmptyTable : Obligations.TseedRefusesEmptyTable := by
  intro s hm
  rw [exec_tseed, tseedOp, if_pos hm, andThen_raised, outcome_raised]

/-- Settles O27: the leaves are those of `tseedOp_of_keys`, and with two of them in the queue TMERGE follows. -/
theorem tseedSeedsLeaves : Obligations.TseedSeedsLeaves := by
  intro s hnn hpq hm hlen
  obtain ⟨t, hadded, hop⟩ := tseedOp_of_keys hnn hpq hm (List.ne_nil_of_length_pos (by omega))
  rw [if_neg (by omega)] at hop
  have hqueue : t.pq = (List.range s.keys.length).map (BitVec.ofNat 9) := by
    rw [hadded.pq_eq, hnn, hpq]
    simp [List.range_eq_range']
  refine ⟨t.goto Phase.tmerge, ?_, ?_, ?_, hqueue, fun k hk => ?_, fun k hk => ?_⟩
  · rw [exec_tseed, hop, andThen_ok, afterQueue_of_two_le (by simpa [hqueue] using hlen), outcome_ok]
  · exact congrArg (·.goto Phase.tmerge) hadded.frame
  · simpa [hnn] using hadded.nn_toNat
  · simpa [State.leafFor, hnn] using hadded.leaf k hk
  · exact hadded.kept k (.inr (by simpa [hnn] using hk))

/-- Settles O28: the one leaf is that of `tseedOp_of_keys`, the other two entries are the ones the single-symbol tree writes. -/
theorem tseedSingleSymbolTree : Obligations.TseedSingleSymbolTree := by
  intro s x hnn hpq hm hkeys
  obtain ⟨t, hadded, hop⟩ := tseedOp_of_keys hnn hpq (by simp [hm, hkeys]) (by simp [hkeys])
  rw [if_pos (by simp [hkeys])] at hop
  have hleaf : t.node[0]? = some (s.leafFor x) := by simpa [hnn, hkeys] using hadded.leaf 0
  have hfreq : t.node[0].nfreq = (s.freqOf x).setWidth 72 := by
    rw [Vector.getElem_eq_iff.2 hleaf, State.leafFor]
  refine ⟨{ singleSymbolRoot t with root := 2 }.goto Phase.cgen, ?_, ?_, ?_, ?_, ?_, fun k hk => ?_⟩
  · rw [exec_tseed, hop, andThen_ok, afterQueue_of_single rfl, outcome_ok]
  · exact congrArg (fun u => { singleSymbolRoot u with root := 2 }.goto Phase.cgen) hadded.frame
  · simpa [singleSymbolRoot, State.leafFor] using hleaf
  · simp [singleSymbolRoot, placeholder]
  · simp [singleSymbolRoot, hfreq]
  · have hother : t.node[k]? = s.node[k]? := hadded.kept k (.inr (by simp [hnn, hkeys]; omega))
    simpa [singleSymbolRoot, Vector.getElem?_set, show 1 ≠ k by omega, show 2 ≠ k by omega] using hother

/-- Settles O29: the two indices named are what `extract_min` takes (`extractMin_eq_some`), whatever the queue's list repeats. -/
theorem tmergeJoinsTwoLowest : Obligations.TmergeJoinsTwoLowest := by
  intro s a b hnn hpq ha halow hb hba hblow
  have hlow : IsLowest s.node s.pq a := ⟨ha, halow⟩
  obtain ⟨rest, h1⟩ := hlow.exists_extractMin
  have hmem1 := mem_rest_of_extractMin h1
  have hlow' : IsLowest s.node rest b :=
    ⟨(hmem1 b).2 ⟨hb, hba⟩, fun j hj => hblow j ((hmem1 j).1 hj).1 ((hmem1 j).1 hj).2⟩
  obtain ⟨rest', h2⟩ := hlow'.exists_extractMin
  have hmem : ∀ j, j ∈ rest' ↔ j ∈ s.pq ∧ j ≠ a ∧ j ≠ b := fun j => by
    rw [mem_rest_of_extractMin h2, hmem1, and_assoc]
  refine ⟨_, parentOf s.node a b, exec_tmerge_of_merged (tmergeOp_eq_merged hnn hpq h1 h2), rfl, merged_nn_toNat a b rest' hnn,
    merged_node_same a b rest' hnn, fun k => merged_node_other s a b rest', rfl, rfl, rfl, rfl, rfl, toNat_nfreq_parentOf,
    fun i => (mem_merged_pq s a b rest' i).trans (or_congr_right (hmem i)), ?_, fun hnone => ?_⟩
  · rintro ⟨j, hj⟩
    have hne : rest' ≠ [] := List.ne_nil_of_mem ((hmem j).2 hj)
    exact ⟨if_neg hne, if_neg hne⟩
  · have hnil : rest' = [] := List.eq_nil_iff_forall_not_mem.2 fun j hj => by
      obtain ⟨hjpq, hja, hjb⟩ := (hmem j).1 hj
      exact (hnone j hjpq).elim hja hjb
    subst hnil
    exact ⟨rfl, rfl, rfl⟩

/-- Settles O43: the queue is empty before the first extraction, and the checks of IN and OUT come before anything else. -/
theorem stopsOutsideRequirements : Obligations.StopsOutsideRequirements := by
  refine ⟨fun s hpq => ?_, fun s i hfits hi => ?_, fun s hcur hroom => ?_⟩
  · rw [exec_tmerge, tmergeOp, hpq]
    rfl
  · have hstop : ∀ op, withInput op s = .stopped .inAddressAbsent := fun _ => withInput_of_not_fits hfits
    rcases hi with rfl | rfl | rfl | rfl | rfl | rfl
    · rw [exec, execFcount, hstop, andThen_stopped, outcome_stopped]
    · rw [exec, execCparse, hstop, andThen_stopped, outcome_stopped]
    · rw [exec, execPack, hstop, andThen_stopped, outcome_stopped]
    · rw [exec, execDwalk, hstop, andThen_stopped, outcome_stopped]
    · rw [exec, execDstep, hstop, outcome_stopped]
    · rw [exec, execRbit, hstop, outcome_stopped]
  · have happend : ∀ v : Byte, (s.goto Phase.wbit).append [v] = .stopped .outAddressAbsent := fun _ => append_of_not_holds hroom
    rw [exec, execWbit, nested, wbitOp, if_pos (show (s.goto Phase.wbit).bwCur = 7 from hcur), happend]
    rfl

end Sys2Proof.Machine
end

section
/-! PROOFS of the family 41_tree_builder.md, continued: the whole construction (O30). Between TSEED and CGEN the queue holds the roots of a
forest whose trees carry the keys; every merge joins two of them. -/

namespace Sys2Proof.Machine

/-! ### The symbols of a tree -/

/-- The symbols on the real leaves, from left to right. -/
def HTree.symbols (T : HTree) : List Byte := T.codes.map Prod.fst

@[simp] theorem symbols_leaf (sym : Byte) : (HTree.leaf sym).symbols = [sym] := rfl

@[simp] theorem symbols_fork (l r : HTree) : (HTree.fork l r).symbols = l.symbols ++ r.symbols := by
  simp [HTree.symbols, HTree.codes, Function.comp_def]

/-- A tree without the placeholder has more leaves than its longest path has edges. -/
theorem depth_lt_length_symbols {T : HTree} (h : T.hasHole = false) : T.depth < T.symbols.length := by
  induction T with
  | leaf sym => simp [HTree.depth]
  | hole => simp [HTree.hasHole] at h
  | fork l r ihl ihr =>
    obtain ⟨hl, hr⟩ : l.hasHole = false ∧ r.hasHole = false := by simpa [HTree.hasHole] using h
    have hl' := ihl hl
    have hr' := ihr hr
    rw [symbols_fork, List.length_append, HTree.depth]
    omega

/-! ### The counts of symbols -/

/-- The sum of the counts of some symbols. -/
def State.countSum (s : State) (xs : List Byte) : Nat := (xs.map fun k => (s.freqOf k).toNat).sum

theorem countSum_append (s : State) (xs ys : List Byte) : s.countSum (xs ++ ys) = s.countSum xs + s.countSum ys := by
  simp [State.countSum]

theorem countSum_perm (s : State) {xs ys : List Byte} (h : xs.Perm ys) : s.countSum xs = s.countSum ys :=
  (h.map _).sum_eq

/-- At most 256 counts of 64 bits: their sum fits the 72 bits of `NFREQ` (rule R96). -/
theorem countSum_keys_lt (s : State) : s.countSum s.keys < 2 ^ 72 := by
  have hsum : s.countSum s.keys ≤ (s.keys.map fun k => (s.freqOf k).toNat).length • (2 ^ 64 - 1) :=
    List.sum_le_card_nsmul _ _ fun v hv => by
      obtain ⟨k, -, rfl⟩ := List.mem_map.1 hv
      exact Nat.le_sub_one_of_lt (s.freqOf k).isLt
  have hlen := length_keys_le s
  rw [List.length_map, smul_eq_mul] at hsum
  omega

/-! ### A tree in the arena -/

/-- The children of the first `n` arena entries are among those entries. -/
def ClosedBelow (node : Vector Node 511) (n : Nat) : Prop :=
  ∀ k < n, ∀ x, node[k]? = some x → x.kind = .internal → x.left.toNat < n ∧ x.right.toNat < n

/-- A tree among the first `n` entries stands when only later entries change. -/
theorem holds_of_agree_below {node node' : Vector Node 511} {n : Nat} (hclosed : ClosedBelow node n)
    (hagree : ∀ k < n, node'[k]? = node[k]?) {T : HTree} {i : NodeIx} (hi : i.toNat < n) (h : Holds node i T) : Holds node' i T := by
  induction T generalizing i with
  | leaf sym =>
    obtain ⟨x, hx, hleaf⟩ := h
    exact ⟨x, (hagree _ hi).trans hx, hleaf⟩
  | hole =>
    obtain ⟨x, hx, hhole⟩ := h
    exact ⟨x, (hagree _ hi).trans hx, hhole⟩
  | fork l r ihl ihr =>
    obtain ⟨x, hx, hkind, hl, hr⟩ := h
    obtain ⟨hleft, hright⟩ := hclosed _ hi x hx hkind
    exact ⟨x, (hagree _ hi).trans hx, hkind, ihl hleft hl, ihr hright hr⟩

/-- Arena entry `i` is the root of a tree without the placeholder, and its frequency is the sum of the counts of the tree's symbols. -/
structure State.Carries (s : State) (i : NodeIx) (T : HTree) : Prop where
  held : Holds s.node i T
  noHole : T.hasHole = false
  weight : nfreqOf s.node i = s.countSum T.symbols

section
variable {s t : State} {i : NodeIx}

/-- A tree among the entries below `NN` is carried on when only later entries change. -/
theorem State.Carries.of_agree_below {T : HTree} (h : s.Carries i T) (hclosed : ClosedBelow s.node s.nn.toNat)
    (hi : i.toNat < s.nn.toNat) (hagree : ∀ k < s.nn.toNat, t.node[k]? = s.node[k]?) (hfreq : ∀ k, t.freqOf k = s.freqOf k) :
    t.Carries i T where
  held := holds_of_agree_below hclosed hagree hi h.held
  noHole := h.noHole
  weight := by
    rw [nfreqOf_congr (hagree _ hi), h.weight]
    simp [State.countSum, hfreq]

theorem State.Carries.leaf {sym : Byte} (h : t.node[i.toNat]? = some (t.leafFor sym)) : t.Carries i (.leaf sym) where
  held := ⟨_, h, rfl, rfl, rfl⟩
  noHole := rfl
  weight := by
    rw [nfreqOf_of_getElem? h, toNat_nfreq_leafFor]
    simp [State.countSum]

/-- A parent whose frequency is the exact sum carries both subtrees (rule R126). -/
theorem State.Carries.fork {l r : HTree} {x : Node} (hx : t.node[i.toNat]? = some x) (hkind : x.kind = .internal)
    (hleft : t.Carries x.left l) (hright : t.Carries x.right r)
    (hsum : x.nfreq.toNat = nfreqOf t.node x.left + nfreqOf t.node x.right) : t.Carries i (.fork l r) where
  held := ⟨x, hx, hkind, hleft.held, hright.held⟩
  noHole := by simp [HTree.hasHole, hleft.noHole, hright.noHole]
  weight := by rw [nfreqOf_of_getElem? hx, hsum, hleft.weight, hright.weight, symbols_fork, countSum_append]

end

/-! ### The forest in the queue -/

/-- Between TSEED and CGEN: the nodes in `PQ` are the roots of trees `tr` that together carry every key once (rules R127, R128). -/
structure State.Forest (s : State) (tr : NodeIx → HTree) : Prop where
  queueIsSet : s.pq.Nodup
  below : ∀ i ∈ s.pq, i.toNat < s.nn.toNat
  closed : ClosedBelow s.node s.nn.toNat
  carries : ∀ i ∈ s.pq, s.Carries i (tr i)
  symbols : (s.pq.flatMap fun i => (tr i).symbols).Perm s.keys
  count : s.nn.toNat + s.pq.length = 2 * s.keys.length

/-- The trees after a merge: those of `a` and `b` are joined under the node `n`. -/
def joined (tr : NodeIx → HTree) (n a b : NodeIx) : NodeIx → HTree := Function.update tr n (.fork (tr a) (tr b))

section
variable {s : State} {tr : NodeIx → HTree}

/-- While two trees are left the arena has room for their parent (rule R34). -/
theorem State.Forest.nn_lt (h : s.Forest tr) (hlen : 2 ≤ s.pq.length) : s.nn.toNat < 511 := by
  have hcount := h.count
  have hkeys := length_keys_le s
  omega

/-- The frequencies of two trees of the forest add up to no more than all counts together (rule R96). -/
theorem State.Forest.nfreq_add_lt (h : s.Forest tr) {a b : NodeIx} {rest : List NodeIx} (hperm : s.pq.Perm (a :: b :: rest)) :
    nfreqOf s.node a + nfreqOf s.node b < 2 ^ 72 := by
  have hall := countSum_perm s ((hperm.flatMap_right fun i => (tr i).symbols).symm.trans h.symbols)
  rw [List.flatMap_cons, List.flatMap_cons, countSum_append, countSum_append] at hall
  rw [(h.carries a (hperm.mem_iff.2 (by simp))).weight, (h.carries b (hperm.mem_iff.2 (by simp))).weight]
  have hlt := countSum_keys_lt s
  omega

theorem ClosedBelow.merged {a b : NodeIx} {rest : List NodeIx} (h : ClosedBelow s.node s.nn.toNat) (hnn : s.nn.toNat < 511)
    (ha : a.toNat < s.nn.toNat) (hb : b.toNat < s.nn.toNat) :
    ClosedBelow (s.merged a b rest).node (s.merged a b rest).nn.toNat := by
  rw [merged_nn_toNat a b rest hnn]
  intro k hk x hx hkind
  rcases Nat.lt_succ_iff_lt_or_eq.1 hk with hlt | rfl
  · rw [merged_node_other s a b rest hlt.ne] at hx
    exact (h k hlt x hx hkind).imp Nat.lt_succ_of_lt Nat.lt_succ_of_lt
  · rw [merged_node_same a b rest hnn] at hx
    obtain rfl := Option.some.inj hx
    exact ⟨Nat.lt_succ_of_lt ha, Nat.lt_succ_of_lt hb⟩

/-- A merge of two trees of the forest, the others being left, gives a forest again. -/
theorem State.Forest.merged (h : s.Forest tr) {a b : NodeIx} {rest : List NodeIx} (hperm : s.pq.Perm (a :: b :: rest)) :
    (s.merged a b rest).Forest (joined tr s.nn a b) := by
  have hlen : s.pq.length = rest.length + 2 := hperm.length_eq
  have hnn := h.nn_lt (by omega)
  have hnext := merged_nn_toNat a b rest hnn
  have ha : a ∈ s.pq := hperm.mem_iff.2 (by simp)
  have hb : b ∈ s.pq := hperm.mem_iff.2 (by simp)
  have hrest : ∀ i ∈ rest, i ∈ s.pq := fun i hi => hperm.mem_iff.2 (by simp [hi])
  have hold : ∀ i ∈ s.pq, i ≠ s.nn := fun i hi e => Nat.lt_irrefl _ (e ▸ h.below i hi)
  have htr : ∀ i ∈ rest, joined tr s.nn a b i = tr i := fun i hi => Function.update_of_ne (hold i (hrest i hi)) _ _
  have htrNew : joined tr s.nn a b s.nn = .fork (tr a) (tr b) := Function.update_self ..
  have hkept : ∀ i ∈ s.pq, (s.merged a b rest).Carries i (tr i) := fun i hi =>
    (h.carries i hi).of_agree_below h.closed (h.below i hi) (fun k hk => merged_node_other s a b rest hk.ne) fun _ => rfl
  refine ⟨?_, ?_, h.closed.merged hnn (h.below a ha) (h.below b hb), ?_, ?_, ?_⟩
  · have hset : rest.Nodup := (hperm.nodup_iff.1 h.queueIsSet).of_cons.of_cons
    exact hset.append (List.nodup_singleton _) (by simpa using fun hmem => hold _ (hrest _ hmem) rfl)
  · rw [merged_pq, hnext, List.forall_mem_append]
    exact ⟨fun i hi => Nat.lt_succ_of_lt (h.below i (hrest i hi)), by simp⟩
  · rw [merged_pq, List.forall_mem_append, List.forall_mem_singleton, htrNew]
    refine ⟨fun i hi => htr i hi ▸ hkept i (hrest i hi), ?_⟩
    refine .fork (merged_node_same a b rest hnn) rfl (hkept a ha) (hkept b hb) ?_
    have hnfreq : ∀ j ∈ s.pq, nfreqOf (s.merged a b rest).node j = nfreqOf s.node j := fun j hj =>
      nfreqOf_congr (merged_node_other s a b rest (h.below j hj).ne)
    exact (toNat_nfreq_parentOf (h.nfreq_add_lt hperm)).trans (congrArg₂ (· + ·) (hnfreq a ha) (hnfreq b hb)).symm
  · rw [merged_pq, merged_keys, List.flatMap_append, List.flatMap_congr fun i hi => congrArg HTree.symbols (htr i hi),
      List.flatMap_singleton, htrNew, symbols_fork]
    refine List.perm_append_comm.trans (.trans ?_ ((hperm.flatMap_right _).symm.trans h.symbols))
    rw [List.flatMap_cons, List.flatMap_cons, List.append_assoc]
  · rw [merged_pq, merged_keys, hnext, List.length_append, List.length_singleton, ← h.count]
    omega

/-- `ROOT` and `PHASE` do not matter to the forest. -/
theorem State.Forest.of_root_phase (h : s.Forest tr) (r : NodeIx) (p : PhaseCode) : { s with root := r, phase := p }.Forest tr where
  queueIsSet := h.queueIsSet
  below := h.below
  closed := h.closed
  carries i hi := ⟨(h.carries i hi).held, (h.carries i hi).noHole, (h.carries i hi).weight⟩
  symbols := h.symbols
  count := h.count

/-! ### The steps of the construction (rules R123, R127) -/

/-- TMERGE on a forest of two trees or more takes two of them. -/
theorem State.Forest.exec_tmerge (h : s.Forest tr) (hlen : 2 ≤ s.pq.length) : ∃ a b rest, s.pq.Perm (a :: b :: rest) ∧
    exec .tmerge s = .next { s.merged a b rest with
      root := if rest = [] then s.nn else s.root, phase := if rest = [] then Phase.cgen else Phase.tmerge } := by
  obtain ⟨a, rest, ha⟩ := exists_extractMin s.node (List.ne_nil_of_length_pos (by omega : 0 < s.pq.length))
  have hperm := perm_of_extractMin ha h.queueIsSet
  have hlen' := hperm.length_eq
  rw [List.length_cons] at hlen'
  obtain ⟨b, rest', hb⟩ := exists_extractMin s.node (List.ne_nil_of_length_pos (by omega : 0 < rest.length))
  have hperm' := perm_of_extractMin hb (hperm.nodup_iff.1 h.queueIsSet).of_cons
  exact ⟨a, b, rest', hperm.trans (hperm'.cons a), exec_tmerge_of_merged (tmergeOp_eq_merged (h.nn_lt hlen) h.below ha hb)⟩

end

/-- From `n + 2` trees, `n + 1` merges lead to one tree, whose root is the last node made, and to CGEN. -/
theorem State.Forest.run_tmerge (n : Nat) {s : State} {tr : NodeIx → HTree} (h : s.Forest tr) (hbusy : s.state = .busy)
    (hhost : s.host = []) (hphase : s.phase = Phase.tmerge) (hlen : s.pq.length = n + 2) :
    ∃ t tr', run (n + 1) s = .next t ∧
      t = { s with node := t.node, nn := t.nn, pq := [t.root], root := t.root, phase := Phase.cgen } ∧
      t.Forest tr' ∧ t.nn.toNat = t.root.toNat + 1 := by
  induction n generalizing s tr with
  | zero =>
    obtain ⟨a, b, rest, hperm, hexec⟩ := h.exec_tmerge (by omega)
    obtain rfl : rest = [] := List.length_eq_zero_iff.1 (by simpa [hlen] using hperm.length_eq.symm)
    have hstep := (stepPerformsDecodedInstruction.1 s .tmerge hbusy hhost (by rw [hphase]; rfl)).trans hexec
    refine ⟨_, _, (run_succ_of_next hstep).trans (run_zero _), rfl, (h.merged hperm).of_root_phase _ _, ?_⟩
    exact merged_nn_toNat a b [] (h.nn_lt (by omega))
  | succ n ih =>
    obtain ⟨a, b, rest, hperm, hexec⟩ := h.exec_tmerge (by omega)
    have hrest : rest.length = n + 1 := by simpa [hlen] using hperm.length_eq.symm
    have hne : rest ≠ [] := List.ne_nil_of_length_eq_add_one hrest
    have hstep := (stepPerformsDecodedInstruction.1 s .tmerge hbusy hhost (by rw [hphase]; rfl)).trans hexec
    rw [if_neg hne, if_neg hne] at hstep
    obtain ⟨t, tr', hrun, ht, hforest, hroot⟩ := ih ((h.merged hperm).of_root_phase s.root Phase.tmerge) hbusy hhost rfl
      (by rw [merged_pq, List.length_append, hrest, List.length_singleton])
    exact ⟨t, tr', (run_succ_of_next hstep).trans hrun, ht, hforest, hroot⟩

/-- The trees TSEED seeds the queue with: entry `k` is the leaf of the `k`-th smallest key. -/
def State.seedling (s : State) (i : NodeIx) : HTree := .leaf (s.keys.getD i.toNat 0)

/-- After TSEED with two keys or more the queue holds a forest of leaves. -/
theorem exec_tseed_forest {s : State} (hnn : s.nn = 0) (hpq : s.pq = []) (hm : s.m.toNat = s.keys.length) (hlen : 2 ≤ s.keys.length) :
    ∃ t, exec .tseed s = .next t ∧ t = { s with node := t.node, nn := t.nn, pq := t.pq, phase := Phase.tmerge } ∧
      t.pq.length = s.keys.length ∧ t.Forest s.seedling := by
  obtain ⟨t, hexec, ht, htnn, htpq, hleaf, -⟩ := tseedSeedsLeaves s hnn hpq hm hlen
  have hle := length_keys_le s
  have hkeys : t.keys = s.keys := by rw [ht]; rfl
  have hix : ∀ k < s.keys.length, (BitVec.ofNat 9 k).toNat = k := fun k hk => by
    rw [BitVec.toNat_ofNat, Nat.mod_eq_of_lt (by omega)]
  have hmem : ∀ i ∈ t.pq, i.toNat < s.keys.length := by
    rw [htpq, List.forall_mem_map]
    exact fun k hk => (hix k (List.mem_range.1 hk)).trans_lt (List.mem_range.1 hk)
  have hlength : t.pq.length = s.keys.length := by simp [htpq]
  refine ⟨t, hexec, ht, hlength, ?_, ?_, fun k hk x hx hkind => ?_, fun i hi => ?_, ?_, ?_⟩
  · rw [htpq]
    refine List.nodup_range.map_on fun j hj k hk hjk => ?_
    rw [← hix j (List.mem_range.1 hj), hjk, hix k (List.mem_range.1 hk)]
  · rwa [htnn]
  · rw [hleaf k (htnn ▸ hk), Option.some.injEq] at hx
    rw [← hx] at hkind
    cases hkind
  · rw [State.seedling, List.getD_eq_getElem _ _ (hmem i hi)]
    refine .leaf ((hleaf i.toNat (hmem i hi)).trans ?_)
    rw [ht]
    rfl
  · have hsymbols : (t.pq.flatMap fun i => (s.seedling i).symbols) = s.keys := by
      simp only [htpq, List.flatMap_map, State.seedling, symbols_leaf, ← List.map_eq_flatMap]
      refine List.ext_getElem (by simp) fun k _ hk => ?_
      rw [List.getElem_map, List.getElem_range, hix k hk, List.getD_eq_getElem _ _ hk]
    rw [hsymbols, hkeys]
  · rw [htnn, hlength, hkeys]
    omega

/-- With two keys or more, `M` steps from TSEED lead to one tree and to CGEN. -/
theorem run_construction {s : State} (hbusy : s.state = .busy) (hhost : s.host = []) (hphase : s.phase = Phase.tseed)
    (hnn : s.nn = 0) (hpq : s.pq = []) (hm : s.m.toNat = s.keys.length) (hlen : 2 ≤ s.keys.length) :
    ∃ t tr, run s.keys.length s = .next t ∧
      t = { s with node := t.node, nn := t.nn, pq := [t.root], root := t.root, phase := Phase.cgen } ∧
      t.Forest tr ∧ t.nn.toNat = t.root.toNat + 1 := by
  obtain ⟨n, hn⟩ : ∃ n, s.keys.length = n + 2 := ⟨s.keys.length - 2, by omega⟩
  obtain ⟨u, hexec, hu, hulen, hforest⟩ := exec_tseed_forest hnn hpq hm hlen
  obtain ⟨hubusy, huhost, huphase⟩ : u.state = .busy ∧ u.host = [] ∧ u.phase = Phase.tmerge := by
    rw [hu]
    exact ⟨hbusy, hhost, rfl⟩
  obtain ⟨t, tr, hrun, ht, hforest', hlast⟩ := hforest.run_tmerge n hubusy huhost huphase (hulen.trans hn)
  have hstep := (stepPerformsDecodedInstruction.1 s .tseed hbusy hhost (by rw [hphase]; rfl)).trans hexec
  exact ⟨t, tr, hn ▸ (run_succ_of_next hstep).trans hrun, ht.trans (by rw [hu]), hforest', hlast⟩

/-! ### The finished tree (rule R129) -/

theorem exists_fork_of_symbols {T : HTree} (hhole : T.hasHole = false) (hlen : 2 ≤ T.symbols.length) : ∃ l r, T = .fork l r := by
  cases T with
  | leaf sym => simp at hlen
  | hole => simp [HTree.hasHole] at hhole
  | fork l r => exact ⟨l, r, rfl⟩

/-- When one tree is left it is the tree of the keys. -/
theorem State.Forest.hasTree {t : State} {tr : NodeIx → HTree} (h : t.Forest tr) (hpq : t.pq = [t.root])
    (hlen : 2 ≤ t.keys.length) : t.HasTree (tr t.root) ∧ (tr t.root).symbols.Perm t.keys ∧ (tr t.root).hasHole = false ∧
      nfreqOf t.node t.root = t.countSum t.keys := by
  obtain ⟨hheld, hhole, hweight⟩ := h.carries t.root (by simp [hpq])
  have hperm : (tr t.root).symbols.Perm t.keys := by simpa [hpq] using h.symbols
  have hdepth := depth_lt_length_symbols hhole
  have hle := length_keys_le t
  rw [hperm.length_eq] at hdepth
  exact ⟨⟨hheld, exists_fork_of_symbols hhole (hperm.length_eq ▸ hlen), hperm.nodup_iff.2 (nodup_keys t), by omega⟩,
    hperm, hhole, hweight.trans (countSum_perm t hperm)⟩

/-- The single-symbol tree TSEED makes of one key (rule R125). -/
theorem singleSymbol_hasTree {t : State} {x : Byte} {leaf hole root : Node} (hroot : t.root = 2) (h0 : t.node[0]? = some leaf)
    (h1 : t.node[1]? = some hole) (h2 : t.node[2]? = some root) (hleaf : leaf.kind = .leaf ∧ leaf.ph = false ∧ leaf.sym = x)
    (hhole : hole.kind = .leaf ∧ hole.ph = true) (hkind : root.kind = .internal) (hleft : root.left = 0) (hright : root.right = 1) :
    t.HasTree (.fork (.leaf x) .hole) where
  held := by
    rw [hroot]
    refine ⟨root, h2, hkind, ?_, ?_⟩
    · rw [hleft]
      exact ⟨leaf, h0, hleaf⟩
    · rw [hright]
      exact ⟨hole, h1, hhole⟩
  rootIsFork := ⟨_, _, rfl⟩
  distinct := by simp [HTree.codes]
  bounded := by simp [HTree.depth]

/-- Settles O30: with one key TSEED makes the single-symbol tree; with more it seeds a forest, every TMERGE keeps it one
(`State.Forest.merged`), and after `M - 1` of them one tree is left. -/
theorem builtTreeCarriesTheKeys : Obligations.BuiltTreeCarriesTheKeys := by
  intro s hbusy hhost hphase hnn hpq hm hkeys
  by_cases hone : s.keys.length = 1
  · obtain ⟨x, hx⟩ := List.length_eq_one_iff.1 hone
    obtain ⟨t, hexec, ht, h0, h1, h2, -⟩ :=
      tseedSingleSymbolTree s x hnn hpq (BitVec.eq_of_toNat_eq (hm.trans hone)) hx
    have hstep := (stepPerformsDecodedInstruction.1 s .tseed hbusy hhost (by rw [hphase]; rfl)).trans hexec
    have hroot : t.root = 2 := by rw [ht]
    have hnn' : t.nn = 3 := by rw [ht]
    refine ⟨t, .fork (.leaf x) .hole, ?_, ?_, ?_, ?_, fun h => by omega, fun y hy => ⟨hnn', hroot, ?_⟩, ?_⟩
    · rw [hone]
      exact (run_succ_of_next hstep).trans (run_zero t)
    · rw [hroot, hnn']
      exact ht
    · exact singleSymbol_hasTree hroot h0 h1 h2 ⟨rfl, rfl, rfl⟩ ⟨rfl, rfl⟩ rfl rfl rfl
    · rw [hx]
      rfl
    · rw [List.singleton_inj.1 (hx.symm.trans hy)]
    · rw [hroot, hx, List.map_singleton, List.sum_singleton]
      exact (nfreqOf_of_getElem? (i := 2) h2).trans (toNat_nfreq_leafFor s x)
  · have hpos := List.length_pos_iff.2 hkeys
    obtain ⟨t, tr, hrun, ht, hforest, hlast⟩ := run_construction hbusy hhost hphase hnn hpq hm (by omega)
    have htkeys : t.keys = s.keys := by rw [ht]; rfl
    have htpq : t.pq = [t.root] := by rw [ht]
    obtain ⟨htree, hsymbols, hhole, hweight⟩ := hforest.hasTree htpq (by rw [htkeys]; omega)
    have hcount := hforest.count
    rw [htpq, List.length_singleton, htkeys] at hcount
    refine ⟨t, tr t.root, hrun, ht, htree, htkeys ▸ hsymbols, fun _ => ⟨hhole, by omega, by omega⟩, fun x hx => ?_, ?_⟩
    · exact absurd (congrArg List.length hx) hone
    · rw [hweight, htkeys, ht]
      rfl

end Sys2Proof.Machine
end

section
/-! PROOFS of the family 42_code_table_generator.md: CGEN writes every leaf's path (O31), and no code of a tree begins another (O32). CGEN's
recursion over the arena is a list of writes, one for each pair of `HTree.codes`. -/

namespace Sys2Proof.Machine

/-! ### The paths of a tree -/

theorem length_le_depth_of_mem_codes {T : HTree} {e : Byte × List Bool} (h : e ∈ T.codes) : e.2.length ≤ T.depth := by
  induction T generalizing e with
  | leaf sym => exact (congrArg (fun x => x.2.length) (List.mem_singleton.1 h)).le
  | hole => simp [HTree.codes] at h
  | fork l r ihl ihr =>
    simp only [HTree.codes, List.mem_append, List.mem_map] at h
    obtain ⟨e', he', rfl⟩ | ⟨e', he', rfl⟩ := h
    · exact Nat.succ_le_succ ((ihl he').trans (Nat.le_max_left _ _))
    · exact Nat.succ_le_succ ((ihr he').trans (Nat.le_max_right _ _))

theorem path_ne_nil_of_mem_codes_fork {l r : HTree} {e : Byte × List Bool} (h : e ∈ (HTree.fork l r).codes) : e.2 ≠ [] := by
  simp only [HTree.codes, List.mem_append, List.mem_map] at h
  obtain ⟨e', -, rfl⟩ | ⟨e', -, rfl⟩ := h <;> exact List.cons_ne_nil _ _

/-- A path that goes through a leaf ends there: only a leaf's own path extends it. -/
theorem eq_of_path_prefix {T : HTree} {e e' : Byte × List Bool} (h : e ∈ T.codes) (h' : e' ∈ T.codes) (hpre : e.2 <+: e'.2) : e = e' := by
  induction T generalizing e e' with
  | leaf sym => exact (List.mem_singleton.1 h).trans (List.mem_singleton.1 h').symm
  | hole => simp [HTree.codes] at h
  | fork l r ihl ihr =>
    simp only [HTree.codes, List.mem_append, List.mem_map] at h h'
    obtain ⟨x, hx, rfl⟩ | ⟨x, hx, rfl⟩ := h <;> obtain ⟨y, hy, rfl⟩ | ⟨y, hy, rfl⟩ := h' <;>
      obtain ⟨hbit, hrest⟩ := List.cons_prefix_cons.1 hpre
    · rw [ihl hx hy hrest]
    · cases hbit
    · cases hbit
    · rw [ihr hx hy hrest]

/-! ### One entry written (rule R140) -/

theorem getLsbD_writePath_of_lt {bits : BitVec 255} {k j : Nat} {path : List Bool} (hroom : k + path.length ≤ 255) (hj : j < k) :
    (writePath bits k path).getLsbD j = bits.getLsbD j := by
  induction path generalizing bits k with
  | nil => rfl
  | cons b path ih =>
    rw [List.length_cons] at hroom
    rw [writePath, ih (by omega) (by omega), getLsbD_setBit _ _ _ _ (by omega), if_neg (by omega)]

/-- The bits that `writePath` writes from bit `k` on read back as the path. -/
theorem map_getLsbD_writePath {bits : BitVec 255} {k : Nat} {path : List Bool} (hroom : k + path.length ≤ 255) :
    (List.range' k path.length).map (writePath bits k path).getLsbD = path := by
  induction path generalizing bits k with
  | nil => rfl
  | cons b path ih =>
    rw [List.length_cons] at hroom
    have hhead : (writePath bits k (b :: path)).getLsbD k = b := by
      rw [writePath, getLsbD_writePath_of_lt (by omega) (by omega), getLsbD_setBit _ _ _ _ (by omega), if_pos rfl]
    rw [List.length_cons, List.range'_succ, List.map_cons, hhead]
    exact congrArg (b :: ·) (ih (by omega))

/-- The code of a symbol is this path: its length and its bits. -/
def State.HasPath (s : State) (sym : Byte) (path : List Bool) : Prop :=
  (s.codeOf sym).len.toNat = path.length ∧ s.codeBitsOf sym = path

/-- A symbol's code takes a path. -/
def State.withPath (s : State) (e : Byte × List Bool) : State := { s with code := setCode s.code e.1 e.2 }

theorem withPath_codeOf_other (s : State) {e : Byte × List Bool} {sym : Byte} (h : sym ≠ e.1) : (s.withPath e).codeOf sym = s.codeOf sym :=
  Vector.getElem_set_ne e.1.isLt sym.isLt fun heq => h (BitVec.eq_of_toNat_eq heq.symm)

theorem withPath_codeOf_same (s : State) {e : Byte × List Bool} (h : e.2 ≠ []) :
    (s.withPath e).codeOf e.1 = { len := BitVec.ofNat 8 e.2.length, bits := writePath (s.codeOf e.1).bits 0 e.2 } := by
  simp [State.withPath, State.codeOf, setCode, h]

theorem withPath_hasPath (s : State) {e : Byte × List Bool} (hne : e.2 ≠ []) (hlen : e.2.length ≤ 255) :
    (s.withPath e).HasPath e.1 e.2 := by
  have hlength : ((s.withPath e).codeOf e.1).len.toNat = e.2.length := by
    rw [withPath_codeOf_same s hne, BitVec.toNat_ofNat, Nat.mod_eq_of_lt (by omega)]
  refine ⟨hlength, ?_⟩
  rw [State.codeBitsOf, hlength, withPath_codeOf_same s hne, List.range_eq_range']
  exact map_getLsbD_writePath (by omega)

/-! ### A list of entries written -/

/-- The codes of some symbols take their paths, one after the other. -/
def State.withPaths (s : State) (es : List (Byte × List Bool)) : State := es.foldl State.withPath s

@[simp] theorem withPaths_cons (s : State) (e : Byte × List Bool) (es : List (Byte × List Bool)) :
    s.withPaths (e :: es) = (s.withPath e).withPaths es := rfl

@[simp] theorem withPaths_append (s : State) (es es' : List (Byte × List Bool)) :
    s.withPaths (es ++ es') = (s.withPaths es).withPaths es' := List.foldl_append

theorem withPaths_frame (s : State) (es : List (Byte × List Bool)) : s.withPaths es = { s with code := (s.withPaths es).code } := by
  induction es generalizing s with
  | nil => rfl
  | cons e es ih => exact ih (s.withPath e)

theorem withPaths_codeOf_of_notMem {s : State} {es : List (Byte × List Bool)} {sym : Byte} (h : sym ∉ es.map Prod.fst) :
    (s.withPaths es).codeOf sym = s.codeOf sym := by
  induction es generalizing s with
  | nil => rfl
  | cons e es ih =>
    obtain ⟨hne, hrest⟩ := List.ne_and_not_mem_of_not_mem_cons h
    exact (ih hrest).trans (withPath_codeOf_other s hne)

theorem State.HasPath.congr {s t : State} {sym : Byte} {path : List Bool} (h : s.HasPath sym path) (hcode : t.codeOf sym = s.codeOf sym) :
    t.HasPath sym path := by
  rw [State.HasPath, State.codeBitsOf, hcode]
  exact h

theorem withPaths_hasPath {s : State} {es : List (Byte × List Bool)} (hdistinct : (es.map Prod.fst).Nodup) (hne : ∀ e ∈ es, e.2 ≠ [])
    (hlen : ∀ e ∈ es, e.2.length ≤ 255) : ∀ e ∈ es, (s.withPaths es).HasPath e.1 e.2 := by
  induction es generalizing s with
  | nil => exact fun e he => nomatch he
  | cons e es ih =>
    obtain ⟨hfresh, hrest⟩ := List.nodup_cons.1 hdistinct
    obtain ⟨hne, hnes⟩ := List.forall_mem_cons.1 hne
    obtain ⟨hlen, hlens⟩ := List.forall_mem_cons.1 hlen
    exact List.forall_mem_cons.2
      ⟨(withPath_hasPath s hne hlen).congr (withPaths_codeOf_of_notMem hfresh), ih hrest hnes hlens⟩

/-! ### CGEN on a tree (rule R140) -/

/-- The codes of a tree whose root is reached by a path. -/
def HTree.codesFrom (path : List Bool) (T : HTree) : List (Byte × List Bool) := T.codes.map fun e => (e.1, path ++ e.2)

theorem codesFrom_nil (T : HTree) : T.codesFrom [] = T.codes := List.map_id _

theorem codesFrom_leaf (path : List Bool) (sym : Byte) : (HTree.leaf sym).codesFrom path = [(sym, path)] := by
  simp [HTree.codesFrom, HTree.codes]

theorem codesFrom_fork (path : List Bool) (l r : HTree) :
    (HTree.fork l r).codesFrom path = l.codesFrom (path ++ [false]) ++ r.codesFrom (path ++ [true]) := by
  simp [HTree.codesFrom, HTree.codes, Function.comp_def]

theorem visit_leaf {node : Vector Node 511} {n : Nat} {i : NodeIx} {x : Node} {path : List Bool} (s : State)
    (hx : node[i.toNat]? = some x) (hkind : x.kind = .leaf) (hph : x.ph = false) :
    visit node (n + 1) i path s.code = some (s.withPath (x.sym, path)).code := by
  simp [visit, hx, hkind, hph, State.withPath]

theorem visit_hole {node : Vector Node 511} {n : Nat} {i : NodeIx} {x : Node} {path : List Bool} (code : Vector Code 256)
    (hx : node[i.toNat]? = some x) (hkind : x.kind = .leaf) (hph : x.ph = true) : visit node (n + 1) i path code = some code := by
  simp [visit, hx, hkind, hph]

theorem visit_fork {node : Vector Node 511} {n : Nat} {i : NodeIx} {x : Node} {path : List Bool} (code : Vector Code 256)
    (hx : node[i.toNat]? = some x) (hkind : x.kind = .internal) : visit node (n + 1) i path code =
      (visit node n x.left (path ++ [false]) code).bind (visit node n x.right (path ++ [true])) := by
  simp [visit, hx, hkind]

/-- The recursion of rule R140 writes the codes of the tree in order, each path behind the path to the tree's root. -/
theorem visit_of_holds {node : Vector Node 511} {T : HTree} {n : Nat} {i : NodeIx} (s : State) (path : List Bool)
    (h : Holds node i T) (hdepth : T.depth < n) : visit node n i path s.code = some (s.withPaths (T.codesFrom path)).code := by
  obtain ⟨n, rfl⟩ := Nat.exists_eq_succ_of_ne_zero (Nat.ne_zero_of_lt hdepth)
  induction T generalizing s n i path with
  | leaf sym =>
    obtain ⟨x, hx, hkind, hph, rfl⟩ := h
    rw [visit_leaf s hx hkind hph, codesFrom_leaf]
    rfl
  | hole =>
    obtain ⟨x, hx, hkind, hph⟩ := h
    exact visit_hole s.code hx hkind hph
  | fork l r ihl ihr =>
    obtain ⟨x, hx, hkind, hl, hr⟩ := h
    obtain ⟨hdl, hdr⟩ := max_lt_iff.1 (Nat.lt_of_succ_lt_succ hdepth)
    obtain ⟨n, rfl⟩ := Nat.exists_eq_succ_of_ne_zero (Nat.ne_zero_of_lt hdl)
    rw [visit_fork s.code hx hkind, ihl s (path ++ [false]) hl n hdl, Option.bind_some, ihr _ (path ++ [true]) hr n hdr,
      codesFrom_fork, withPaths_append]

/-- CGEN on the tree of a state: the codes of its leaves are their paths, and nothing else changes. -/
theorem cgenOp_of_hasTree {s : State} {T : HTree} (h : s.HasTree T) : cgenOp s = .ok (s.withPaths T.codes) := by
  have hvisit := visit_of_holds (n := Config.lenMax + 1) s [] h.held (Nat.lt_succ_of_le h.bounded)
  unfold cgenOp
  rw [hvisit, codesFrom_nil, withPaths_frame]

theorem hasPath_of_hasTree {s : State} {T : HTree} (h : s.HasTree T) : ∀ e ∈ T.codes, (s.withPaths T.codes).HasPath e.1 e.2 := by
  obtain ⟨l, r, rfl⟩ := h.rootIsFork
  exact withPaths_hasPath h.distinct (fun e he => path_ne_nil_of_mem_codes_fork he)
    fun e he => (length_le_depth_of_mem_codes he).trans h.bounded

/-! ### The size check behind CGEN (rules R213, R216) -/

theorem outcome_afterCodes (u : State) : (afterCodes u).outcome = .next (
    if u.ctrlOp = true then
      if u.cfg.outHolds u.orig.toNat = true then u.goto Phase.dwalk else u.failureExit .capacityExceeded
    else
      if u.cfg.outHolds u.containerLen = true then u.goto Phase.cenc else u.failureExit .capacityExceeded) := by
  unfold afterCodes
  split_ifs <;> rfl

theorem codeOf_of_afterCodes {u t : State} (h : (afterCodes u).outcome = .next t) (sym : Byte) : t.codeOf sym = u.codeOf sym := by
  rw [outcome_afterCodes] at h
  cases h
  split_ifs <;> rfl

theorem exec_cgen_of_hasTree {s : State} {T : HTree} (h : s.HasTree T) :
    exec .cgen s = (afterCodes (s.withPaths T.codes)).outcome := by
  change ((cgenOp s).andThen afterCodes).outcome = _
  rw [cgenOp_of_hasTree h]
  rfl

theorem hasPath_of_exec_cgen {s t : State} {T : HTree} (h : s.HasTree T) (hexec : exec .cgen s = .next t) :
    ∀ e ∈ T.codes, t.HasPath e.1 e.2 :=
  fun e he => (hasPath_of_hasTree h e he).congr (codeOf_of_afterCodes ((exec_cgen_of_hasTree h).symm.trans hexec) e.1)

/-! ### The obligations -/

/-- Settles O31: the entries CGEN writes are the codes of the tree, and the size check behind it changes no entry. -/
theorem cgenWritesPaths : Obligations.CgenWritesPaths := by
  intro s T h
  refine ⟨s.withPaths T.codes, withPaths_frame s _, hasPath_of_hasTree h, fun sym hsym => withPaths_codeOf_of_notMem hsym, ?_⟩
  rw [exec_cgen_of_hasTree h, outcome_afterCodes, withPaths_frame]
  rfl

/-- Settles O32: the codes are the paths to two different leaves of a tree with an internal root. -/
theorem codesArePrefixFree : Obligations.CodesArePrefixFree := by
  intro s t T h hexec a b ha hb hab
  obtain ⟨e, he, rfl⟩ := List.mem_map.1 ha
  obtain ⟨e', he', rfl⟩ := List.mem_map.1 hb
  have hpath := hasPath_of_exec_cgen h hexec
  rw [(hpath e he).2, (hpath e' he').2]
  obtain ⟨l, r, rfl⟩ := h.rootIsFork
  exact ⟨path_ne_nil_of_mem_codes_fork he, fun hpre => hab (congrArg Prod.fst (eq_of_path_prefix he he' hpre))⟩

end Sys2Proof.Machine
end

section
/-! PROOFS of the family 43_bit_packer.md, first part: every step keeps the invariant (O47). While a run is in progress every operation,
going on or raising, keeps `State.Running`; the two exits turn it into the invariant of DONE; the host's moves touch little that the
invariant speaks of. -/

namespace Sys2Proof.Machine

/-! ### A run in progress -/

/-- What the invariant says while a run is in progress: its clauses about `PHASE`, the result and the end of OUT are void then. -/
structure State.Running (s : State) : Prop where
  busy : s.state = .busy
  notOk : s.ok = false
  noError : s.err = none
  inCanonical : Memory.wf s.inBuf
  outCanonical : Memory.wf s.outBuf
  queueIsSet : s.pq.Pairwise fun i j => i.toNat < j.toNat
  accumulatorClear : ∀ k, s.bwCur.toNat ≤ k → s.bwAcc.getLsbD k = false
  outputListed : ∀ a < s.outLen, (Memory.read? s.outBuf a).isSome = true

theorem State.Inv.running {s : State} (h : s.Inv) (hbusy : s.state = .busy) : s.Running :=
  have hclear := h.clearWhileRunning (by rw [hbusy]; nofun)
  { h with busy := hbusy, notOk := hclear.1, noError := hclear.2 }

section
variable {s t : State}

theorem State.Running.inv (h : s.Running) : s.Inv :=
  { h with
    idlePhase := fun hs => nomatch h.busy.symm.trans hs
    donePhase := fun hs => nomatch h.busy.symm.trans hs
    clearWhileRunning := fun _ => ⟨h.notOk, h.noError⟩
    resultIsEither := fun hs => nomatch h.busy.symm.trans hs
    specifiedOutput := fun hs => absurd h.busy hs }

/-- The failure exit leaves nothing of OUT (rule R240). -/
theorem State.Running.failureExit (h : s.Running) (f : Failure) : (s.failureExit f).Inv :=
  { h with
    outCanonical := wf_below h.outCanonical 0
    idlePhase := nofun
    donePhase := fun _ => rfl
    clearWhileRunning := fun hs => absurd rfl hs
    resultIsEither := fun _ => ⟨nofun, nofun⟩
    specifiedOutput := fun _ _ hc => (mem_below.1 hc).2
    outputListed := nofun }

/-- The success exit keeps of OUT what lies before `OUT_LEN` (rules R27, R214). -/
theorem State.Running.successExit (h : s.Running) : s.successExit.Inv :=
  { h with
    outCanonical := wf_below h.outCanonical s.outLen
    idlePhase := nofun
    donePhase := fun _ => rfl
    clearWhileRunning := fun hs => absurd rfl hs
    resultIsEither := fun _ => ⟨fun _ => rfl, fun _ => rfl⟩
    specifiedOutput := fun _ _ hc => (mem_below.1 hc).2
    outputListed := fun a ha => (read?_below s.outBuf ha).symm ▸ h.outputListed a ha }

/-- The form in which the frames of the operations give it: `t` is `t` with the fields of `s` that `State.Running` speaks of. -/
theorem State.Running.of_eq (h : s.Running)
    (e : t = { t with state := s.state, ok := s.ok, err := s.err, inBuf := s.inBuf, outBuf := s.outBuf, outLen := s.outLen, pq := s.pq,
                      bwAcc := s.bwAcc, bwCur := s.bwCur }) : t.Running := by
  rw [e]
  exact { h with }

theorem State.Running.goto (h : s.Running) (p : PhaseCode) : (s.goto p).Running := { h with }

/-! ### Parts of an operation -/

theorem within_each_of_keeps {α : Type} {body : α → State → Flow} {P : State → Prop} (hbody : ∀ x u, P u → (body x u).Within P)
    (xs : List α) (h : P s) : (Flow.each body xs s).Within P := by
  induction xs generalizing s with
  | nil => exact h
  | cons x xs ih => exact within_andThen (hbody x s h) (fun _ hu => hu) fun u hu => ih hu

theorem within_nested_running {op : State → Flow} (hop : ∀ u : State, u.Running → (op u).Within State.Running) (inner outer : PhaseCode)
    (h : s.Running) : (nested inner outer op s).Within State.Running :=
  within_andThen (hop _ (h.goto inner)) (fun _ hu => hu) fun _ hu => hu.goto outer

/-- An `Append` lists the bytes it adds (rules R64, R65). -/
theorem append_running (h : s.Running) (bs : List Byte) : (s.append bs).Within State.Running := by
  cases hroom : s.cfg.outHolds (s.outLen + bs.length) with
  | false => rw [append_of_not_holds hroom]; exact within_stopped
  | true =>
    rw [append_of_holds hroom]
    refine { h with outCanonical := wf_writeBytes h.outCanonical s.outLen bs, outputListed := fun a ha => ?_ }
    by_cases hlt : a < s.outLen
    · rw [read?_writeBytes_outside s.outBuf bs (.inl hlt)]
      exact h.outputListed a hlt
    · obtain ⟨j, rfl⟩ := Nat.exists_eq_add_of_le (Nat.le_of_not_lt hlt)
      rw [read?_writeBytes_inside s.outBuf s.outLen bs (Nat.lt_of_add_lt_add_left ha)]
      rfl

/-! ### The operations that write neither OUT nor the bit writer -/

theorem initWork_running (h : s.Running) : (initWork s).Running :=
  { h with
    queueIsSet := List.Pairwise.nil
    accumulatorClear := fun _ _ => BitVec.getLsbD_zero
    outputListed := nofun }

theorem initOp_running (h : s.Running) : (initOp s).Within State.Running :=
  (initOp_frame s).mono fun _ e => e ▸ initWork_running h

theorem fcountOp_running (h : s.Running) : (fcountOp s).Within State.Running :=
  (fcountOp_frame s).mono fun _ e => h.of_eq (by rw [e])

theorem cparseOp_running (h : s.Running) : (cparseOp s).Within State.Running :=
  (cparseOp_frame s).mono fun _ e => h.of_eq (by rw [e])

theorem cgenOp_running (h : s.Running) : (cgenOp s).Within State.Running :=
  (cgenOp_frame s).mono fun _ e => h.of_eq (by rw [e])

theorem rbitOp_running (h : s.Running) : (rbitOp s).Within State.Running :=
  (rbitOp_frame s).mono fun _ e => h.of_eq (by rw [e])

/-! ### The tree builder keeps the queue a set -/

theorem addNode_running (h : s.Running) (n : Node) : (s.addNode n).Within State.Running := by
  unfold State.addNode
  split
  · exact { h with queueIsSet := pairwise_pqInsert h.queueIsSet }
  · exact within_stopped

theorem tseedOp_running (h : s.Running) : (tseedOp s).Within State.Running := by
  unfold tseedOp
  split
  · exact h
  · refine within_andThen (within_each_of_keeps (fun sym u hu => addNode_running hu _) s.keys h) (fun _ hu => hu) fun u hu => ?_
    split
    · exact { hu with queueIsSet := List.pairwise_singleton _ _ }
    · exact hu

theorem pairwise_of_extractMin {node : Vector Node 511} {pq rest : List NodeIx} {a : NodeIx} (h : extractMin node pq = some (a, rest))
    (hpq : pq.Pairwise fun i j => i.toNat < j.toNat) : rest.Pairwise fun i j => i.toNat < j.toNat := by
  obtain ⟨-, -, rfl⟩ := extractMin_spec h
  exact hpq.filter _

theorem tmergeOp_running (h : s.Running) : (tmergeOp s).Within State.Running := by
  unfold tmergeOp
  split
  · split
    · exact within_stopped
    · next a pq1 ha =>
      split
      · exact within_stopped
      · next b pq2 hb =>
        have hset := pairwise_of_extractMin hb (pairwise_of_extractMin ha h.queueIsSet)
        exact addNode_running (s := { s with pq := pq2 }) { h with queueIsSet := hset } _
  · exact within_stopped

/-! ### The operations that append -/

theorem cencOp_running (h : s.Running) : (cencOp s).Within State.Running :=
  append_running (s := { s with orig := s.inLen }) { h with } _

/-- The bit is written at the cursor, and the cursor moves past it: above it the accumulator stays clear (rule R150). -/
theorem wbitOp_running (h : s.Running) : (wbitOp s).Within State.Running := by
  unfold wbitOp
  dsimp only
  split
  · exact within_andThen (append_running h _) (fun _ hu => hu) fun u hu => { hu with accumulatorClear := fun _ _ => BitVec.getLsbD_zero }
  · next hcur =>
    refine { h with accumulatorClear := fun k hk => ?_ }
    change (s.bwCur + 1).toNat ≤ k at hk
    have hk' : s.bwCur.toNat + 1 ≤ k := by bv_omega
    rw [getLsbD_setBit _ _ _ _ (by omega), if_neg (by omega)]
    exact h.accumulatorClear k (by omega)

theorem flushOp_running (h : s.Running) : (flushOp s).Within State.Running := by
  unfold flushOp
  split
  · exact h
  · exact within_andThen (append_running h _) (fun _ hu => hu) fun u hu => { hu with accumulatorClear := fun _ _ => BitVec.getLsbD_zero }

theorem putcodeOp_running (h : s.Running) : (putcodeOp s).Within State.Running := by
  refine within_each_of_keeps (fun k u hu => ?_) _ h
  exact within_nested_running (fun _ => wbitOp_running) _ _ (s := { u with opBit := _ }) { hu with }

theorem packByte_running (h : s.Running) : (packByte s).Within State.Running :=
  within_andThen (within_nested_running (fun _ => putcodeOp_running) _ _ (s := { s with opSym := _ }) { h with }) (fun _ hu => hu)
    fun _ hu => { hu with }

theorem packLoop_running (n : Nat) (h : s.Running) : (packLoop n s).Within State.Running := by
  induction n generalizing s with
  | zero => exact h
  | succ n ih =>
    unfold packLoop
    split
    · exact within_andThen (packByte_running h) (fun _ hu => hu) fun _ hu => ih hu
    · exact h

theorem packOp_running (h : s.Running) : (packOp s).Within State.Running := packLoop_running _ (s := { s with inPos := 0 }) { h with }

theorem arrive_running (h : s.Running) (n : NodeIx) : (arrive s n).Within State.Running := by
  unfold arrive
  split
  · exact within_stopped
  · split
    · exact { h with }
    · split
      · exact h
      · exact within_andThen (append_running h _) (fun _ hu => hu) fun _ hu => { hu with }

theorem dstepOp_running (h : s.Running) : (dstepOp s).Within State.Running := by
  refine within_andThen (within_nested_running (fun _ => rbitOp_running) _ _ h) (fun _ hu => hu) fun u hu => ?_
  split
  · exact hu
  · split
    · exact within_stopped
    · exact arrive_running hu _

theorem dwalkLoop_running (n : Nat) (h : s.Running) : (dwalkLoop n s).Within State.Running := by
  induction n generalizing s with
  | zero => exact h
  | succ n ih =>
    unfold dwalkLoop
    split
    · exact within_andThen (within_nested_running (fun _ => dstepOp_running) _ _ h) (fun _ hu => hu) fun _ hu => ih hu
    · exact h

theorem dwalkOp_running (h : s.Running) : (dwalkOp s).Within State.Running :=
  dwalkLoop_running _ (s := { s with walkCur := s.root }) { h with }

/-! ### The sequencer's moves and the meanings -/

theorem afterInit_running (h : s.Running) : (afterInit s).Within State.Running := by
  obtain ⟨-, e⟩ | ⟨-, -, e⟩ | ⟨-, -, e⟩ := afterInit_cases s <;> rw [e]
  · exact h.goto _
  · exact h
  · exact h.goto _

theorem afterQueue_running (h : s.Running) : (afterQueue s).Within State.Running := by
  obtain ⟨-, e⟩ | ⟨r, -, e⟩ | ⟨-, e⟩ := afterQueue_cases s <;> rw [e]
  · exact within_stopped
  · exact { h with }
  · exact h.goto _

theorem afterCodes_running (h : s.Running) : (afterCodes s).Within State.Running := by
  obtain ⟨p, e, -⟩ | ⟨e, -⟩ := afterCodes_cases s <;> rw [e]
  · exact h.goto p
  · exact h

theorem afterTable_running (h : s.Running) : (afterTable s).Within State.Running := h.goto _
theorem afterHeader_running (h : s.Running) : (afterHeader s).Within State.Running := h.goto _
theorem afterPack_running (h : s.Running) : (afterPack s).Within State.Running := h.goto _

/-- An operation goes on in a run still in progress, or takes the failure exit (rule R240). -/
theorem Flow.Within.inv_of_outcome {a : Flow} (ha : a.Within State.Running) (h : a.outcome = .next t) : t.Inv := by
  obtain hok | ⟨f, u, hraised, rfl⟩ := outcome_eq_next.1 h
  · exact (ha.of_ok hok).inv
  · exact (ha.of_raised hraised).failureExit f

/-- The same for an operation and the sequencer's move behind it. -/
theorem Flow.Within.inv_of_outcome_andThen {a : Flow} {b : State → Flow} (ha : a.Within State.Running)
    (hb : ∀ u : State, u.Running → (b u).Within State.Running) (h : (a.andThen b).outcome = .next t) : t.Inv :=
  (within_andThen ha (fun _ hu => hu) hb).inv_of_outcome h

/-- An operation that ends the run goes on to the success exit (rule R214). -/
theorem Flow.Within.inv_of_outcome_afterOutput {a : Flow} (ha : a.Within State.Running) (h : (a.andThen afterOutput).outcome = .next t) :
    t.Inv := by
  cases a with
  | ok u => cases h; exact ha.successExit
  | raised f u => cases h; exact ha.failureExit f
  | stopped r => cases h

/-- An accepted START clears `OK` and `ERR`; one that comes while BUSY changes nothing (rules R210, R273). -/
theorem start_inv (h : s.Inv) (op : Bool) : (s.start op).Inv := by
  unfold State.start
  split
  · exact h
  · exact State.Running.inv { h with busy := rfl, notOk := rfl, noError := rfl }

/-- Every instruction performed during a run leads to a state that meets the invariant. -/
theorem State.Running.inv_of_exec {i : Instr} (h : s.Running) (hexec : exec i s = .next t) : t.Inv := by
  cases i with
  | compress => cases hexec; exact start_inv h.inv false
  | decompress => cases hexec; exact start_inv h.inv true
  | idle => cases hexec; exact h.inv
  | init => exact (initOp_running h).inv_of_outcome_andThen (fun _ => afterInit_running) hexec
  | fcount => exact (within_withInput (fcountOp_running h)).inv_of_outcome_andThen (fun _ => afterTable_running) hexec
  | cparse => exact (within_withInput (cparseOp_running h)).inv_of_outcome_andThen (fun _ => afterTable_running) hexec
  | tseed => exact (tseedOp_running h).inv_of_outcome_andThen (fun _ => afterQueue_running) hexec
  | tmerge => exact (tmergeOp_running h).inv_of_outcome_andThen (fun _ => afterQueue_running) hexec
  | cgen => exact (cgenOp_running h).inv_of_outcome_andThen (fun _ => afterCodes_running) hexec
  | cenc => exact (cencOp_running h).inv_of_outcome_andThen (fun _ => afterHeader_running) hexec
  | pack => exact (within_withInput (packOp_running h)).inv_of_outcome_andThen (fun _ => afterPack_running) hexec
  | putcode => exact (within_nested_running (fun _ => putcodeOp_running) _ _ h).inv_of_outcome hexec
  | wbit => exact (within_nested_running (fun _ => wbitOp_running) _ _ h).inv_of_outcome hexec
  | flush => exact (flushOp_running h).inv_of_outcome_afterOutput hexec
  | dwalk => exact (within_withInput (dwalkOp_running h)).inv_of_outcome_afterOutput hexec
  | dstep => exact (within_withInput (within_nested_running (fun _ => dstepOp_running) _ _ h)).inv_of_outcome hexec
  | rbit => exact (within_withInput (within_nested_running (fun _ => rbitOp_running) _ _ h)).inv_of_outcome hexec
  | done =>
    have he : exec .done s = .next s.successExit := if_pos h.busy
    cases he.symm.trans hexec
    exact h.successExit

/-- The engine's own turn: an operation of the run in progress, or nothing (rules R15, R210). -/
theorem inv_of_exec_fetch (h : s.Inv) (hexec : exec (fetch s) s = .next t) : t.Inv := by
  cases hs : s.state with
  | busy => exact (h.running hs).inv_of_exec hexec
  | idle =>
    rw [fetch_of_idle hs] at hexec
    cases hexec
    exact h
  | done =>
    have he : exec .done s = .next s := if_neg (by rw [hs]; nofun)
    rw [fetch_of_done hs, he] at hexec
    cases hexec
    exact h

/-! ### The host's moves -/

theorem guarded_eq_next {allowed : Bool} {o : Host.Outcome State Fault Refusal} :
    guarded allowed o = .next t ↔ allowed = true ∧ o = .next t := by
  cases allowed <;> simp [guarded]

theorem hostReset_inv (s : State) : (hostReset s).Inv := { resetMeetsInvariant with }

theorem reply_inv (h : s.Inv) (r : HostReply) : (s.reply r).Inv := { h with }

theorem hostSetOp_inv (h : s.Inv) (v : Word32) : (hostSetOp s v).Inv := by
  unfold hostSetOp
  split
  · exact h
  · exact { h with }

theorem hostReadStatus_inv (h : s.Inv) : (hostReadStatus s).Inv := by
  unfold hostReadStatus
  dsimp only
  split
  · exact { h with }
  · exact reply_inv h _

theorem hostWriteIn_inv {a : Nat} {bs : List Byte} (h : s.Inv) (hmove : hostWriteIn s a bs = .next t) : t.Inv := by
  unfold hostWriteIn at hmove
  split at hmove <;> cases hmove
  exact { h with inCanonical := wf_writeBytes h.inCanonical a bs }

theorem hostReadIn_inv {a n : Nat} (h : s.Inv) (hmove : hostReadIn s a n = .next t) : t.Inv := by
  unfold hostReadIn at hmove
  split at hmove <;> cases hmove
  exact reply_inv h _

theorem hostReadOut_inv {a n : Nat} (h : s.Inv) (hmove : hostReadOut s a n = .next t) : t.Inv := by
  unfold hostReadOut at hmove
  split at hmove <;> cases hmove
  exact reply_inv h _

theorem hostCopyOutToIn_inv (h : s.Inv) (hmove : hostCopyOutToIn s = .next t) : t.Inv := by
  unfold hostCopyOutToIn at hmove
  split at hmove
  · split at hmove <;> cases hmove
    exact { h with inCanonical := wf_writeBytes h.inCanonical 0 _ }
  · cases hmove

/-- A write of `CTRL` is performed as a command (rule R100) or sets `CTRL.OP` (rule R270). -/
theorem hostMove_writeCtrl_cases (s : State) (v : Word32) :
    hostMove (.writeCtrl v) s = .run .compress s ∨ hostMove (.writeCtrl v) s = .run .decompress s ∨
    hostMove (.writeCtrl v) s = .ended (.next (hostSetOp s v)) := by
  cases hd : decodeCtrl v with
  | error r => exact .inr (.inr (by simp [hostMove, hd]))
  | ok i =>
    have hrun := hostMove_writeCtrl_of_command s hd
    rw [decodeCtrl, if_pos (start_of_decodeCtrl_eq_ok hd)] at hd
    split at hd <;> cases hd
    · exact .inr (.inl hrun)
    · exact .inl hrun

/-- A move that is not performed as a command writes of the invariant's fields at most IN, unless it is a reset. -/
theorem inv_of_hostMove_ended {m : HostMove} (h : s.Inv) (hmove : hostMove m s = .ended (.next t)) : t.Inv := by
  cases m with
  | writeCtrl v =>
    obtain e | e | e := hostMove_writeCtrl_cases s v <;> cases e.symm.trans hmove
    exact hostSetOp_inv h v
  | writeIn a bs => exact hostWriteIn_inv h (guarded_eq_next.1 (Turn.ended.inj hmove)).2
  | writeInLen v => cases (guarded_eq_next.1 (Turn.ended.inj hmove)).2; exact { h with }
  | writeStatus v => cases hmove; exact h
  | writeOutLen v => cases hmove; exact h
  | readStatus => cases hmove; exact hostReadStatus_inv h
  | readCtrl => cases (guarded_eq_next.1 (Turn.ended.inj hmove)).2; exact reply_inv h _
  | readInLen => cases (guarded_eq_next.1 (Turn.ended.inj hmove)).2; exact reply_inv h _
  | readOutLen => cases (guarded_eq_next.1 (Turn.ended.inj hmove)).2; exact reply_inv h _
  | readIn a n => exact hostReadIn_inv h (guarded_eq_next.1 (Turn.ended.inj hmove)).2
  | readOut a n => exact hostReadOut_inv h (guarded_eq_next.1 (Turn.ended.inj hmove)).2
  | copyOutToIn => exact hostCopyOutToIn_inv h (guarded_eq_next.1 (Turn.ended.inj hmove)).2
  | reset => cases hmove; exact hostReset_inv s

/-- The only move performed as an instruction is a START, in the state it is made in. -/
theorem inv_of_hostMove_run {m : HostMove} {i : Instr} {u : State} (h : s.Inv) (hmove : hostMove m s = .run i u)
    (hexec : exec i u = .next t) : t.Inv := by
  cases m with
  | writeCtrl v =>
    obtain e | e | e := hostMove_writeCtrl_cases s v <;> cases e.symm.trans hmove <;> cases hexec
    · exact start_inv h false
    · exact start_inv h true
  | _ => cases hmove

end

/-- Settles O47: a step is the engine's turn, in a run in progress or at rest, or a host move; the invariant does not speak of the
host's pending moves. -/
theorem everyStepKeepsTheInvariant : Obligations.EveryStepKeepsTheInvariant := by
  intro s t h hstep
  obtain ⟨host, e⟩ | ⟨ev, rest, -, -, e⟩ := step_cases s
  · exact inv_of_exec_fetch (s := { s with host := host }) { h with } (e.symm.trans hstep)
  · have hrest : { s with host := rest }.Inv := { h with }
    rw [e] at hstep
    cases hmove : hostMove ev.move { s with host := rest } with
    | run i u =>
      rw [hmove] at hstep
      exact inv_of_hostMove_run hrest hmove hstep
    | ended o =>
      rw [hmove] at hstep
      cases hstep
      exact inv_of_hostMove_ended hrest hmove

end Sys2Proof.Machine
end

section
/-! PROOFS of the family 43_bit_packer.md, second part: WBIT (O33), FLUSH (O34), PUTCODE (O35) and PACK (O36). What each of them adds to the
bitstream is said by one relation, `Wrote`, which composes: a bit, then the bits of a code, then the codes of the input. -/

namespace Sys2Proof.Machine

/-! ### Bytes as bits, and the accumulator at the cursor (rules R67, R150) -/

theorem streamOf_append (xs ys : List Byte) : streamOf (xs ++ ys) = streamOf xs ++ streamOf ys := List.flatMap_append

theorem streamOf_singleton (b : Byte) : streamOf [b] = byteBits b := List.append_nil _

theorem take_byteBits (b : Byte) {n : Nat} (h : n ≤ 8) : (byteBits b).take n = (List.range n).map b.getLsbD := by
  rw [byteBits, ← List.map_take, List.take_range, Nat.min_eq_left h]

/-- A bit set at position `n` comes after the `n` bits below it, which stay. -/
theorem take_byteBits_setBit (acc : Byte) {n : Nat} (hn : n < 8) (b : Bool) :
    (byteBits (setBit acc n b)).take (n + 1) = (byteBits acc).take n ++ [b] := by
  have hbelow : ∀ j ∈ List.range n, (setBit acc n b).getLsbD j = acc.getLsbD j := fun j hj => by
    rw [getLsbD_setBit _ _ _ _ hn, if_neg (List.mem_range.1 hj).ne]
  rw [take_byteBits _ hn, take_byteBits _ hn.le, List.range_succ, List.map_append, List.map_congr_left hbelow, List.map_singleton,
    getLsbD_setBit _ _ _ _ hn, if_pos rfl]

/-! ### The relation -/

/-- `t` is `s` after the packer has written the bits `w` and nothing else (rules R150, R151): as many bytes more as have filled, the cursor
behind the last bit, the bits written so far followed by `w`, and OUT unchanged outside the appended bytes. -/
structure Wrote (s : State) (w : List Bool) (t : State) : Prop where
  frame : PackFrame s t
  outLen : t.outLen = s.outLen + (s.bwCur.toNat + w.length) / 8
  bwCur : t.bwCur.toNat = (s.bwCur.toNat + w.length) % 8
  written : ∀ base ≤ s.outLen, t.written base = s.written base ++ w
  outside : ∀ a, a < s.outLen ∨ t.outLen ≤ a → t.readOut a = s.readOut a

/-- OUT has room for the bytes that fill when `n` more bits are written. -/
def State.HasRoom (s : State) (n : Nat) : Prop := s.cfg.outHolds (s.outLen + (s.bwCur.toNat + n) / 8) = true

/-- What touches neither the bit writer nor OUT writes no bit. -/
theorem Wrote.nil_of_eq {s t : State} (hframe : PackFrame s t) (hlen : t.outLen = s.outLen) (hbuf : t.outBuf = s.outBuf)
    (hacc : t.bwAcc = s.bwAcc) (hcur : t.bwCur = s.bwCur) : Wrote s [] t := by
  have hread : ∀ a, t.readOut a = s.readOut a := fun a => by rw [hframe, State.readOut, hbuf]; rfl
  refine ⟨hframe, ?_, ?_, fun base hbase => ?_, fun a _ => hread a⟩
  · have := s.bwCur.isLt
    simp only [List.length_nil]
    omega
  · rw [hcur]
    exact (Nat.mod_eq_of_lt s.bwCur.isLt).symm
  · rw [State.written, State.written, hlen, hacc, hcur, List.append_nil, readOutBytes_congr _ _ fun x _ _ => hread x]

theorem Wrote.refl (s : State) : Wrote s [] s := .nil_of_eq rfl rfl rfl rfl rfl

theorem Wrote.trans {s t u : State} {v w : List Bool} (h1 : Wrote s v t) (h2 : Wrote t w u) : Wrote s (v ++ w) u := by
  have hlen1 := h1.outLen
  have hlen2 := h2.outLen
  have hcur1 := h1.bwCur
  have hcur2 := h2.bwCur
  rw [hlen1, hcur1] at hlen2
  rw [hcur1] at hcur2
  refine ⟨h1.frame.trans h2.frame, ?_, ?_, fun base hbase => ?_, fun a ha => ?_⟩
  · rw [hlen2, List.length_append]; omega
  · rw [hcur2, List.length_append]; omega
  · rw [h2.written base (by omega), h1.written base hbase, List.append_assoc]
  · rw [h2.outside a (by omega), h1.outside a (by omega)]

theorem Wrote.goto {s t : State} {w : List Bool} (h : Wrote s w t) (p : PhaseCode) : Wrote s w (t.goto p) :=
  List.append_nil w ▸ h.trans (.nil_of_eq (PackFrame.goto t p) rfl rfl rfl rfl)

theorem Wrote.hasRoom {s t : State} {v : List Bool} {n : Nat} (h : Wrote s v t) (hroom : s.HasRoom (v.length + n)) : t.HasRoom n := by
  have hlen : t.outLen + (t.bwCur.toNat + n) / 8 = s.outLen + (s.bwCur.toNat + (v.length + n)) / 8 := by
    rw [h.outLen, h.bwCur]; omega
  have hcfg : t.cfg = s.cfg := by rw [h.frame]
  rwa [State.HasRoom, hlen, hcfg]

/-! ### A byte appended, and WBIT and FLUSH case by case -/

/-- The accumulator's byte `b` appended, the bit writer empty (rules R151, R152). -/
def State.byteOut (s : State) (b : Byte) : State :=
  { s with bwAcc := 0, bwCur := 0, outBuf := Memory.write s.outBuf s.outLen b, outLen := s.outLen + 1 }

@[simp] theorem byteOut_readOut_same (s : State) (b : Byte) : (s.byteOut b).readOut s.outLen = b := by
  simp [State.readOut, State.byteOut]

theorem byteOut_readOut_other (s : State) (b : Byte) {a : Nat} (h : a ≠ s.outLen) : (s.byteOut b).readOut a = s.readOut a := by
  simp [State.readOut, State.byteOut, State.outUnlisted, read?_write_other _ _ h]

theorem append_byte_andThen {s : State} {b : Byte} (hroom : s.cfg.outHolds (s.outLen + 1) = true) :
    ((s.append [b]).andThen fun t => .ok { t with bwAcc := 0, bwCur := 0 }) = .ok (s.byteOut b) := by
  rw [append_of_holds hroom]
  rfl

/-- The accumulator with the operand bit put at the cursor (rule R151). -/
def State.accWithBit (s : State) : Byte := setBit s.bwAcc s.bwCur.toNat s.opBit

/-- The bit put in the accumulator, the cursor moved on. -/
def State.bitHeld (s : State) : State := { s with bwAcc := s.accWithBit, bwCur := s.bwCur + 1 }

theorem wbitOp_of_ne {s : State} (h : s.bwCur ≠ 7) : wbitOp s = .ok s.bitHeld := if_neg h

theorem wbitOp_of_eq {s : State} (h : s.bwCur = 7) (hroom : s.cfg.outHolds (s.outLen + 1) = true) :
    wbitOp s = .ok (s.byteOut s.accWithBit) :=
  (if_pos h).trans (append_byte_andThen hroom)

theorem flushOp_of_zero {s : State} (h : s.bwCur = 0) : flushOp s = .ok s := if_pos h

theorem flushOp_of_ne_zero {s : State} (h : s.bwCur ≠ 0) (hroom : s.cfg.outHolds (s.outLen + 1) = true) :
    flushOp s = .ok (s.byteOut s.bwAcc) :=
  (if_neg h).trans (append_byte_andThen hroom)

theorem exec_wbit_of_ok {s t : State} (h : wbitOp (s.goto Phase.wbit) = .ok t) : exec .wbit s = .next (t.goto Phase.putcode) := by
  rw [exec, execWbit, nested, h]
  rfl

theorem exec_flush_of_ok {s t : State} (h : flushOp s = .ok t) : exec .flush s = .next t.successExit := by
  rw [exec, execFlush, h]
  rfl

/-- Settles O33: the two cases of WBIT, the accumulator being the old one with the bit put at the cursor. -/
theorem wbitWritesOneBit : Obligations.WbitWritesOneBit := by
  intro s
  refine ⟨s.accWithBit, fun k _ => getLsbD_setBit _ _ _ _ s.bwCur.isLt, fun hcur => ?_, fun hcur hroom => ?_⟩
  · exact exec_wbit_of_ok (wbitOp_of_ne hcur)
  · exact ⟨_, exec_wbit_of_ok (wbitOp_of_eq hcur hroom), rfl, byteOut_readOut_same s _, fun a ha => byteOut_readOut_other s _ ha⟩

/-- Settles O34: the success exit keeps every listed byte before `OUT_LEN`, the one just appended too. -/
theorem flushAppendsPartialByte : Obligations.FlushAppendsPartialByte := by
  intro s hinv
  have hkept : ∀ {t : State}, exec .flush s = .next t.successExit → ∀ a < s.outLen, t.successExit.readOut a = s.readOut a :=
    fun h => (outputIsOnlyAppended .flush s _ hinv (by decide) h rfl).2
  refine ⟨fun hcur => ?_, fun hcur hroom => ?_⟩
  · have hexec := exec_flush_of_ok (flushOp_of_zero hcur)
    exact ⟨_, hexec, rfl, hkept hexec⟩
  · have hexec := exec_flush_of_ok (flushOp_of_ne_zero hcur hroom)
    have hbyte : (s.byteOut s.bwAcc).successExit.readOut s.outLen = s.bwAcc := by
      rw [(successExit_outExtends _).readOut_eq (Nat.lt_succ_self s.outLen) (by simp [State.byteOut]), byteOut_readOut_same]
    exact ⟨_, hexec, rfl, hbyte, fun k hk => (congrArg (·.getLsbD k) hbyte).trans (hinv.accumulatorClear k hk),
      hkept hexec⟩

/-! ### WBIT writes its bit -/

theorem bitHeld_wrote {s : State} (h : s.bwCur ≠ 7) : Wrote s [s.opBit] s.bitHeld := by
  have hcur : s.bitHeld.bwCur.toNat = s.bwCur.toNat + 1 := by
    change (s.bwCur + 1).toNat = _
    bv_omega
  have hlt := s.bitHeld.bwCur.isLt
  refine ⟨rfl, ?_, ?_, fun base _ => ?_, fun _ _ => rfl⟩
  · change s.outLen = s.outLen + (s.bwCur.toNat + 1) / 8
    omega
  · change _ = (s.bwCur.toNat + 1) % 8
    omega
  · have hbytes : s.bitHeld.readOutBytes base (s.outLen - base) = s.readOutBytes base (s.outLen - base) :=
      readOutBytes_congr _ _ fun _ _ _ => rfl
    have hbits : (byteBits s.bitHeld.bwAcc).take (s.bwCur.toNat + 1) = (byteBits s.bwAcc).take s.bwCur.toNat ++ [s.opBit] :=
      take_byteBits_setBit s.bwAcc s.bwCur.isLt s.opBit
    rw [State.written, hcur, hbits, ← List.append_assoc]
    exact congrArg (fun bs => streamOf bs ++ _ ++ _) hbytes

theorem byteOut_wrote {s : State} (h : s.bwCur = 7) : Wrote s [s.opBit] (s.byteOut s.accWithBit) := by
  have hcur : s.bwCur.toNat = 7 := by rw [h]; rfl
  refine ⟨rfl, ?_, ?_, fun base hbase => ?_, fun a ha => byteOut_readOut_other s _ ?_⟩
  · rw [hcur, List.length_singleton]; rfl
  · rw [hcur, List.length_singleton]; rfl
  · have hbytes : (s.byteOut s.accWithBit).readOutBytes base (s.outLen + 1 - base) =
        s.readOutBytes base (s.outLen - base) ++ [s.accWithBit] := by
      rw [show s.outLen + 1 - base = s.outLen - base + 1 by omega, readOutBytes_append, show base + (s.outLen - base) = s.outLen by omega,
        readOutBytes_congr _ _ fun x _ hx => byteOut_readOut_other s _ (by omega)]
      exact congrArg (fun b => _ ++ [b]) (byteOut_readOut_same s _)
    have hall : byteBits s.accWithBit = (byteBits s.accWithBit).take (s.bwCur.toNat + 1) := by rw [hcur]; rfl
    have hbits : byteBits s.accWithBit = (byteBits s.bwAcc).take s.bwCur.toNat ++ [s.opBit] :=
      hall.trans (take_byteBits_setBit s.bwAcc s.bwCur.isLt s.opBit)
    change streamOf ((s.byteOut s.accWithBit).readOutBytes base (s.outLen + 1 - base)) ++ [] = _
    rw [hbytes, streamOf_append, streamOf_singleton, hbits, State.written, List.append_nil, List.append_assoc]
  · change a < s.outLen ∨ s.outLen + 1 ≤ a at ha
    omega

theorem wbitOp_wrote {s : State} (hroom : s.HasRoom 1) : ∃ t, wbitOp s = .ok t ∧ Wrote s [s.opBit] t := by
  by_cases hcur : s.bwCur = 7
  · rw [State.HasRoom, hcur] at hroom
    exact ⟨_, wbitOp_of_eq hcur hroom, byteOut_wrote hcur⟩
  · exact ⟨_, wbitOp_of_ne hcur, bitHeld_wrote hcur⟩

/-! ### Parts of an operation that write -/

/-- The part goes on, and the packer has written the bits `w` since `s`. -/
def Flow.Writes (s : State) (w : List Bool) (a : Flow) : Prop := ∃ t, a = .ok t ∧ Wrote s w t

theorem Flow.Writes.andThen {s : State} {v w : List Bool} {a : Flow} {b : State → Flow} (ha : a.Writes s v)
    (hb : ∀ t, Wrote s v t → (b t).Writes t w) : (a.andThen b).Writes s (v ++ w) := by
  obtain ⟨t, rfl, ht⟩ := ha
  obtain ⟨u, hu, hw⟩ := hb t ht
  exact ⟨u, hu, ht.trans hw⟩

theorem writes_nested {s u : State} {w : List Bool} {op : State → Flow} (inner outer : PhaseCode) (hsu : Wrote s [] u)
    (hop : (op (u.goto inner)).Writes (u.goto inner) w) : (nested inner outer op u).Writes s w := by
  obtain ⟨t, ht, hw⟩ := hop
  exact ⟨t.goto outer, nested_eq_ok.2 ⟨t, ht, rfl⟩, (hsu.goto inner).trans (hw.goto outer)⟩

/-! ### PUTCODE -/

/-- The turns of PUTCODE's loop write the bits of `bits` at the positions `ks`, in their order (rule R153). -/
theorem each_wbit_writes (bits : BitVec 255) (ks : List Nat) {s : State} (hroom : s.HasRoom ks.length) :
    (Flow.each (fun k t => nested Phase.wbit Phase.putcode wbitOp { t with opBit := bits.getLsbD k }) ks s).Writes s
      (ks.map bits.getLsbD) := by
  induction ks generalizing s with
  | nil => exact ⟨s, rfl, .refl s⟩
  | cons k ks ih =>
    have hroom1 : s.HasRoom 1 := outHolds_mono (by rw [List.length_cons]; omega) hroom
    have hbit := writes_nested (s := s) (u := { s with opBit := bits.getLsbD k }) Phase.wbit Phase.putcode
      (.nil_of_eq rfl rfl rfl rfl rfl) (wbitOp_wrote hroom1)
    exact hbit.andThen fun t ht => ih (ht.hasRoom (by rwa [Nat.add_comm]))

theorem length_codeBitsOf (s : State) (sym : Byte) : (s.codeBitsOf sym).length = (s.codeOf sym).len.toNat := by
  rw [State.codeBitsOf, List.length_map, List.length_range]

theorem putcodeOp_writes {s : State} (hroom : s.HasRoom (s.codeBitsOf s.opSym).length) :
    (putcodeOp s).Writes s (s.codeBitsOf s.opSym) :=
  each_wbit_writes _ _ (by rwa [List.length_range, ← length_codeBitsOf])

/-- PUTCODE moves neither `IN_POS` nor its own operand. -/
theorem putcodeOp_keeps_inPos_opSym {s t : State} (h : putcodeOp s = .ok t) : t.inPos = s.inPos ∧ t.opSym = s.opSym := by
  refine each_rel (P := fun s t => t.inPos = s.inPos ∧ t.opSym = s.opSym) (fun _ => ⟨rfl, rfl⟩)
    (fun h1 h2 => ⟨h2.1.trans h1.1, h2.2.trans h1.2⟩) (fun k u v hv => ?_) _ h
  obtain ⟨x, hx, rfl⟩ := nested_eq_ok.1 hv
  have hframe : WriterFrame _ x := (wbitOp_frame _).of_ok hx
  rw [hframe]
  exact ⟨rfl, rfl⟩

/-- Settles O35: PUTCODE writes the code (`putcodeOp_writes`, by induction on its bits) and keeps `IN_POS` and its operand. -/
theorem putcodeWritesTheCode : Obligations.PutcodeWritesTheCode := by
  rintro s w rfl hroom
  obtain ⟨t, ht, hwrote⟩ := writes_nested Phase.putcode Phase.pack (Wrote.refl s) (putcodeOp_writes (s := s.goto Phase.putcode) hroom)
  have hframe : PackFrame s t := hwrote.frame
  have hlen : t.outLen = s.outLen + (s.bwCur.toNat + (s.codeBitsOf s.opSym).length) / 8 := hwrote.outLen
  obtain ⟨u, hu, rfl⟩ := nested_eq_ok.1 ht
  obtain ⟨hpos, hsym⟩ := putcodeOp_keeps_inPos_opSym hu
  refine ⟨_, congrArg Flow.outcome ht, ?_, hwrote.bwCur, hwrote.written, fun a ha => hwrote.outside a (by rwa [hlen])⟩
  rwa [PackFrame, hlen, goto_inPos, goto_opSym, hpos, hsym] at hframe

/-! ### PACK -/

/-- A turn of PACK's loop writes the code of the byte at `IN_POS` and moves past it (rule R154). -/
theorem packByte_writes {s : State} (hroom : s.HasRoom (s.codeBitsOf (s.readIn s.inPos.toNat)).length) :
    ∃ t, packByte s = .ok t ∧ Wrote s (s.codeBitsOf (s.readIn s.inPos.toNat)) t ∧ t.inPos = s.inPos + 1 := by
  obtain ⟨t, ht, hwrote⟩ := writes_nested (s := s) (u := { s with opSym := s.readIn s.inPos.toNat }) Phase.putcode Phase.pack
    (.nil_of_eq rfl rfl rfl rfl rfl) (putcodeOp_writes hroom)
  have hpos : t.inPos = s.inPos := by
    obtain ⟨u, hu, rfl⟩ := nested_eq_ok.1 ht
    exact (putcodeOp_keeps_inPos_opSym hu).1
  refine ⟨{ t with inPos := t.inPos + 1 }, ?_, ?_, congrArg (· + 1) hpos⟩
  · rw [packByte, ht]
    rfl
  · exact List.append_nil (s.codeBitsOf _) ▸ hwrote.trans (.nil_of_eq rfl rfl rfl rfl rfl)

theorem PackFrame.codeBitsOf {s t : State} (h : PackFrame s t) : t.codeBitsOf = s.codeBitsOf := by
  rw [h]
  rfl

theorem PackFrame.readInBytes {s t : State} (h : PackFrame s t) (a n : Nat) : t.readInBytes a n = s.readInBytes a n :=
  readInBytes_congr (fun x => readIn_congr (by rw [h]) (by rw [h]) x) a n

/-- PACK's loop writes the codes of the bytes from `IN_POS` to the end of the input, in their order. -/
theorem packLoop_writes (n : Nat) {s : State} {w : List Bool} (hn : s.inPos.toNat + n = s.inLen.toNat)
    (hw : w = (s.readInBytes s.inPos.toNat n).flatMap s.codeBitsOf) (hroom : s.HasRoom w.length) :
    ∃ t, packLoop n s = .ok t ∧ Wrote s w t ∧ t.inPos = s.inLen := by
  induction n generalizing s w with
  | zero =>
    subst hw
    exact ⟨s, rfl, .refl s, BitVec.eq_of_toNat_eq hn⟩
  | succ n ih =>
    have hlt : s.inPos < s.inLen := by bv_omega
    have hsucc : (s.inPos + 1).toNat = s.inPos.toNat + 1 := by bv_omega
    rw [State.readInBytes, List.flatMap_cons] at hw
    rw [hw, List.length_append] at hroom
    obtain ⟨u, hu, hbyte, hpos⟩ := packByte_writes (s := s) (outHolds_mono (by omega) hroom)
    have hlen : u.inLen = s.inLen := by rw [hbyte.frame]
    have hrest : (s.readInBytes (s.inPos.toNat + 1) n).flatMap s.codeBitsOf = (u.readInBytes u.inPos.toNat n).flatMap u.codeBitsOf := by
      rw [hbyte.frame.codeBitsOf, hbyte.frame.readInBytes, hpos, hsucc]
    obtain ⟨t, ht, hcodes, hend⟩ := ih (s := u) (by rw [hpos, hsucc, hlen]; omega) hrest (hbyte.hasRoom hroom)
    refine ⟨t, ?_, hw ▸ hbyte.trans hcodes, hend.trans hlen⟩
    rw [packLoop, if_pos hlt, hu]
    exact ht

/-- PACK writes the codes of the input in input order, from `IN_POS` = 0 to `IN_LEN`. -/
theorem packOp_writes {s : State} (hroom : s.HasRoom (s.input.flatMap s.codeBitsOf).length) :
    ∃ t, packOp s = .ok t ∧ Wrote s (s.input.flatMap s.codeBitsOf) t ∧ t.inPos = s.inLen := by
  have hstart : Wrote s [] { s with inPos := 0 } := .nil_of_eq rfl rfl rfl rfl rfl
  have hinput : s.input.flatMap s.codeBitsOf =
      (({ s with inPos := 0 } : State).readInBytes 0 s.inLen.toNat).flatMap ({ s with inPos := 0 } : State).codeBitsOf := by
    rw [hstart.frame.codeBitsOf, hstart.frame.readInBytes, State.input]
  obtain ⟨t, ht, hloop, hpos⟩ := packLoop_writes s.inLen.toNat (s := { s with inPos := 0 }) (Nat.zero_add _) hinput hroom
  exact ⟨t, ht, hstart.trans hloop, hpos⟩

/-- Settles O36: PACK writes the codes of the input (`packOp_writes`, by induction on its bytes), then the sequencer moves on to FLUSH. -/
theorem packWritesAllCodes : Obligations.PackWritesAllCodes := by
  rintro s w hfits rfl hroom
  obtain ⟨t, ht, hpacked, hpos⟩ := packOp_writes hroom
  have hwrote := hpacked.goto Phase.flush
  have hframe : PackFrame s (t.goto Phase.flush) := hwrote.frame
  have hlen := hwrote.outLen
  refine ⟨t.goto Phase.flush, ?_, ?_, hwrote.bwCur, hwrote.written, fun a ha => hwrote.outside a (by rwa [hlen])⟩
  · rw [exec, execPack, withInput_of_fits hfits, ht]
    rfl
  · rwa [PackFrame, hlen, goto_inPos, hpos] at hframe

end Sys2Proof.Machine
end

section
/-! PROOFS of the family 44_bit_unpacker.md, first part: RBIT (O37), DSTEP (O38), and DWALK on a tree (O39, O41). DWALK's loop is followed
turn by turn (`State.WalksTo`), and what a number of turns has read and emitted is said by one relation, `Decoded`, which composes. -/

namespace Sys2Proof.Machine

/-! ### RBIT (rules R165, R166) -/

theorem exhausted_eq_true_iff {s : State} : s.exhausted = true ↔ s.inLen.toNat ≤ s.brPos.toNat := decide_eq_true_iff

theorem exhausted_eq_false_of_lt {s : State} (h : s.brPos.toNat < s.inLen.toNat) : s.exhausted = false :=
  decide_eq_false (Nat.not_le_of_lt h)

theorem exec_rbit {s : State} (hfits : s.inputFits = true) : exec .rbit s = (nested Phase.rbit Phase.dstep rbitOp s).outcome := by
  rw [exec, execRbit, withInput_of_fits hfits]

/-- Settles O37: RBIT in its two cases, the bit being the last of its byte or not in the second. -/
theorem rbitReadsNextBit : Obligations.RbitReadsNextBit := by
  intro s hfits
  rw [exec_rbit hfits]
  refine ⟨fun hend => ?_, fun hlt hcur => ?_, fun hlt hcur => ?_⟩
  · rw [nested_rbitOp_of_exhausted (exhausted_eq_true_iff.2 hend)]
    rfl
  · rw [nested_rbitOp_of_not_exhausted (exhausted_eq_false_of_lt hlt), State.bitRead, State.streamBit, hcur]
    rfl
  · rw [nested_rbitOp_of_not_exhausted (exhausted_eq_false_of_lt hlt), State.bitRead, if_neg hcur]
    rfl

/-! ### DSTEP (rules R167, R169) -/

/-- `sym` appended and counted, the walk back at the root. -/
def State.symbolOut (s : State) (sym : Byte) : State :=
  { s with outBuf := Memory.write s.outBuf s.outLen sym, outLen := s.outLen + 1, emitted := s.emitted + 1, walkCur := s.root }

theorem symbolOut_readOut_same (s : State) (sym : Byte) : (s.symbolOut sym).readOut s.outLen = sym := by
  simp [State.readOut, State.symbolOut]

theorem symbolOut_readOut_other (s : State) (sym : Byte) {a : Nat} (h : a ≠ s.outLen) : (s.symbolOut sym).readOut a = s.readOut a := by
  simp [State.readOut, State.symbolOut, State.outUnlisted, read?_write_other _ _ h]

section
variable {s : State} {n : NodeIx} {c x : Node}

theorem arrive_internal (hx : s.nodeAt? n = some x) (hkind : x.kind = .internal) : arrive s n = .ok { s with walkCur := n } := by
  simp [arrive, hx, hkind]

theorem arrive_placeholder (hx : s.nodeAt? n = some x) (hkind : x.kind = .leaf) (hph : x.ph = true) :
    arrive s n = .raised .placeholderReached s := by
  simp [arrive, hx, hkind, hph]

theorem arrive_leaf (hx : s.nodeAt? n = some x) (hkind : x.kind = .leaf) (hph : x.ph = false)
    (hroom : s.cfg.outHolds (s.outLen + 1) = true) : arrive s n = .ok (s.symbolOut x.sym) := by
  have hroom' : s.cfg.outHolds (s.outLen + [x.sym].length) = true := hroom
  simp [arrive, hx, hkind, hph, append_of_holds hroom']
  rfl

theorem walkTurn_of_exhausted (h : s.exhausted = true) :
    walkTurn s = .raised .bitstreamTruncated ({ s with rbitVal := none }.goto Phase.dstep) := by
  rw [walkTurn, nested_eq_raised, dstepOp, nested_rbitOp_of_exhausted (s := s.goto Phase.dstep) h]
  rfl

theorem dstepOp_of_not_exhausted (hbit : s.exhausted = false) (hc : s.nodeAt? s.walkCur = some c) :
    dstepOp s = arrive (s.bitRead.goto Phase.dstep) (c.child s.streamBit) := by
  rw [dstepOp, nested_rbitOp_of_not_exhausted hbit, andThen_ok]
  simp [hc]

/-- With a bit to read the turn arrives at the child it selects. -/
theorem walkTurn_of_not_exhausted (hbit : s.exhausted = false) (hc : s.nodeAt? s.walkCur = some c) :
    walkTurn s = (arrive (s.bitRead.goto Phase.dstep) (c.child s.streamBit)).andThen fun t => .ok (t.goto Phase.dwalk) := by
  rw [walkTurn, nested, dstepOp_of_not_exhausted (s := s.goto Phase.dstep) hbit hc]
  rfl

theorem walkTurn_internal (hbit : s.exhausted = false) (hc : s.nodeAt? s.walkCur = some c)
    (hx : s.nodeAt? (c.child s.streamBit) = some x) (hkind : x.kind = .internal) :
    walkTurn s = .ok ({ s.bitRead with walkCur := c.child s.streamBit }.goto Phase.dwalk) := by
  rw [walkTurn_of_not_exhausted hbit hc, arrive_internal (s := s.bitRead.goto Phase.dstep) hx hkind]
  rfl

theorem walkTurn_placeholder (hbit : s.exhausted = false) (hc : s.nodeAt? s.walkCur = some c)
    (hx : s.nodeAt? (c.child s.streamBit) = some x) (hkind : x.kind = .leaf) (hph : x.ph = true) :
    walkTurn s = .raised .placeholderReached (s.bitRead.goto Phase.dstep) := by
  rw [walkTurn_of_not_exhausted hbit hc, arrive_placeholder (s := s.bitRead.goto Phase.dstep) hx hkind hph]
  rfl

theorem walkTurn_leaf (hbit : s.exhausted = false) (hc : s.nodeAt? s.walkCur = some c)
    (hx : s.nodeAt? (c.child s.streamBit) = some x) (hkind : x.kind = .leaf) (hph : x.ph = false)
    (hroom : s.cfg.outHolds (s.outLen + 1) = true) : walkTurn s = .ok ((s.bitRead.symbolOut x.sym).goto Phase.dwalk) := by
  rw [walkTurn_of_not_exhausted hbit hc, arrive_leaf (s := s.bitRead.goto Phase.dstep) hx hkind hph hroom]
  rfl

theorem exec_dstep (hfits : s.inputFits = true) : exec .dstep s = (walkTurn s).outcome := by
  rw [exec, execDstep, withInput_of_fits hfits]

end

/-- Settles O38: the four cases of a turn. -/
theorem dstepTransitions : Obligations.DstepTransitions := by
  intro s hfits
  rw [exec_dstep hfits]
  refine ⟨fun hend => ?_, ?_⟩
  · rw [walkTurn_of_exhausted (exhausted_eq_true_iff.2 hend)]
    rfl
  · rintro hlt c x _ _ _ hc rfl rfl hx rfl
    have hbit := exhausted_eq_false_of_lt hlt
    refine ⟨fun hkind => ?_, fun hkind hph => ?_, fun hkind hph hroom => ?_⟩
    · rw [walkTurn_internal hbit hc hx hkind]
      rfl
    · rw [walkTurn_placeholder hbit hc hx hkind hph]
      rfl
    · rw [walkTurn_leaf hbit hc hx hkind hph hroom]
      exact ⟨_, rfl, rfl, symbolOut_readOut_same s.bitRead x.sym, fun a ha => symbolOut_readOut_other s.bitRead x.sym ha⟩

/-! ### A turn on a tree -/

/-- The subtree that a bit selects (rule R167). -/
def branch (l r : HTree) (b : Bool) : HTree := if b then r else l

/-- A code that is not empty begins at a fork and goes on in the branch its first bit selects. -/
theorem mem_codes_cons {U : HTree} {sym : Byte} {b : Bool} {path : List Bool} :
    (sym, b :: path) ∈ U.codes ↔ ∃ l r, U = .fork l r ∧ (sym, path) ∈ (branch l r b).codes := by
  cases U with
  | leaf sym' => simp [HTree.codes]
  | hole => simp [HTree.codes]
  | fork l r => cases b <;> simp [HTree.codes, branch]

theorem mem_codes_nil {U : HTree} {sym : Byte} : (sym, []) ∈ U.codes ↔ U = .leaf sym := by
  cases U <;> simp [HTree.codes, eq_comm]

section
variable {s : State} {l r : HTree}

/-- At a fork, whichever bit comes, its child is the root of the branch it selects. -/
theorem exists_child_of_holds_fork {node : Vector Node 511} {i : NodeIx} (h : Holds node i (.fork l r)) :
    ∃ c, node[i.toNat]? = some c ∧ ∀ b, Holds node (c.child b) (branch l r b) := by
  obtain ⟨c, hc, -, hl, hr⟩ := h
  exact ⟨c, hc, fun b => by cases b <;> assumption⟩

theorem walkTurn_of_fork {l' r' : HTree} (hbit : s.exhausted = false) (h : Holds s.node s.walkCur (.fork l r))
    (hbranch : branch l r s.streamBit = .fork l' r') :
    ∃ n, Holds s.node n (.fork l' r') ∧ walkTurn s = .ok ({ s.bitRead with walkCur := n }.goto Phase.dwalk) := by
  obtain ⟨c, hc, hchild⟩ := exists_child_of_holds_fork h
  have hheld := hbranch ▸ hchild s.streamBit
  obtain ⟨x, hx, hkind, -⟩ := id hheld
  exact ⟨_, hheld, walkTurn_internal hbit hc hx hkind⟩

theorem walkTurn_of_leaf {sym : Byte} (hbit : s.exhausted = false) (h : Holds s.node s.walkCur (.fork l r))
    (hbranch : branch l r s.streamBit = .leaf sym) (hroom : s.cfg.outHolds (s.outLen + 1) = true) :
    walkTurn s = .ok ((s.bitRead.symbolOut sym).goto Phase.dwalk) := by
  obtain ⟨c, hc, hchild⟩ := exists_child_of_holds_fork h
  obtain ⟨x, hx, hkind, hph, rfl⟩ := hbranch ▸ hchild s.streamBit
  exact walkTurn_leaf hbit hc hx hkind hph hroom

theorem walkTurn_of_hole (hbit : s.exhausted = false) (h : Holds s.node s.walkCur (.fork l r))
    (hbranch : branch l r s.streamBit = .hole) : walkTurn s = .raised .placeholderReached (s.bitRead.goto Phase.dstep) := by
  obtain ⟨c, hc, hchild⟩ := exists_child_of_holds_fork h
  obtain ⟨x, hx, hkind, hph⟩ := hbranch ▸ hchild s.streamBit
  exact walkTurn_placeholder hbit hc hx hkind hph

end

/-! ### DWALK always ends (rule R170) -/

/-- Where a turn of DWALK's loop cannot stop the model: the walk stands on a fork of a tree whose root is a fork, and OUT has room for the
symbols still to come. -/
structure State.OnTree (s : State) : Prop where
  root : ∃ l r, Holds s.node s.root (.fork l r)
  cur : ∃ l r, Holds s.node s.walkCur (.fork l r)
  room : s.cfg.outHolds (s.outLen + (s.orig.toNat - s.emitted.toNat)) = true

theorem toNat_emitted_succ {s : State} (h : s.emitted < s.orig) : (s.emitted + 1).toNat = s.emitted.toNat + 1 :=
  BitVec.toNat_add_of_lt (x := s.emitted) (y := 1#64) (Nat.lt_of_le_of_lt (BitVec.lt_def.1 h) s.orig.isLt)

theorem State.OnTree.walkTurn {s : State} (h : s.OnTree) (hlt : s.emitted < s.orig) :
    (∃ t, walkTurn s = .ok t ∧ t.OnTree) ∨ ∃ f t, walkTurn s = .raised f t := by
  have hlt' := BitVec.lt_def.1 hlt
  cases hbit : s.exhausted with
  | true => exact .inr ⟨_, _, walkTurn_of_exhausted hbit⟩
  | false =>
    obtain ⟨l, r, hcur⟩ := h.cur
    cases hbranch : branch l r s.streamBit with
    | leaf sym =>
      have hroom : s.cfg.outHolds (s.outLen + 1) = true := outHolds_mono (by omega) h.room
      refine .inl ⟨_, walkTurn_of_leaf hbit hcur hbranch hroom, h.root, h.root, ?_⟩
      change s.cfg.outHolds (s.outLen + 1 + (s.orig.toNat - (s.emitted + 1).toNat)) = true
      rw [toNat_emitted_succ hlt]
      exact outHolds_mono (by omega) h.room
    | hole => exact .inr ⟨_, _, walkTurn_of_hole hbit hcur hbranch⟩
    | fork l' r' =>
      obtain ⟨n, hheld, hturn⟩ := walkTurn_of_fork hbit hcur hbranch
      exact .inl ⟨_, hturn, h.root, ⟨l', r', hheld⟩, h.room⟩

theorem State.OnTree.dwalkLoop {s : State} (h : s.OnTree) (n : Nat) :
    (∃ t, dwalkLoop n s = .ok t) ∨ ∃ f t, dwalkLoop n s = .raised f t := by
  induction n generalizing s with
  | zero => exact .inl ⟨s, rfl⟩
  | succ n ih =>
    by_cases hlt : s.emitted < s.orig
    · rw [dwalkLoop_succ_of_lt hlt]
      obtain ⟨t, hturn, ht⟩ | ⟨f, t, hturn⟩ := h.walkTurn hlt
      · rw [hturn, andThen_ok]
        exact ih ht
      · exact .inr ⟨f, t, by rw [hturn, andThen_raised]⟩
    · exact .inl ⟨s, dwalkLoop_succ_of_not_lt hlt⟩

theorem exec_dwalk {s : State} (hfits : s.inputFits = true) :
    exec .dwalk s = ((dwalkLoop (s.bitsLeft + 1) { s with walkCur := s.root }).andThen afterOutput).outcome := by
  rw [exec, execDwalk, withInput_of_fits hfits, dwalkOp]

/-- Settles O41: no turn stops the model (`State.OnTree.walkTurn`), so the loop ends, and behind it stands the success exit or the
failure exit. -/
theorem dwalkAlwaysEndsTheRun : Obligations.DwalkAlwaysEndsTheRun := by
  intro s T htree hfits hroom
  obtain ⟨l, r, rfl⟩ := htree.rootIsFork
  have honTree : ({ s with walkCur := s.root } : State).OnTree := ⟨⟨l, r, htree.held⟩, ⟨l, r, htree.held⟩, hroom⟩
  rw [exec_dwalk hfits]
  obtain ⟨t, ht⟩ | ⟨f, t, ht⟩ := honTree.dwalkLoop (s.bitsLeft + 1) <;> rw [ht]
  · exact ⟨t.successExit, rfl, rfl⟩
  · exact ⟨t.failureExit f, rfl, rfl⟩

/-! ### The bits ahead (rules R67, R165) -/

theorem InputFrame.readInBytes {s t : State} (h : InputFrame s t) (a n : Nat) : t.readInBytes a n = s.readInBytes a n :=
  readInBytes_congr (fun x => readIn_congr h.inBuf h.inEpoch x) a n

theorem bitsAhead_congr {s t : State} (hinput : InputFrame s t) (hpos : t.brPos = s.brPos) (hcur : t.brCur = s.brCur) :
    t.bitsAhead = s.bitsAhead := by
  rw [State.bitsAhead, hpos, hcur, hinput.inLen, hinput.readInBytes, State.bitsAhead]

theorem bitsAhead_of_exhausted {s : State} (h : s.exhausted = true) : s.bitsAhead = [] := by
  rw [State.bitsAhead, Nat.sub_eq_zero_of_le (exhausted_eq_true_iff.1 h)]
  exact List.drop_nil

theorem drop_byteBits (b : Byte) {k : Nat} (hk : k < 8) : (byteBits b).drop k = b.getLsbD k :: (byteBits b).drop (k + 1) := by
  have hlen : k < (byteBits b).length := by rwa [byteBits, List.length_map, List.length_range]
  rw [List.drop_eq_getElem_cons hlen]
  simp [byteBits]

/-- Where there is a bit it is the first one ahead, and reading it leaves the others. -/
theorem bitsAhead_of_not_exhausted {s : State} (h : s.exhausted = false) : s.bitsAhead = s.streamBit :: s.bitRead.bitsAhead := by
  have hlt : s.brPos.toNat < s.inLen.toNat := by simpa [State.exhausted] using h
  obtain ⟨n, hn⟩ : ∃ n, s.inLen.toNat - s.brPos.toNat = n + 1 := ⟨s.inLen.toNat - s.brPos.toNat - 1, by omega⟩
  have hread : ∀ a n, s.bitRead.readInBytes a n = s.readInBytes a n := readInBytes_congr fun _ => rfl
  have hdrop : ∀ k ≤ 8, (streamOf (s.readInBytes s.brPos.toNat (n + 1))).drop k =
      (byteBits (s.readIn s.brPos.toNat)).drop k ++ streamOf (s.readInBytes (s.brPos.toNat + 1) n) := fun k hk =>
    List.drop_append_of_le_length (by rwa [byteBits, List.length_map, List.length_range])
  have hfirst : s.bitsAhead = s.streamBit :: (streamOf (s.readInBytes s.brPos.toNat (n + 1))).drop (s.brCur.toNat + 1) := by
    rw [State.bitsAhead, hn, hdrop _ s.brCur.isLt.le, hdrop _ s.brCur.isLt, drop_byteBits _ s.brCur.isLt]
    rfl
  rw [hfirst, State.bitsAhead, hread]
  congr 1
  by_cases hcur : s.brCur = 7
  · have hpos : s.bitRead.brPos.toNat = s.brPos.toNat + 1 := by
      have hlen := s.inLen.isLt
      rw [State.bitRead, if_pos hcur]
      bv_omega
    have hzero : s.bitRead.brCur = 0 := by rw [State.bitRead, hcur]; rfl
    have hend : (streamOf (s.readInBytes s.brPos.toNat (n + 1))).drop 8 = streamOf (s.readInBytes (s.brPos.toNat + 1) n) := hdrop 8 le_rfl
    have hleft : s.bitRead.inLen.toNat - (s.brPos.toNat + 1) = n := by
      change s.inLen.toNat - (s.brPos.toNat + 1) = n
      omega
    rw [hpos, hzero, hleft, hcur]
    exact hend
  · have hpos : s.bitRead.brPos = s.brPos := by rw [State.bitRead, if_neg hcur]
    have hnext : s.bitRead.brCur.toNat = s.brCur.toNat + 1 := by
      change (s.brCur + 1).toNat = _
      bv_omega
    rw [hpos, hnext]
    exact congrArg (fun m => (streamOf (s.readInBytes _ m)).drop _) hn.symm

/-! ### Turns one after the other -/

/-- DWALK's loop comes from `s` to `t`, and answers there what it answers from `s`; the bound on its turns is never what ends it. -/
def State.WalksTo (s t : State) : Prop := ∀ n, s.bitsLeft < n → ∃ m, t.bitsLeft < m ∧ dwalkLoop n s = dwalkLoop m t

theorem State.WalksTo.refl (s : State) : s.WalksTo s := fun n hn => ⟨n, hn, rfl⟩

theorem State.WalksTo.trans {s t u : State} (h1 : s.WalksTo t) (h2 : t.WalksTo u) : s.WalksTo u := fun n hn =>
  have ⟨m, hm, e⟩ := h1 n hn
  have ⟨k, hk, e'⟩ := h2 m hm
  ⟨k, hk, e.trans e'⟩

theorem walksTo_of_walkTurn {s t : State} (hlt : s.emitted < s.orig) (h : walkTurn s = .ok t) : s.WalksTo t := by
  intro n hn
  obtain ⟨n, rfl⟩ := Nat.exists_eq_succ_of_ne_zero (Nat.ne_zero_of_lt hn)
  have hleft := bitsLeft_of_walkTurn h
  exact ⟨n, by omega, by rw [dwalkLoop_succ_of_lt hlt, h, andThen_ok]⟩

theorem dwalkLoop_of_raised {s u : State} {f : Failure} {n : Nat} (hn : s.bitsLeft < n) (hlt : s.emitted < s.orig)
    (h : walkTurn s = .raised f u) : dwalkLoop n s = .raised f u := by
  obtain ⟨n, rfl⟩ := Nat.exists_eq_succ_of_ne_zero (Nat.ne_zero_of_lt hn)
  rw [dwalkLoop_succ_of_lt hlt, h, andThen_raised]

/-- `t` is `s` after turns of DWALK that have read the bits `bits` and emitted the symbols `syms`, with the walk back at the root (rules
R168, R169). -/
structure Decoded (s : State) (bits : List Bool) (syms : List Byte) (t : State) : Prop where
  frame : t = { s with rbitVal := t.rbitVal, brPos := t.brPos, brCur := t.brCur, phase := t.phase, walkCur := s.root,
                       emitted := s.emitted + BitVec.ofNat 64 syms.length, outBuf := Memory.writeBytes s.outBuf s.outLen syms,
                       outLen := s.outLen + syms.length }
  bitsAhead : s.bitsAhead = bits ++ t.bitsAhead
  bitPos : t.bitPos = s.bitPos + bits.length

theorem Decoded.refl {s : State} (h : s.walkCur = s.root) : Decoded s [] [] s where
  frame := by
    have hsum : s.emitted + BitVec.ofNat 64 ([] : List Byte).length = s.emitted := BitVec.add_zero _
    have hback : s = { s with walkCur := s.root } := congrArg (fun i => { s with walkCur := i }) h
    rw [hsum]
    exact hback
  bitsAhead := rfl
  bitPos := rfl

theorem Decoded.trans {s t u : State} {v w : List Bool} {xs ys : List Byte} (h1 : Decoded s v xs t) (h2 : Decoded t w ys u) :
    Decoded s (v ++ w) (xs ++ ys) u where
  frame := by
    rw [h2.frame, h1.frame]
    simp only [List.length_append, BitVec.ofNat_add, BitVec.add_assoc, Nat.add_assoc, writeBytes_append]
  bitsAhead := by rw [h1.bitsAhead, h2.bitsAhead, List.append_assoc]
  bitPos := by rw [h2.bitPos, h1.bitPos, List.length_append, Nat.add_assoc]

theorem Decoded.hasTree {s t : State} {bits : List Bool} {syms : List Byte} {T : HTree} (h : Decoded s bits syms t) (hT : s.HasTree T) :
    t.HasTree T := by
  rw [h.frame]
  exact ⟨hT.held, hT.rootIsFork, hT.distinct, hT.bounded⟩

theorem Decoded.emitted_toNat {s t : State} {bits : List Bool} {syms : List Byte} (h : Decoded s bits syms t)
    (hcount : s.emitted.toNat + syms.length ≤ s.orig.toNat) : t.emitted.toNat = s.emitted.toNat + syms.length := by
  have horig := s.orig.isLt
  rw [h.frame, BitVec.toNat_add, BitVec.toNat_ofNat]
  omega

/-! ### The code of one symbol -/

/-- From a node of the tree the bits of a code lead to its leaf, whose symbol is emitted. -/
theorem exists_decoded_of_path {sym : Byte} (path rest : List Bool) {s : State} {U : HTree} (hne : path ≠ [])
    (hU : Holds s.node s.walkCur U) (hcode : (sym, path) ∈ U.codes) (hbits : s.bitsAhead = path ++ rest) (hlt : s.emitted < s.orig)
    (hroom : s.cfg.outHolds (s.outLen + 1) = true) : ∃ t, s.WalksTo t ∧ Decoded s path [sym] t := by
  induction path generalizing s U with
  | nil => exact absurd rfl hne
  | cons b path ih =>
    have hbit : s.exhausted = false := by
      by_contra hend
      rw [bitsAhead_of_exhausted (Bool.eq_true_of_not_eq_false hend)] at hbits
      cases hbits
    have hahead := bitsAhead_of_not_exhausted hbit
    obtain ⟨rfl, hbits'⟩ := List.cons.inj (hahead.symm.trans hbits)
    obtain ⟨l, r, rfl, hcode'⟩ := mem_codes_cons.1 hcode
    have hpos := bitPos_bitRead hbit
    cases path with
    | nil =>
      have hturn := walkTurn_of_leaf hbit hU (mem_codes_nil.1 hcode') hroom
      have hsame : ((s.bitRead.symbolOut sym).goto Phase.dwalk).bitsAhead = s.bitRead.bitsAhead :=
        bitsAhead_congr ⟨rfl, rfl, rfl, rfl, rfl, rfl⟩ rfl rfl
      exact ⟨_, walksTo_of_walkTurn hlt hturn, rfl, by rw [hsame, hahead]; rfl, hpos⟩
    | cons b' path =>
      obtain ⟨l', r', hbranch, -⟩ := mem_codes_cons.1 hcode'
      obtain ⟨n, hheld, hturn⟩ := walkTurn_of_fork hbit hU hbranch
      have hsame : ({ s.bitRead with walkCur := n }.goto Phase.dwalk).bitsAhead = s.bitRead.bitsAhead :=
        bitsAhead_congr ⟨rfl, rfl, rfl, rfl, rfl, rfl⟩ rfl rfl
      obtain ⟨t, hwalks, hdecoded⟩ := ih (s := { s.bitRead with walkCur := n }.goto Phase.dwalk) (List.cons_ne_nil _ _) hheld
        (hbranch ▸ hcode') (hsame.trans hbits') hlt hroom
      refine ⟨t, (walksTo_of_walkTurn hlt hturn).trans hwalks, hdecoded.frame, ?_, ?_⟩
      · rw [hahead, ← hsame, hdecoded.bitsAhead]
        rfl
      · have hrest : t.bitPos = s.bitRead.bitPos + (b' :: path).length := hdecoded.bitPos
        rw [hrest, hpos, List.length_cons, List.length_cons, List.length_cons]
        omega

/-- Where the bits run out inside a code the walk fails with BitstreamTruncated (rule R234). -/
theorem dwalkLoop_of_path_cut {sym : Byte} (path : List Bool) {s : State} {U : HTree} {n : Nat} (hU : Holds s.node s.walkCur U)
    (hcode : (sym, path) ∈ U.codes) (hpre : s.bitsAhead <+: path) (hne : s.bitsAhead ≠ path) (hlt : s.emitted < s.orig)
    (hn : s.bitsLeft < n) : ∃ u, dwalkLoop n s = .raised .bitstreamTruncated u := by
  induction path generalizing s U n with
  | nil => exact absurd (List.prefix_nil.1 hpre) hne
  | cons b path ih =>
    cases hbit : s.exhausted with
    | true => exact ⟨_, dwalkLoop_of_raised hn hlt (walkTurn_of_exhausted hbit)⟩
    | false =>
      have hahead := bitsAhead_of_not_exhausted hbit
      rw [hahead] at hpre hne
      obtain ⟨rfl, hpre'⟩ := List.cons_prefix_cons.1 hpre
      have hne' : s.bitRead.bitsAhead ≠ path := fun h => hne (h ▸ rfl)
      obtain ⟨l, r, rfl, hcode'⟩ := mem_codes_cons.1 hcode
      cases path with
      | nil => exact absurd (List.prefix_nil.1 hpre') hne'
      | cons b' path =>
        obtain ⟨l', r', hbranch, -⟩ := mem_codes_cons.1 hcode'
        obtain ⟨i, hheld, hturn⟩ := walkTurn_of_fork hbit hU hbranch
        have hsame : ({ s.bitRead with walkCur := i }.goto Phase.dwalk).bitsAhead = s.bitRead.bitsAhead :=
          bitsAhead_congr ⟨rfl, rfl, rfl, rfl, rfl, rfl⟩ rfl rfl
        obtain ⟨m, hm, heq⟩ := walksTo_of_walkTurn hlt hturn n hn
        rw [heq]
        exact ih (s := { s.bitRead with walkCur := i }.goto Phase.dwalk) hheld (hbranch ▸ hcode') (hsame ▸ hpre') (hsame ▸ hne')
          hlt hm

/-! ### The codes of several symbols -/

/-- Where the bits ahead begin with the codes of some symbols, DWALK emits exactly these and reads exactly their bits. -/
theorem exists_decoded_of_codes (xs : List (Byte × List Bool)) (rest : List Bool) {s : State} {T : HTree} (hT : s.HasTree T)
    (hcur : s.walkCur = s.root) (hxs : ∀ e ∈ xs, e ∈ T.codes) (hbits : s.bitsAhead = xs.flatMap Prod.snd ++ rest)
    (hcount : s.emitted.toNat + xs.length ≤ s.orig.toNat) (hroom : s.cfg.outHolds (s.outLen + xs.length) = true) :
    ∃ t, s.WalksTo t ∧ Decoded s (xs.flatMap Prod.snd) (xs.map Prod.fst) t := by
  induction xs generalizing s with
  | nil => exact ⟨s, .refl s, .refl hcur⟩
  | cons e xs ih =>
    obtain ⟨he, hxs⟩ := List.forall_mem_cons.1 hxs
    rw [List.flatMap_cons, List.append_assoc] at hbits
    rw [List.length_cons] at hcount hroom
    have hlt : s.emitted < s.orig := BitVec.lt_def.2 (by omega)
    have hne : e.2 ≠ [] := by
      obtain ⟨l, r, rfl⟩ := hT.rootIsFork
      exact path_ne_nil_of_mem_codes_fork he
    obtain ⟨t, hwalk, hfirst⟩ := exists_decoded_of_path e.2 _ hne (hcur ▸ hT.held) he hbits hlt (outHolds_mono (by omega) hroom)
    have hrest : t.bitsAhead = xs.flatMap Prod.snd ++ rest := List.append_cancel_left (hfirst.bitsAhead.symm.trans hbits)
    have hemitted : t.emitted.toNat = s.emitted.toNat + 1 := hfirst.emitted_toNat (BitVec.lt_def.1 hlt)
    have horig : t.orig = s.orig := congrArg (·.orig) hfirst.frame
    have hcfg : t.cfg = s.cfg := congrArg (·.cfg) hfirst.frame
    have hlen : t.outLen = s.outLen + 1 := congrArg (·.outLen) hfirst.frame
    have hback : t.walkCur = t.root := (congrArg (·.walkCur) hfirst.frame).trans (congrArg (·.root) hfirst.frame).symm
    obtain ⟨u, hwalk', hothers⟩ := ih (hfirst.hasTree hT) hback hxs hrest (by rw [hemitted, horig]; omega)
      (by rw [hcfg, hlen, Nat.add_right_comm]; exact hroom)
    exact ⟨u, hwalk.trans hwalk', hfirst.trans hothers⟩

/-- Where OUT lists bytes that were written from `a` on, it reads as these bytes. -/
theorem readOutBytes_eq_of_written {t : State} {m : List Host.Cell} {a : Nat} {bs : List Byte}
    (h : ∀ j < bs.length, Memory.read? t.outBuf (a + j) = Memory.read? (Memory.writeBytes m a bs) (a + j)) :
    t.readOutBytes a bs.length = bs := by
  refine List.ext_getElem (length_readOutBytes t a _) fun j _ hj => ?_
  rw [getElem_readOutBytes, State.readOut, h j hj, read?_writeBytes_inside m a bs hj]
  rfl

/-- Settles O39: the loop comes to the state in which the symbols are out (`exists_decoded_of_codes`, by induction on the symbols), ends
there because `ORIG` of them are, and the success exit keeps every byte before `OUT_LEN`. -/
theorem dwalkDecodesCodes : Obligations.DwalkDecodesCodes := by
  intro s T xs hinv hT hfits hemitted hlen hroom hxs hpre
  obtain ⟨rest, hbits⟩ := hpre
  have hsame : ({ s with walkCur := s.root } : State).bitsAhead = s.bitsAhead := bitsAhead_congr ⟨rfl, rfl, rfl, rfl, rfl, rfl⟩ rfl rfl
  obtain ⟨u, hwalk, hdecoded⟩ := exists_decoded_of_codes (s := { s with walkCur := s.root }) xs rest
    ⟨hT.held, hT.rootIsFork, hT.distinct, hT.bounded⟩ rfl hxs (hsame.trans hbits.symm) (by simp [hemitted, hlen]) hroom
  have horig : u.orig = s.orig := congrArg (·.orig) hdecoded.frame
  have hsum : s.emitted + BitVec.ofNat 64 (xs.map Prod.fst).length = s.orig := by
    rw [hemitted, List.length_map, hlen, BitVec.ofNat_toNat, BitVec.setWidth_eq]
    exact BitVec.zero_add _
  have hall : u.emitted = s.orig := (congrArg (·.emitted) hdecoded.frame).trans hsum
  obtain ⟨m, hm, hloop⟩ := hwalk (s.bitsLeft + 1) (Nat.lt_succ_self _)
  obtain ⟨m, rfl⟩ := Nat.exists_eq_succ_of_ne_zero (Nat.ne_zero_of_lt hm)
  have hexec : exec .dwalk s = .next u.successExit := by
    rw [exec_dwalk hfits, hloop, dwalkLoop_succ_of_not_lt (by rw [hall, horig]; exact BitVec.lt_irrefl _)]
    rfl
  have hout : u.outLen = s.outLen + (xs.map Prod.fst).length := congrArg (·.outLen) hdecoded.frame
  have hbuf : u.outBuf = Memory.writeBytes s.outBuf s.outLen (xs.map Prod.fst) := congrArg (·.outBuf) hdecoded.frame
  refine ⟨u.successExit, hexec, ?_, ?_, ?_, hdecoded.bitPos⟩
  · rw [hdecoded.frame, hsum, List.length_map]
    rfl
  · rw [← List.length_map (f := Prod.fst)]
    refine readOutBytes_eq_of_written (m := s.outBuf) fun j hj => ?_
    rw [← hbuf]
    exact read?_below u.outBuf (hout ▸ Nat.add_lt_add_left hj _)
  · exact (outputIsOnlyAppended .dwalk s _ hinv (by decide) hexec rfl).2

end Sys2Proof.Machine
end

section
/-! PROOFS of the family 44_bit_unpacker.md, second part: the tree of a run depends on nothing but the tally of the run's table. Two runs of the
tree builder on the same table take the same turns, whatever their arenas held before. -/

namespace Sys2Proof.Machine

/-! ### Runs as a relation -/

/-- Some number of steps leads from `s` to `t`. -/
def State.RunsTo (s t : State) : Prop := ∃ n, run n s = .next t

theorem State.RunsTo.trans {s t u : State} (h1 : s.RunsTo t) (h2 : t.RunsTo u) : s.RunsTo u :=
  have ⟨m, hm⟩ := h1
  have ⟨n, hn⟩ := h2
  ⟨m + n, (run_add hm).trans hn⟩

/-- A run is in progress, the host has no move to make, and `i` is the operation that `PHASE` names. -/
structure State.Performs (s : State) (i : Instr) : Prop where
  busy : s.state = .busy
  host : s.host = []
  phase : decodePhase s.phase = i

theorem State.Performs.step {s : State} {i : Instr} (h : s.Performs i) : step s = exec i s :=
  stepPerformsDecodedInstruction.1 s i h.busy h.host h.phase

theorem State.Performs.runsTo {s t : State} {i : Instr} (h : s.Performs i) (hexec : exec i s = .next t) : s.RunsTo t :=
  ⟨1, (run_succ_of_next (h.step.trans hexec)).trans (run_zero t)⟩

theorem step_of_done {s : State} (hdone : s.state = .done) (hhost : s.host = []) : step s = .next s := by
  rw [step_of_no_host hhost, fetch_of_done hdone]
  exact if_neg (by rw [hdone]; nofun)

theorem run_of_done {s : State} (hdone : s.state = .done) (hhost : s.host = []) (n : Nat) : run n s = .next s := by
  induction n with
  | zero => exact run_zero s
  | succ n ih => exact (run_succ_of_next (step_of_done hdone hhost)).trans ih

theorem host_of_run {n : Nat} {s t : State} (hhost : s.host = []) (h : run n s = .next t) : t.host = [] :=
  run_keeps (P := fun u => u.host = [])
    (fun _ _ hu hstep => (exec_inputFrame ((step_of_no_host hu).symm.trans hstep)).host.trans hu) hhost h

/-- A run that nothing disturbs has one end: in DONE the engine rests (rule R210). -/
theorem eq_of_runsTo_done {s t u : State} (hhost : s.host = []) (h1 : s.RunsTo t) (ht : t.state = .done) (h2 : s.RunsTo u)
    (hu : u.state = .done) : t = u := by
  have hlater : ∀ {m n : Nat} {t u : State}, m ≤ n → run m s = .next t → t.state = .done → run n s = .next u → t = u := by
    intro m n t u hmn hm ht hn
    obtain ⟨k, rfl⟩ := Nat.exists_eq_add_of_le hmn
    rw [run_add hm, run_of_done ht (host_of_run hhost hm)] at hn
    exact Host.Outcome.next.inj hn
  obtain ⟨m, hm⟩ := h1
  obtain ⟨n, hn⟩ := h2
  obtain hmn | hmn := Nat.le_total m n
  · exact hlater hmn hm ht hn
  · exact (hlater hmn hn hu hm).symm

/-! ### Two arenas alike below `NN` -/

/-- `s'` has the table and the queue of `s`, and its arena below `NN`. -/
structure AlikeBelow (s s' : State) : Prop where
  keys : s'.keys = s.keys
  freqOf : ∀ k, s'.freqOf k = s.freqOf k
  nn : s'.nn = s.nn
  pq : s'.pq = s.pq
  node : ∀ k < s.nn.toNat, s'.node[k]? = s.node[k]?

section
variable {s s' : State} {tr : NodeIx → HTree}

/-- A forest is made of entries below `NN` only. -/
theorem AlikeBelow.forest (h : AlikeBelow s s') (hs : s.Forest tr) : s'.Forest tr where
  queueIsSet := h.pq ▸ hs.queueIsSet
  below i hi := by rw [h.nn]; exact hs.below i (h.pq ▸ hi)
  closed k hk x hx hkind := by
    rw [h.nn] at hk ⊢
    exact hs.closed k hk x ((h.node k hk).symm.trans hx) hkind
  carries i hi := (hs.carries i (h.pq ▸ hi)).of_agree_below hs.closed (hs.below i (h.pq ▸ hi)) h.node h.freqOf
  symbols := by rw [h.pq, h.keys]; exact hs.symbols
  count := by rw [h.nn, h.pq, h.keys]; exact hs.count

/-- What `extract_min` returns depends only on the frequencies of the nodes in the queue (rule R122). -/
theorem extractMin_congr {node node' : Vector Node 511} {pq : List NodeIx} (h : ∀ i ∈ pq, nfreqOf node' i = nfreqOf node i) :
    extractMin node' pq = extractMin node pq := by
  have hlowest : lowest node' pq = lowest node pq := by
    induction pq with
    | nil => rfl
    | cons i rest ih =>
      obtain ⟨hi, hrest⟩ := List.forall_mem_cons.1 h
      simp only [lowest, ih hrest]
      cases hj : lowest node rest with
      | none => rfl
      | some j =>
        have hlower : lower node' i j = lower node i j := by rw [lower, hi, hrest j (lowest_spec hj).1, lower]
        simp only [hlower]
  rw [extractMin, hlowest, extractMin]

theorem exists_two_extracted (node : Vector Node 511) {pq : List NodeIx} (hset : pq.Nodup) (hlen : 2 ≤ pq.length) :
    ∃ a b rest rest', extractMin node pq = some (a, rest) ∧ extractMin node rest = some (b, rest') ∧ pq.Perm (a :: b :: rest') := by
  obtain ⟨a, rest, ha⟩ := exists_extractMin node (List.ne_nil_of_length_pos (by omega : 0 < pq.length))
  have hperm := perm_of_extractMin ha hset
  have hlen' := hperm.length_eq
  rw [List.length_cons] at hlen'
  obtain ⟨b, rest', hb⟩ := exists_extractMin node (List.ne_nil_of_length_pos (by omega : 0 < rest.length))
  exact ⟨a, b, rest, rest', ha, hb, hperm.trans ((perm_of_extractMin hb (hperm.nodup_iff.1 hset).of_cons).cons a)⟩

theorem AlikeBelow.merged {a b : NodeIx} {rest : List NodeIx} (h : AlikeBelow s s') (hnn : s.nn.toNat < 511) (ha : a.toNat < s.nn.toNat)
    (hb : b.toNat < s.nn.toNat) : AlikeBelow (s.merged a b rest) (s'.merged a b rest) where
  keys := h.keys
  freqOf := h.freqOf
  nn := congrArg (· + 1) h.nn
  pq := by rw [merged_pq, merged_pq, h.nn]
  node k hk := by
    have hnn' : s'.nn.toNat < 511 := by rwa [h.nn]
    rw [merged_nn_toNat a b rest hnn] at hk
    obtain hlt | rfl := Nat.lt_succ_iff_lt_or_eq.1 hk
    · rw [merged_node_other s a b rest hlt.ne, merged_node_other s' a b rest (by rw [h.nn]; exact hlt.ne), h.node k hlt]
    · have hsame := merged_node_same (s := s') a b rest hnn'
      rw [h.nn, parentOf, nfreqOf_congr (h.node _ ha), nfreqOf_congr (h.node _ hb)] at hsame
      exact hsame.trans (merged_node_same a b rest hnn).symm

/-- TMERGE takes the same two trees of both forests. -/
theorem AlikeBelow.exec_tmerge (h : AlikeBelow s s') (hs : s.Forest tr) (hlen : 2 ≤ s.pq.length) : ∃ a b rest,
    s.pq.Perm (a :: b :: rest) ∧ AlikeBelow (s.merged a b rest) (s'.merged a b rest) ∧
    tmergeOp s = .ok (s.merged a b rest) ∧ tmergeOp s' = .ok (s'.merged a b rest) := by
  obtain ⟨a, b, rest, rest', ha, hb, hperm⟩ := exists_two_extracted s.node hs.queueIsSet hlen
  have hnn := hs.nn_lt hlen
  have hmem : ∀ i ∈ rest, i ∈ s.pq := fun i hi => ((mem_rest_of_extractMin ha i).1 hi).1
  have hfreq : ∀ i ∈ s.pq, nfreqOf s'.node i = nfreqOf s.node i := fun i hi => nfreqOf_congr (h.node _ (hs.below i hi))
  have ha' : extractMin s'.node s'.pq = some (a, rest) := by rw [h.pq, extractMin_congr hfreq, ha]
  have hb' : extractMin s'.node rest = some (b, rest') := by rw [extractMin_congr fun i hi => hfreq i (hmem i hi), hb]
  have hs' := h.forest hs
  refine ⟨a, b, rest', hperm, h.merged hnn (hs.below a (hperm.mem_iff.2 (by simp))) (hs.below b (hperm.mem_iff.2 (by simp))),
    tmergeOp_eq_merged hnn hs.below ha hb, tmergeOp_eq_merged (by rwa [h.nn]) hs'.below ha' hb'⟩

theorem AlikeBelow.of_root_phase (h : AlikeBelow s s') (r r' : NodeIx) (p p' : PhaseCode) :
    AlikeBelow { s with root := r, phase := p } { s' with root := r', phase := p' } where
  keys := h.keys
  freqOf := h.freqOf
  nn := h.nn
  pq := h.pq
  node := h.node

end

/-- From two forests alike, of `n + 2` trees, `n + 1` merges lead to the same tree. -/
theorem AlikeBelow.run_tmerge (n : Nat) {s s' : State} {tr : NodeIx → HTree} (h : AlikeBelow s s') (hforest : s.Forest tr)
    (hs : s.Performs .tmerge) (hs' : s'.Performs .tmerge) (hlen : s.pq.length = n + 2) :
    ∃ t t', run (n + 1) s = .next t ∧ run (n + 1) s' = .next t' ∧ AlikeBelow t t' := by
  induction n generalizing s s' tr with
  | zero =>
    obtain ⟨a, b, rest, hperm, halike, hop, hop'⟩ := h.exec_tmerge hforest (by omega)
    obtain rfl : rest = [] := List.length_eq_zero_iff.1 (by simpa [hlen] using hperm.length_eq.symm)
    exact ⟨_, _, (run_succ_of_next (hs.step.trans (exec_tmerge_of_merged hop))).trans (run_zero _),
      (run_succ_of_next (hs'.step.trans (exec_tmerge_of_merged hop'))).trans (run_zero _), halike.of_root_phase _ _ _ _⟩
  | succ n ih =>
    obtain ⟨a, b, rest, hperm, halike, hop, hop'⟩ := h.exec_tmerge hforest (by omega)
    have hrest : rest.length = n + 1 := by simpa [hlen] using hperm.length_eq.symm
    have hne : rest ≠ [] := List.ne_nil_of_length_eq_add_one hrest
    have hstep := hs.step.trans (exec_tmerge_of_merged hop)
    have hstep' := hs'.step.trans (exec_tmerge_of_merged hop')
    rw [if_neg hne, if_neg hne] at hstep hstep'
    obtain ⟨t, t', hrun, hrun', hend⟩ := ih (halike.of_root_phase s.root s'.root Phase.tmerge Phase.tmerge)
      ((hforest.merged hperm).of_root_phase _ _) ⟨hs.busy, hs.host, rfl⟩ ⟨hs'.busy, hs'.host, rfl⟩
      (by rw [merged_pq, List.length_append, hrest, List.length_singleton])
    exact ⟨t, t', (run_succ_of_next hstep).trans hrun, (run_succ_of_next hstep').trans hrun', hend⟩

/-! ### The construction from a table -/

/-- TSEED is next, and there is no node yet. -/
structure State.AtTseed (s : State) : Prop where
  busy : s.state = .busy
  host : s.host = []
  phase : s.phase = Phase.tseed
  nn : s.nn = 0
  pq : s.pq = []

theorem State.AtTseed.performs {s : State} (h : s.AtTseed) : s.Performs .tseed := ⟨h.busy, h.host, by rw [h.phase]; rfl⟩

/-- After TSEED with two keys or more both arenas hold the same leaves. -/
theorem alikeBelow_of_exec_tseed {s s' : State} (hs : s.AtTseed) (hs' : s'.AtTseed) (hkeys : s'.keys = s.keys)
    (hfreq : ∀ k, s'.freqOf k = s.freqOf k) (hm : s.m.toNat = s.keys.length) (hm' : s'.m.toNat = s'.keys.length)
    (hlen : 2 ≤ s.keys.length) : ∃ t t', exec .tseed s = .next t ∧ exec .tseed s' = .next t' ∧ AlikeBelow t t' ∧
      t.Forest s.seedling ∧ t.pq.length = s.keys.length ∧ t.Performs .tmerge ∧ t'.Performs .tmerge := by
  obtain ⟨t, hexec, ht, htlen, hforest⟩ := exec_tseed_forest hs.nn hs.pq hm hlen
  obtain ⟨t1, hexec1, -, hnn, hpq, hleaf, -⟩ := tseedSeedsLeaves s hs.nn hs.pq hm hlen
  obtain ⟨t', hexec', ht', hnn', hpq', hleaf', -⟩ := tseedSeedsLeaves s' hs'.nn hs'.pq hm' (hkeys ▸ hlen)
  obtain rfl : t = t1 := Host.Outcome.next.inj (hexec.symm.trans hexec1)
  rw [hkeys] at hnn' hpq'
  refine ⟨t, t', hexec, hexec', ⟨?_, fun k => ?_, BitVec.eq_of_toNat_eq (hnn'.trans hnn.symm), hpq'.trans hpq.symm, fun k hk => ?_⟩, hforest,
    htlen, ?_, ?_⟩
  · rw [ht, ht']
    exact hkeys
  · rw [ht, ht']
    exact hfreq k
  · rw [hnn] at hk
    rw [hleaf k hk, hleaf' k (hkeys ▸ hk)]
    simp only [hkeys, hfreq]
  · rw [ht]
    exact ⟨hs.busy, hs.host, rfl⟩
  · rw [ht']
    exact ⟨hs'.busy, hs'.host, rfl⟩

/-- The symbols of a byte sequence in ascending order. -/
def keysOf (bs : List Byte) : List Byte := allSymbols.filter fun k => decide (k ∈ bs)

theorem mem_keysOf {bs : List Byte} {a : Byte} : a ∈ keysOf bs ↔ a ∈ bs := by
  simp [keysOf, mem_allSymbols]

theorem keysOf_ne_nil {bs : List Byte} (h : bs ≠ []) : keysOf bs ≠ [] :=
  have ⟨_, ha⟩ := List.exists_mem_of_ne_nil bs h
  List.ne_nil_of_mem (mem_keysOf.2 ha)

theorem State.Tallies.keys_eq {s : State} {bs : List Byte} (h : s.Tallies bs) : s.keys = keysOf bs :=
  List.filter_congr fun k _ => Bool.eq_iff_iff.2 ((h.isKey_iff k).trans decide_eq_true_iff.symm)

theorem State.Tallies.toNat_m_eq_length_keys {s : State} {bs : List Byte} (h : s.Tallies bs) : s.m.toNat = s.keys.length :=
  h.toNat_m.trans h.length_keys.symm

/-- On every table that tallies `bs`, whatever the arena held, the construction ends with the tree `T` at its root, and nothing but the
arena, `NN`, `PQ`, `ROOT` and `PHASE` has changed. -/
def BuildsTree (bs : List Byte) (T : HTree) : Prop :=
  ∀ s : State, s.AtTseed → s.Tallies bs → ∃ t, s.RunsTo t ∧
    t = { s with node := t.node, nn := t.nn, pq := t.pq, root := t.root, phase := Phase.cgen } ∧ t.HasTree T ∧
    ∀ a, a ∈ T.symbols ↔ a ∈ bs

/-- Two constructions from tables with the same tally, of two keys or more, end with arenas alike. -/
theorem alikeBelow_of_construction {bs : List Byte} {s s' : State} (hs : s.AtTseed) (hs' : s'.AtTseed) (htally : s.Tallies bs)
    (htally' : s'.Tallies bs) (hlen : 2 ≤ s.keys.length) :
    ∃ t t', run s.keys.length s = .next t ∧ run s.keys.length s' = .next t' ∧ AlikeBelow t t' := by
  obtain ⟨n, hn⟩ : ∃ n, s.keys.length = n + 2 := ⟨s.keys.length - 2, by omega⟩
  have hkeys : s'.keys = s.keys := htally'.keys_eq.trans htally.keys_eq.symm
  obtain ⟨u, u', hexec, hexec', halike, hforest, hulen, hu, hu'⟩ := alikeBelow_of_exec_tseed hs hs' hkeys
    (fun k => (htally'.freqOf_eq k).trans (htally.freqOf_eq k).symm) htally.toNat_m_eq_length_keys htally'.toNat_m_eq_length_keys hlen
  obtain ⟨t, t', hrun, hrun', hend⟩ := halike.run_tmerge n hforest hu hu' (hulen.trans hn)
  rw [hn]
  exact ⟨t, t', (run_succ_of_next (hs.performs.step.trans hexec)).trans hrun,
    (run_succ_of_next (hs'.performs.step.trans hexec')).trans hrun', hend⟩

/-- What tree a run builds depends only on the tally of its table (rules R121, R122, R127). -/
theorem exists_buildsTree {bs : List Byte} (hne : bs ≠ []) : ∃ T, BuildsTree bs T := by
  by_cases hone : (keysOf bs).length = 1
  · obtain ⟨x, hx⟩ := List.length_eq_one_iff.1 hone
    refine ⟨.fork (.leaf x) .hole, fun s hs htally => ?_⟩
    have hkeys : s.keys = [x] := htally.keys_eq.trans hx
    obtain ⟨t, T, hrun, ht, hT, hperm, -, hsingle, -⟩ := builtTreeCarriesTheKeys s hs.busy hs.host hs.phase hs.nn hs.pq htally.toNat_m_eq_length_keys
      (by rw [hkeys]; exact List.cons_ne_nil _ _)
    obtain ⟨-, -, rfl⟩ := hsingle x hkeys
    refine ⟨t, ⟨_, hrun⟩, ?_, hT, fun a => hperm.mem_iff.trans (htally.keys_eq ▸ mem_keysOf)⟩
    rw [ht]
  · by_cases hex : ∃ s : State, s.AtTseed ∧ s.Tallies bs
    · obtain ⟨s, hs, htally⟩ := hex
      have hlen : 2 ≤ s.keys.length := by
        have hpos := List.length_pos_iff.2 (keysOf_ne_nil hne)
        rw [htally.keys_eq]
        omega
      obtain ⟨t, tr, hrun, ht, hforest, -⟩ := run_construction hs.busy hs.host hs.phase hs.nn hs.pq htally.toNat_m_eq_length_keys hlen
      have hpq : t.pq = [t.root] := by rw [ht]
      refine ⟨tr t.root, fun s' hs' htally' => ?_⟩
      obtain ⟨u, t', hrun1, hrun', halike⟩ := alikeBelow_of_construction hs hs' htally htally' hlen
      obtain rfl : t = u := Host.Outcome.next.inj (hrun.symm.trans hrun1)
      have hkeys : s'.keys = s.keys := htally'.keys_eq.trans htally.keys_eq.symm
      obtain ⟨u', -, hrun1', ht', -⟩ := run_construction hs'.busy hs'.host hs'.phase hs'.nn hs'.pq htally'.toNat_m_eq_length_keys (hkeys ▸ hlen)
      obtain rfl : t' = u' := Host.Outcome.next.inj (hrun'.symm.trans (hkeys ▸ hrun1'))
      have hpq' : t'.pq = [t'.root] := by rw [ht']
      have hroot : t'.root = t.root := List.singleton_inj.1 (hpq'.symm.trans (halike.pq.trans hpq))
      have hkeys' : t'.keys = s'.keys := by rw [ht']; rfl
      obtain ⟨hT, hperm, -⟩ := (halike.forest hforest).hasTree hpq' (by rw [hkeys', hkeys]; exact hlen)
      rw [hroot, hkeys'] at hperm
      rw [hroot] at hT
      refine ⟨t', ⟨_, hrun'⟩, ?_, hT, fun a => hperm.mem_iff.trans (htally'.keys_eq ▸ mem_keysOf)⟩
      rw [ht']
    · exact ⟨.hole, fun s hs htally => absurd ⟨s, hs, htally⟩ hex⟩

end Sys2Proof.Machine
end

section
/-! PROOFS of the family 44_bit_unpacker.md, third part: where a COMPRESS run ends, and what a successful one leaves in OUT. -/

namespace Sys2Proof.Machine

/-! ### The START and INIT (rules R210, R211) -/

section
variable {s : State}

theorem start_of_not_busy (h : s.state ≠ .busy) (op : Bool) :
    s.start op = { s with ctrlOp := op, state := .busy, ok := false, err := none, phase := Phase.init } := if_neg h

theorem start_performs (h : s.state ≠ .busy) (hhost : s.host = []) (op : Bool) : (s.start op).Performs .init := by
  rw [start_of_not_busy h]
  exact ⟨rfl, hhost, rfl⟩

theorem exec_init_of_not_fits (h : s.inputFits = false) : exec .init s = .next ((initWork s).failureExit .capacityExceeded) := by
  have h' : (initWork s).inputFits = false := h
  simp [exec, execInit, initOp, h']

theorem exec_init_of_fits (h : s.inputFits = true) : exec .init s = (afterInit (initWork s)).outcome := by
  have h' : (initWork s).inputFits = true := h
  simp [exec, execInit, initOp, h']

theorem initWork_tableClear (s : State) : (initWork s).TableClear :=
  ⟨rfl, fun sym => ⟨by simp [State.isKey], by simp [State.freqOf]⟩⟩

end

/-- `u` is in the run that a START of the command `op` began in `s`, and nothing has been written or emitted yet. -/
structure BeforeOutput (s : State) (op : Bool) (u : State) : Prop where
  input : InputFrame s u
  busy : u.state = .busy
  ctrlOp : u.ctrlOp = op
  outLen : u.outLen = 0
  bwAcc : u.bwAcc = 0
  bwCur : u.bwCur = 0
  emitted : u.emitted = 0

section
variable {s u t : State} {op : Bool}

/-- The form in which the frames of the operations give it. -/
theorem BeforeOutput.of_eq (h : BeforeOutput s op u)
    (e : t = { t with inBuf := u.inBuf, inEpoch := u.inEpoch, inLen := u.inLen, cfg := u.cfg, host := u.host, replies := u.replies,
                      state := u.state, ctrlOp := u.ctrlOp, outLen := u.outLen, bwAcc := u.bwAcc, bwCur := u.bwCur, emitted := u.emitted }) :
    BeforeOutput s op t := by
  rw [e]
  exact ⟨⟨h.input.inBuf, h.input.inEpoch, h.input.inLen, h.input.cfg, h.input.host, h.input.replies⟩, h.busy, h.ctrlOp, h.outLen, h.bwAcc,
    h.bwCur, h.emitted⟩

theorem initWork_beforeOutput (h : s.state ≠ .busy) (op : Bool) : BeforeOutput s op (initWork (s.start op)) := by
  rw [start_of_not_busy h]
  exact ⟨⟨rfl, rfl, rfl, rfl, rfl, rfl⟩, rfl, rfl, rfl, rfl, rfl, rfl⟩

theorem BeforeOutput.goto (h : BeforeOutput s op u) (p : PhaseCode) : BeforeOutput s op (u.goto p) := h.of_eq rfl

theorem BeforeOutput.performs {i : Instr} (h : BeforeOutput s op u) (hhost : s.host = []) (hphase : decodePhase u.phase = i) :
    u.Performs i := ⟨h.busy, h.input.host.trans hhost, hphase⟩

theorem BeforeOutput.inputFits (h : BeforeOutput s op u) : u.inputFits = s.inputFits := by
  rw [State.inputFits, h.input.cfg, h.input.inLen, State.inputFits]

theorem InputFrame.input_eq (h : InputFrame s u) : u.input = s.input := by
  rw [State.input, h.inLen, h.readInBytes, State.input]

end

/-! ### FCOUNT, and the tree (rules R111, R123, R126, R140) -/

/-- INIT and FCOUNT lead to TSEED with the tally of the input. -/
theorem compress_runsTo_tseed {s : State} (hrest : s.state ≠ .busy) (hhost : s.host = []) (hfits : s.inputFits = true) (hne : s.inLen ≠ 0) :
    ∃ u, (s.start false).RunsTo u ∧ BeforeOutput s false u ∧ u.AtTseed ∧ u.Tallies s.input := by
  have hbegun := (initWork_beforeOutput hrest false).goto Phase.fcount
  have hinit : exec .init (s.start false) = .next ((initWork (s.start false)).goto Phase.fcount) := by
    have hop := (initWork_beforeOutput hrest false).ctrlOp
    have hlen : (initWork (s.start false)).inLen ≠ 0 := by rwa [(initWork_beforeOutput hrest false).input.inLen]
    rw [exec_init_of_fits (s := s.start false) ((initWork_beforeOutput hrest false).inputFits.trans hfits), afterInit, if_neg (by rw [hop]; nofun), if_neg hlen]
    rfl
  have hclear : ((initWork (s.start false)).goto Phase.fcount).TableClear := initWork_tableClear (s.start false)
  have htally := counted_tallies hclear
  have hcounted := counted_frame ((initWork (s.start false)).goto Phase.fcount)
  refine ⟨_, ((start_performs hrest hhost false).runsTo hinit).trans
    ((hbegun.performs hhost rfl).runsTo (exec_fcount (hbegun.inputFits.trans hfits))), ?_, ?_, ?_⟩
  · exact (hbegun.of_eq (t := State.counted _) (by rw [hcounted])).goto _
  · rw [hcounted]
    exact ⟨hbegun.busy, hbegun.input.host.trans hhost, rfl, rfl, rfl⟩
  · rw [hbegun.input.input_eq] at htally
    exact ⟨htally.freqOf_eq, htally.isKey_iff, htally.m_eq⟩

/-- From TSEED the tree of the table is built, and CGEN gives every symbol its path. Behind CGEN stands the size check. -/
theorem runsTo_cgen {s u : State} {op : Bool} {bs : List Byte} {T : HTree} (hbegun : BeforeOutput s op u) (hu : u.AtTseed)
    (htally : u.Tallies bs) (hT : BuildsTree bs T) :
    ∃ v t, u.RunsTo t ∧ exec .cgen t = (afterCodes v).outcome ∧ t.Performs .cgen ∧ BeforeOutput s op v ∧ v.HasTree T ∧ v.Tallies bs ∧
      (∀ a ∈ bs, (a, v.codeBitsOf a) ∈ T.codes) ∧
      v = { u with node := v.node, nn := v.nn, pq := v.pq, root := v.root, phase := v.phase, code := v.code } := by
  obtain ⟨t, hrun, ht, hT, hsymbols⟩ := hT u hu htally
  have hframe := withPaths_frame t T.codes
  have hpath := hasPath_of_hasTree hT
  refine ⟨t.withPaths T.codes, t, hrun, exec_cgen_of_hasTree hT, ?_, ?_, ?_, ?_, fun a ha => ?_, ?_⟩
  · rw [ht]
    exact ⟨hu.busy, hu.host, rfl⟩
  · exact hbegun.of_eq (by rw [hframe, ht])
  · rw [hframe]
    exact ⟨hT.held, hT.rootIsFork, hT.distinct, hT.bounded⟩
  · rw [hframe, ht]
    exact ⟨htally.freqOf_eq, htally.isKey_iff, htally.m_eq⟩
  · obtain ⟨e, he, rfl⟩ := List.mem_map.1 ((hsymbols a).2 ha)
    rw [(hpath e he).2]
    exact he
  · rw [hframe, ht]

/-! ### The length of the container (rule R213) -/

/-- The bits of the codes of all input bytes, counted by symbol. -/
theorem codeBits_eq_length {v : State} {bs : List Byte} (htally : v.Tallies bs) (hlen : bs.length < 2 ^ 64) :
    v.codeBits = (bs.flatMap v.codeBitsOf).length := by
  have hkeys : v.keys.toFinset = bs.toFinset := Finset.ext fun a => by simp [htally.keys_eq, mem_keysOf]
  rw [State.codeBits, ← List.sum_toFinset _ (nodup_keys v), hkeys, List.length_flatMap, Finset.sum_list_map_count]
  exact Finset.sum_congr rfl fun a _ => by rw [htally.toNat_freqOf hlen, length_codeBitsOf, smul_eq_mul]

/-- Header and frequency table of the container of a byte sequence (rules R81 to R87). -/
def containerHead (bs : List Byte) : List Byte :=
  Config.magic ++ leBytes 8 bs.length ++ leBytes 4 bs.dedup.length ++ (keysOf bs).flatMap fun k => k :: leBytes 8 (bs.count k)

theorem length_containerHead (bs : List Byte) : (containerHead bs).length = 16 + 9 * (keysOf bs).length := by
  simp [containerHead, Config.magic, List.length_flatMap, Nat.mul_comm]
  omega

/-- What CENC appends is the head of the container of the byte sequence that the table tallies. -/
theorem headerBytes_append_tableBytes {v : State} {bs : List Byte} (htally : v.Tallies bs) (horig : v.orig.toNat = bs.length) :
    v.headerBytes ++ v.tableBytes = containerHead bs := by
  have hentry : v.entryBytes = fun k => k :: leBytes 8 (bs.count k) := funext fun k => by
    rw [State.entryBytes, htally.toNat_freqOf (horig ▸ v.orig.isLt)]
  rw [State.headerBytes, State.tableBytes, horig, htally.toNat_m, htally.keys_eq, hentry, containerHead]

/-! ### What PACK keeps -/

section
variable {P : State → Prop}

/-- What WBIT keeps, and what does not depend on the registers that PUTCODE and PACK set for it, PACK keeps. -/
theorem packOp_keeps (hwbit : ∀ u, P u → (wbitOp u).Within P)
    (hset : ∀ {u v : State}, P u → v = { u with phase := v.phase, opBit := v.opBit, opSym := v.opSym, inPos := v.inPos } → P v) {s : State}
    (h : P s) : (packOp s).Within P := by
  have hnested : ∀ {op : State → Flow}, (∀ u, P u → (op u).Within P) → ∀ inner outer u, P u → (nested inner outer op u).Within P :=
    fun hop inner outer u hu => within_andThen (hop _ (hset hu rfl)) (fun _ hv => hv) fun v hv => hset hv rfl
  have hputcode : ∀ u, P u → (putcodeOp u).Within P := fun u hu =>
    within_each_of_keeps (fun k v hv => hnested hwbit _ _ _ (hset hv rfl)) _ hu
  have hbyte : ∀ u, P u → (packByte u).Within P := fun u hu =>
    within_andThen (hnested hputcode _ _ _ (hset hu rfl)) (fun _ hv => hv) fun v hv => hset hv rfl
  have hloop : ∀ n u, P u → (packLoop n u).Within P := by
    intro n
    induction n with
    | zero => exact fun u hu => hu
    | succ n ih =>
      intro u hu
      unfold packLoop
      split
      · exact within_andThen (hbyte u hu) (fun _ hv => hv) ih
      · exact hu
  exact hloop _ _ (hset h rfl)

end

/-- The accumulator is clear above its cursor, and OUT lists every byte before `OUT_LEN` (rules R65, R150). -/
structure State.WriterInv (s : State) : Prop where
  accumulatorClear : ∀ k, s.bwCur.toNat ≤ k → s.bwAcc.getLsbD k = false
  outputListed : ∀ a < s.outLen, (Memory.read? s.outBuf a).isSome = true

theorem byteOut_writerInv {s : State} (h : s.WriterInv) (b : Byte) : (s.byteOut b).WriterInv where
  accumulatorClear _ _ := BitVec.getLsbD_zero
  outputListed a ha := by
    change (Memory.read? (Memory.write s.outBuf s.outLen b) a).isSome = true
    by_cases hlast : a = s.outLen
    · rw [hlast, read?_write_same]
      rfl
    · rw [read?_write_other _ _ hlast]
      exact h.outputListed a (Nat.lt_of_le_of_ne (Nat.le_of_lt_succ ha) hlast)

theorem wbitOp_writerInv {s : State} (h : s.WriterInv) : (wbitOp s).Within State.WriterInv := by
  by_cases hcur : s.bwCur = 7
  · cases hroom : s.cfg.outHolds (s.outLen + 1) with
    | true =>
      rw [wbitOp_of_eq hcur hroom]
      exact byteOut_writerInv h _
    | false =>
      have hstop : wbitOp s = .stopped .outAddressAbsent := by
        simp [wbitOp, hcur, append_of_not_holds (s := s) (bs := [_]) hroom]
      rw [hstop]
      exact within_stopped
  · rw [wbitOp_of_ne hcur]
    refine ⟨fun k hk => ?_, h.outputListed⟩
    change (s.bwCur + 1).toNat ≤ k at hk
    change s.accWithBit.getLsbD k = false
    have hk' : s.bwCur.toNat + 1 ≤ k := by bv_omega
    rw [State.accWithBit, getLsbD_setBit _ _ _ _ (by omega), if_neg (by omega)]
    exact h.accumulatorClear k (by omega)

theorem packOp_writerInv {s : State} (h : s.WriterInv) : (packOp s).Within State.WriterInv :=
  packOp_keeps (fun _ => wbitOp_writerInv) (fun hu e => by rw [e]; exact ⟨hu.accumulatorClear, hu.outputListed⟩) h

/-! ### FLUSH fills the last byte with zeros (rules R89, R152) -/

theorem byteBits_of_clear {b : Byte} {n : Nat} (h : ∀ k, n ≤ k → b.getLsbD k = false) :
    byteBits b = (byteBits b).take n ++ List.replicate (8 - n) false := by
  have hlen : (byteBits b).length = 8 := by rw [byteBits, List.length_map, List.length_range]
  have hdrop : (byteBits b).drop n = List.replicate (8 - n) false :=
    List.eq_replicate_iff.2 ⟨by rw [List.length_drop, hlen], fun x hx => by
      obtain ⟨j, hj, rfl⟩ := List.getElem_of_mem hx
      simpa [byteBits] using h (n + j) (Nat.le_add_right n j)⟩
  rw [← hdrop, List.take_append_drop]

theorem readOutBytes_byteOut {s : State} {base : Nat} (hbase : base ≤ s.outLen) (b : Byte) :
    (s.byteOut b).readOutBytes base (s.outLen + 1 - base) = s.readOutBytes base (s.outLen - base) ++ [b] := by
  rw [show s.outLen + 1 - base = s.outLen - base + 1 by omega, readOutBytes_append, show base + (s.outLen - base) = s.outLen by omega,
    readOutBytes_congr _ _ fun x _ hx => byteOut_readOut_other s b (by omega)]
  exact congrArg (fun v => _ ++ [v]) (byteOut_readOut_same s b)

theorem exec_flush_pads {s : State} {base : Nat} (h : s.WriterInv) (hbase : base ≤ s.outLen)
    (hroom : s.bwCur ≠ 0 → s.cfg.outHolds (s.outLen + 1) = true) : ∃ (x : State) (pad : Nat), pad < 8 ∧
      exec .flush s = .next x.successExit ∧ x.WriterInv ∧ s.outLen ≤ x.outLen ∧ (∀ a < s.outLen, x.readOut a = s.readOut a) ∧ x.code = s.code ∧
      streamOf (x.readOutBytes base (x.outLen - base)) = s.written base ++ List.replicate pad false := by
  by_cases hcur : s.bwCur = 0
  · refine ⟨s, 0, by omega, exec_flush_of_ok (flushOp_of_zero hcur), h, le_rfl, fun _ _ => rfl, rfl, ?_⟩
    rw [State.written, hcur]
    simp
  · have hpos : s.bwCur.toNat ≠ 0 := fun e => hcur (BitVec.eq_of_toNat_eq e)
    refine ⟨s.byteOut s.bwAcc, 8 - s.bwCur.toNat, by omega, exec_flush_of_ok (flushOp_of_ne_zero hcur (hroom hcur)), byteOut_writerInv h _,
      Nat.le_succ _, fun a ha => byteOut_readOut_other s _ ha.ne, rfl, ?_⟩
    have hbytes := readOutBytes_byteOut hbase s.bwAcc
    change streamOf ((s.byteOut s.bwAcc).readOutBytes base (s.outLen + 1 - base)) = _
    rw [hbytes, streamOf_append, streamOf_singleton, byteBits_of_clear h.accumulatorClear, State.written, List.append_assoc]

theorem output_successExit {x : State} (h : x.WriterInv) : x.successExit.output = x.output :=
  readOutBytes_congr 0 x.outLen fun a _ ha => (successExit_outExtends x).readOut_eq (by omega) (h.outputListed a (by omega))

/-! ### From CENC to the end of the run -/

/-- The state as CENC leaves it: the head of the container stands in OUT. -/
def State.headOut (v : State) (head : List Byte) : State :=
  { v with orig := v.inLen, outBuf := Memory.writeBytes v.outBuf v.outLen head, outLen := v.outLen + head.length,
           phase := Phase.pack }

theorem exec_cenc_of_room {v : State} {bs : List Byte} (htally : v.Tallies bs) (hlen : v.inLen.toNat = bs.length)
    (hroom : v.cfg.outHolds (v.outLen + (containerHead bs).length) = true) :
    exec .cenc v = .next (v.headOut (containerHead bs)) := by
  have hhead : ({ v with orig := v.inLen } : State).headerBytes ++ ({ v with orig := v.inLen } : State).tableBytes = containerHead bs :=
    headerBytes_append_tableBytes ⟨htally.freqOf_eq, htally.isKey_iff, htally.m_eq⟩ hlen
  generalize containerHead bs = head at hhead hroom ⊢
  rw [exec, execCenc, cencOp, hhead, append_of_holds (s := { v with orig := v.inLen }) hroom]
  rfl

theorem headOut_input (v : State) (head : List Byte) : (v.headOut head).input = v.input :=
  InputFrame.input_eq ⟨rfl, rfl, rfl, rfl, rfl, rfl⟩

section
variable {v : State} (head : List Byte) (hlen : v.outLen = 0)
include hlen

theorem headOut_outLen : (v.headOut head).outLen = head.length := by
  rw [State.headOut, hlen, Nat.zero_add]

theorem headOut_output : (v.headOut head).output = head := by
  rw [State.output, headOut_outLen head hlen]
  exact readOutBytes_eq_of_written (m := v.outBuf) fun j _ => by rw [State.headOut, hlen]

theorem headOut_writerInv (hacc : v.bwAcc = 0) : (v.headOut head).WriterInv where
  accumulatorClear k _ := by
    change v.bwAcc.getLsbD k = false
    rw [hacc]
    exact BitVec.getLsbD_zero
  outputListed a ha := by
    rw [headOut_outLen head hlen] at ha
    have hlisted := read?_writeBytes_inside v.outBuf 0 head ha
    rw [Nat.zero_add] at hlisted
    rw [State.headOut, hlen, hlisted]
    rfl

end

theorem exec_pack_of_ok {s t : State} (hfits : s.inputFits = true) (h : packOp s = .ok t) :
    exec .pack s = .next (t.goto Phase.flush) := by
  rw [exec, execPack, withInput_of_fits hfits, h]
  rfl

theorem written_outLen {s : State} (h : s.bwCur = 0) : s.written s.outLen = [] := by
  rw [State.written, Nat.sub_self, h]
  rfl

/-- PACK and FLUSH write the codes of the input behind what stands in OUT, and the run succeeds (rules R152, R154, R214). -/
theorem runsTo_of_performs_pack {s : State} (hperf : s.Performs .pack) (hfits : s.inputFits = true) (hinv : s.WriterInv)
    (hcur : s.bwCur = 0) (hroom : s.cfg.outHolds (s.outLen + ((s.input.flatMap s.codeBitsOf).length + 7) / 8) = true) :
    ∃ (x : State) (tail : List Byte) (pad : Nat), pad < 8 ∧ s.RunsTo x.successExit ∧ x.successExit.output = s.output ++ tail ∧
      x.successExit.codeBitsOf = s.codeBitsOf ∧ streamOf tail = s.input.flatMap s.codeBitsOf ++ List.replicate pad false := by
  have hcur' : s.bwCur.toNat = 0 := congrArg BitVec.toNat hcur
  obtain ⟨t, hpack, hwrote, -⟩ := packOp_writes (s := s) (outHolds_mono (by omega) hroom)
  have hframe : PackFrame s t := hwrote.frame
  have hcode := hframe.codeBitsOf
  obtain ⟨hbusy, hhost, hcfg⟩ : t.state = .busy ∧ t.host = [] ∧ t.cfg = s.cfg := by
    rw [hframe]
    exact ⟨hperf.busy, hperf.host, rfl⟩
  have hlen := hwrote.outLen
  have hlast := hwrote.bwCur
  have hclear : t.WriterInv := (packOp_writerInv hinv).of_ok hpack
  obtain ⟨x, pad, hpad, hflush, hx, hle, hkept, hxcode, hstream⟩ := exec_flush_pads (s := t.goto Phase.flush) (base := s.outLen)
    ⟨hclear.accumulatorClear, hclear.outputListed⟩ (by rw [goto_outLen]; omega) fun hne => by
      have hne' : t.bwCur.toNat ≠ 0 := fun e => hne (BitVec.eq_of_toNat_eq e)
      rw [goto_cfg, goto_outLen, hcfg]
      exact outHolds_mono (by omega) hroom
  rw [goto_outLen] at hle hkept
  refine ⟨x, x.readOutBytes s.outLen (x.outLen - s.outLen), pad, hpad,
    (hperf.runsTo (exec_pack_of_ok hfits hpack)).trans (State.Performs.runsTo ⟨hbusy, hhost, rfl⟩ hflush), ?_, ?_, ?_⟩
  · have hsplit := readOutBytes_append x 0 s.outLen (x.outLen - s.outLen)
    rw [Nat.zero_add, Nat.add_sub_cancel' (by omega)] at hsplit
    rw [output_successExit hx, State.output, hsplit, State.output]
    congr 1
    exact readOutBytes_congr 0 s.outLen fun a _ ha => (hkept a (by omega)).trans (hwrote.outside a (.inl (by omega)))
  · rw [← hcode]
    funext sym
    simp only [State.codeBitsOf, State.codeOf, successExit_code, hxcode, goto_code]
  · have hwritten := (hwrote.goto Phase.flush).written s.outLen le_rfl
    rw [written_outLen hcur] at hwritten
    rw [hstream, hwritten, List.nil_append]

/-- With room for the container CENC, PACK and FLUSH write it, and the run succeeds (rules R89, R212, R214). -/
theorem runsTo_container {s v : State} {bs : List Byte} (hhost : s.host = []) (hfits : s.inputFits = true) (hv : BeforeOutput s false v)
    (hphase : v.phase = Phase.cenc) (htally : v.Tallies bs) (hbs : v.input = bs) (hroom : v.cfg.outHolds v.containerLen = true) :
    ∃ (x : State) (tail : List Byte) (pad : Nat), pad < 8 ∧ v.RunsTo x.successExit ∧ x.successExit.output = containerHead bs ++ tail ∧
      x.successExit.codeBitsOf = v.codeBitsOf ∧ streamOf tail = bs.flatMap v.codeBitsOf ++ List.replicate pad false := by
  have hlen : v.inLen.toNat = bs.length := hbs ▸ (length_input v).symm
  have htotal : v.containerLen = (containerHead bs).length + ((bs.flatMap v.codeBitsOf).length + 7) / 8 := by
    rw [State.containerLen, codeBits_eq_length htally (hlen ▸ v.inLen.isLt), htally.toNat_m_eq_length_keys, htally.keys_eq,
      length_containerHead]
    rfl
  have hcenc := exec_cenc_of_room htally hlen (outHolds_mono (by rw [hv.outLen, htotal]; omega) hroom)
  have hinput : (v.headOut (containerHead bs)).input = bs := (headOut_input v _).trans hbs
  obtain ⟨x, tail, pad, hpad, hrun, hout, hcode, hstream⟩ := runsTo_of_performs_pack (s := v.headOut (containerHead bs))
    ⟨hv.busy, hv.input.host.trans hhost, rfl⟩ (hv.inputFits.trans hfits) (headOut_writerInv _ hv.outLen hv.bwAcc) hv.bwCur (by
      rw [hinput, headOut_outLen _ hv.outLen]
      exact htotal ▸ hroom)
  rw [hinput] at hstream
  rw [headOut_output _ hv.outLen] at hout
  exact ⟨x, tail, pad, hpad, ((hv.performs hhost (by rw [hphase]; rfl)).runsTo hcenc).trans hrun, hout, hcode, hstream⟩

/-! ### The end of a COMPRESS run -/

/-- A byte sequence `out` is the container of `bs`: its head, then the codes that the tree of `bs` gives its bytes, filled up to whole bytes
with zeros (rules R81, R89). -/
structure IsContainer (bs : List Byte) (T : HTree) (code : Byte → List Bool) (tail out : List Byte) : Prop where
  tree : BuildsTree bs T
  code_mem : ∀ a ∈ bs, (a, code a) ∈ T.codes
  code_ne_nil : ∀ a ∈ bs, code a ≠ []
  out_eq : out = containerHead bs ++ tail
  stream : ∃ pad < 8, streamOf tail = bs.flatMap code ++ List.replicate pad false

/-- A COMPRESS run ends, and if it succeeds its input is not empty and its output is the input's container. -/
theorem compress_runsTo_done {s : State} (hrest : s.state ≠ .busy) (hhost : s.host = []) : ∃ t, (s.start false).RunsTo t ∧ t.state = .done ∧
    (t.ok = true → s.input ≠ [] ∧ ∃ T tail, IsContainer s.input T t.codeBitsOf tail t.output) := by
  have hstart := start_performs hrest hhost false
  have hinput := (initWork_beforeOutput hrest false).input
  have hbegun := (initWork_beforeOutput hrest false).inputFits
  cases hfits : s.inputFits with
  | false =>
    exact ⟨_, hstart.runsTo (exec_init_of_not_fits (s := s.start false) (hbegun.trans hfits)), rfl, nofun⟩
  | true =>
    by_cases hne : s.inLen = 0
    · have hinit : exec .init (s.start false) = .next ((initWork (s.start false)).failureExit .inputEmpty) := by
        have hop := (initWork_beforeOutput hrest false).ctrlOp
        rw [exec_init_of_fits (s := s.start false) (hbegun.trans hfits), afterInit, if_neg (by rw [hop]; nofun), if_pos (hinput.inLen.trans hne)]
        rfl
      exact ⟨_, hstart.runsTo hinit, rfl, nofun⟩
    · have hbs : s.input ≠ [] := fun e => hne (BitVec.eq_of_toNat_eq ((length_input s).symm.trans (congrArg List.length e)))
      obtain ⟨T, hT⟩ := exists_buildsTree hbs
      obtain ⟨u, hrun, hu, hseed, htally⟩ := compress_runsTo_tseed hrest hhost hfits hne
      obtain ⟨v, t, hrun', hexec, hperf, hv, htree, htally', hcodes, -⟩ := runsTo_cgen hu hseed htally hT
      rw [outcome_afterCodes, if_neg (by rw [hv.ctrlOp]; nofun)] at hexec
      by_cases hroom : v.cfg.outHolds v.containerLen = true
      · rw [if_pos hroom] at hexec
        obtain ⟨x, tail, pad, hpad, hend, hout, hcode, hstream⟩ := runsTo_container hhost hfits (hv.goto Phase.cenc) rfl
          ⟨htally'.freqOf_eq, htally'.isKey_iff, htally'.m_eq⟩ (hv.goto Phase.cenc).input.input_eq hroom
        have hne : ∀ a ∈ s.input, v.codeBitsOf a ≠ [] := fun a ha => by
          obtain ⟨l, r, rfl⟩ := htree.rootIsFork
          exact path_ne_nil_of_mem_codes_fork (hcodes a ha)
        refine ⟨x.successExit, ((hrun.trans hrun').trans (hperf.runsTo hexec)).trans hend, rfl, fun _ => ⟨hbs, T, tail, ?_⟩⟩
        rw [hcode]
        exact ⟨hT, hcodes, hne, hout, pad, hpad, hstream⟩
      · rw [if_neg hroom] at hexec
        exact ⟨_, (hrun.trans hrun').trans (hperf.runsTo hexec), rfl, nofun⟩

end Sys2Proof.Machine
end

section
/-! PROOFS of the family 44_bit_unpacker.md, fourth part: a DECOMPRESS run of a container, and of one that has lost its last byte (O54). -/

namespace Sys2Proof.Machine

/-! ### The table of a container (rules R190, R193) -/

/-- A part of the input stands at the address that the part before it ends at. -/
theorem readInBytes_of_input_eq {s : State} {pre mid post : List Byte} {a n : Nat} (h : s.input = pre ++ mid ++ post)
    (ha : pre.length = a) (hn : mid.length = n) : s.readInBytes a n = mid := by
  have hlen : s.inLen.toNat = a + n + post.length := by
    rw [← length_input, h, List.length_append, List.length_append, ha, hn]
  rw [State.input, hlen, readInBytes_append, readInBytes_append, Nat.zero_add] at h
  have hfront := (List.append_inj h (by simp [ha, hn])).1
  exact (List.append_inj hfront (by simp [ha])).2

/-- A symbol's entry read: it is a key, with this count. -/
def State.withEntry (s : State) (e : Byte × Word64) : State := (s.markKey e.1).setFreq e.1 e.2

/-- The nine bytes of an entry (rule R86). -/
def entryBytesOf (e : Byte × Word64) : List Byte := e.1 :: leBytes 8 e.2.toNat

theorem length_flatMap_entryBytesOf (es : List (Byte × Word64)) : (es.flatMap entryBytesOf).length = 9 * es.length := by
  simp [entryBytesOf, List.length_flatMap, Nat.mul_comm]

theorem withEntry_frame (s : State) (e : Byte × Word64) : TableFrame s (s.withEntry e) :=
  (markKey_frame s _).trans (setFreq_frame _ _ _)

theorem parseEntry_of_bytes {s : State} {i : Nat} {e : Byte × Word64} (h : s.readInBytes (16 + 9 * i) 9 = entryBytesOf e) :
    parseEntry s i = s.withEntry e := by
  obtain ⟨hsym, hcount⟩ := List.cons.inj h
  have hfreq : s.entryFreq i = e.2 := by
    have hread : s.readInBytes (Config.hdrLen + 1 + Config.entLen * i) 8 = leBytes 8 e.2.toNat := by
      rw [show Config.hdrLen + 1 + Config.entLen * i = 16 + 9 * i + 1 by simp [Config.hdrLen, Config.entLen]; omega]
      exact hcount
    rw [State.entryFreq, State.memRead, hread, leValue_leBytes 8 _ e.2.isLt, BitVec.ofNat_toNat, BitVec.setWidth_eq]
  rw [parseEntry, hfreq, State.entrySym, show s.readIn (Config.hdrLen + Config.entLen * i) = e.1 from hsym, State.withEntry]

/-- Where the entries `es` stand from entry `i` on, the parser reads them in their order. -/
theorem parseEntries_eq_foldl (es : List (Byte × Word64)) {s : State} {i : Nat}
    (h : s.readInBytes (16 + 9 * i) (9 * es.length) = es.flatMap entryBytesOf) : parseEntries es.length i s = es.foldl State.withEntry s := by
  induction es generalizing s i with
  | nil => rfl
  | cons e es ih =>
    rw [List.length_cons, show 9 * (es.length + 1) = 9 + 9 * es.length by omega, readInBytes_append, List.flatMap_cons] at h
    obtain ⟨hfirst, hrest⟩ := List.append_inj h (by simp [entryBytesOf])
    have hframe := withEntry_frame s e
    have hread : (s.withEntry e).readInBytes (16 + 9 * (i + 1)) (9 * es.length) = es.flatMap entryBytesOf := by
      rw [hframe.toHost.readInBytes, ← hrest,
        show 16 + 9 * (i + 1) = 16 + 9 * i + 9 by omega]
    rw [List.length_cons, parseEntries, parseEntry_of_bytes hfirst, ih hread, List.foldl_cons]

section
variable {s : State}

theorem foldl_withEntry_frame (es : List (Byte × Word64)) : TableFrame s (es.foldl State.withEntry s) := by
  induction es generalizing s with
  | nil => exact .refl s
  | cons e es ih => exact (withEntry_frame s e).trans ih

theorem foldl_withEntry_isKey_iff (es : List (Byte × Word64)) (k : Byte) :
    (es.foldl State.withEntry s).isKey k = true ↔ k ∈ es.map Prod.fst ∨ s.isKey k = true := by
  induction es generalizing s with
  | nil => simp
  | cons e es ih =>
    rw [List.foldl_cons, ih, State.withEntry, isKey_setFreq, isKey_markKey, List.map_cons, List.mem_cons]
    tauto

theorem foldl_withEntry_freqOf_of_notMem (es : List (Byte × Word64)) {k : Byte} (h : k ∉ es.map Prod.fst) :
    (es.foldl State.withEntry s).freqOf k = s.freqOf k := by
  induction es generalizing s with
  | nil => rfl
  | cons e es ih =>
    obtain ⟨hne, hrest⟩ := List.ne_and_not_mem_of_not_mem_cons h
    rw [List.foldl_cons, ih hrest, State.withEntry, freqOf_setFreq, if_neg hne.symm, freqOf_markKey]

theorem foldl_withEntry_freqOf_of_mem (es : List (Byte × Word64)) (hnodup : (es.map Prod.fst).Nodup) :
    ∀ e ∈ es, (es.foldl State.withEntry s).freqOf e.1 = e.2 := by
  induction es generalizing s with
  | nil => exact fun e he => nomatch he
  | cons e es ih =>
    obtain ⟨hfresh, hrest⟩ := List.nodup_cons.1 hnodup
    refine List.forall_mem_cons.2 ⟨?_, ih hrest⟩
    rw [List.foldl_cons, foldl_withEntry_freqOf_of_notMem es hfresh, State.withEntry, freqOf_setFreq, if_pos rfl]

theorem foldl_withEntry_m (es : List (Byte × Word64)) (hnodup : (es.map Prod.fst).Nodup)
    (hfresh : ∀ k ∈ es.map Prod.fst, ¬ s.isKey k = true) : (es.foldl State.withEntry s).m = s.m + BitVec.ofNat 9 es.length := by
  induction es generalizing s with
  | nil => exact (BitVec.add_zero s.m).symm
  | cons e es ih =>
    obtain ⟨hnotMem, hrest⟩ := List.nodup_cons.1 hnodup
    obtain ⟨hkey, hkeys⟩ := List.forall_mem_cons.1 hfresh
    have hm : (s.withEntry e).m = s.m + 1 := markKey_m_of_not_isKey hkey
    rw [List.foldl_cons, ih hrest, hm, List.length_cons, Nat.add_comm es.length 1, BitVec.ofNat_add, ← BitVec.add_assoc]
    · rfl
    · intro k hk
      rw [State.withEntry, isKey_setFreq, isKey_markKey, not_or]
      exact ⟨fun h => hnotMem (h ▸ hk), hkeys k hk⟩

end

/-- The entries of the container of a byte sequence (rules R81, R87). -/
def entriesOf (bs : List Byte) : List (Byte × Word64) := (keysOf bs).map fun k => (k, BitVec.ofNat 64 (bs.count k))

theorem map_fst_entriesOf (bs : List Byte) : (entriesOf bs).map Prod.fst = keysOf bs := by
  simp [entriesOf, Function.comp_def]

theorem nodup_keysOf (bs : List Byte) : (keysOf bs).Nodup := nodup_allSymbols.filter _

theorem length_keysOf (bs : List Byte) : (keysOf bs).length = bs.dedup.length :=
  List.Perm.length_eq <| (List.perm_ext_iff_of_nodup (nodup_keysOf bs) (List.nodup_dedup bs)).2 fun a => by
    rw [mem_keysOf, List.mem_dedup]

/-- On a clear table these entries give back the tally of the byte sequence. -/
theorem tallies_foldl_entriesOf {s : State} (hclear : s.TableClear) (bs : List Byte) :
    ((entriesOf bs).foldl State.withEntry s).Tallies bs where
  freqOf_eq sym := by
    by_cases hmem : sym ∈ keysOf bs
    · exact foldl_withEntry_freqOf_of_mem (entriesOf bs) (map_fst_entriesOf bs ▸ nodup_keysOf bs) (sym, _)
        (List.mem_map.2 ⟨sym, hmem, rfl⟩)
    · rw [foldl_withEntry_freqOf_of_notMem _ (by rwa [map_fst_entriesOf]), (hclear.2 sym).2,
        List.count_eq_zero.2 fun h => hmem (mem_keysOf.2 h)]
      rfl
  isKey_iff sym := by
    rw [foldl_withEntry_isKey_iff, map_fst_entriesOf, mem_keysOf, (hclear.2 sym).1]
    simp
  m_eq := by
    rw [foldl_withEntry_m _ (map_fst_entriesOf bs ▸ nodup_keysOf bs) fun k _ => ne_true_of_eq_false (hclear.2 k).1, hclear.1,
      entriesOf, List.length_map, length_keysOf]
    exact BitVec.zero_add _

theorem containerHead_eq {bs : List Byte} (hlen : bs.length < 2 ^ 64) : containerHead bs =
    Config.magic ++ leBytes 8 bs.length ++ leBytes 4 (entriesOf bs).length ++ (entriesOf bs).flatMap entryBytesOf := by
  have hentries : (entriesOf bs).flatMap entryBytesOf = (keysOf bs).flatMap fun k => k :: leBytes 8 (bs.count k) := by
    rw [entriesOf, List.flatMap_map]
    refine List.flatMap_congr fun k _ => ?_
    rw [entryBytesOf, BitVec.toNat_ofNat, Nat.mod_eq_of_lt (List.count_le_length.trans_lt hlen)]
  rw [containerHead, hentries, entriesOf, List.length_map, length_keysOf]

theorem length_entriesOf (bs : List Byte) : (entriesOf bs).length = (keysOf bs).length := by rw [entriesOf, List.length_map]

/-- The fields of a container where the parser reads them (rule R81). -/
theorem containerHead_fields {s : State} {bs tail : List Byte} (hinput : s.input = containerHead bs ++ tail) (hlen : bs.length < 2 ^ 64) :
    s.magicMatches = true ∧ s.memRead 4 8 = bs.length ∧ s.memRead 12 4 = (entriesOf bs).length ∧
      s.readInBytes 16 (9 * (entriesOf bs).length) = (entriesOf bs).flatMap entryBytesOf := by
  have hcount : (entriesOf bs).length ≤ 256 :=
    (length_entriesOf bs).trans_le ((List.length_filter_le _ _).trans_eq (by simp [allSymbols]))
  have htable := hinput.trans (congrArg (· ++ tail) (containerHead_eq hlen))
  have hm := htable.trans (List.append_assoc _ _ _)
  have horig := hm.trans (List.append_assoc _ _ _)
  have hmagic := horig.trans (List.append_assoc _ _ _)
  have hmagic' := readInBytes_of_input_eq (pre := []) hmagic rfl rfl
  have horig' := readInBytes_of_input_eq horig rfl (length_leBytes 8 _)
  have hm' := readInBytes_of_input_eq hm (by rw [List.length_append, length_leBytes]) (length_leBytes 4 _)
  refine ⟨decide_eq_true hmagic', ?_, ?_, ?_⟩
  · exact (congrArg leValue horig').trans (leValue_leBytes 8 _ hlen)
  · exact (congrArg leValue hm').trans (leValue_leBytes 4 _ (by omega))
  · exact readInBytes_of_input_eq htable (by simp only [List.length_append, length_leBytes, Config.magic, List.length_cons, List.length_nil]) (length_flatMap_entryBytesOf _)

/-- `ORIG` and `M_HDR` read from the header (rule R190). -/
def State.withHeader (s : State) (orig : Word64) (mHdr : Word32) : State := { s with orig := orig, mHdr := mHdr }

theorem withHeader_frame (s : State) (orig : Word64) (mHdr : Word32) : ParseFrame s (s.withHeader orig mHdr) := rfl

theorem withHeader_tableClear {s : State} (h : s.TableClear) (orig : Word64) (mHdr : Word32) : (s.withHeader orig mHdr).TableClear := h

/-- The state in which the parser comes to the table. -/
def State.headerRead (s : State) : State := s.withHeader (BitVec.ofNat 64 (s.memRead 4 8)) (BitVec.ofNat 32 (s.memRead 12 4))

theorem headerRead_frame (s : State) : ParseFrame s s.headerRead := withHeader_frame s _ _

theorem cparseOp_of_checks {s : State} (hmagic : s.magicMatches = true) (hhdr : Config.hdrLen ≤ s.inLen.toNat)
    (htable : s.headerRead.tableEnd ≤ s.inLen.toNat) : cparseOp s =
      .ok { parseEntries s.headerRead.mHdr.toNat 0 s.headerRead with brPos := BitVec.ofNat 64 s.headerRead.tableEnd, brCur := 0 } := by
  have h4 : 4 ≤ s.inLen.toNat := le_trans (by decide) hhdr
  rw [cparseOp, if_neg h4.not_gt, hmagic, if_neg (by decide), if_neg hhdr.not_gt]
  exact if_neg htable.not_gt

/-- CPARSE on a buffer that begins with the head of a container (rule R190). -/
theorem cparseOp_of_container {s : State} {bs tail : List Byte} (hclear : s.TableClear) (hinput : s.input = containerHead bs ++ tail)
    (hlen : bs.length < 2 ^ 64) : ∃ u, cparseOp s = .ok u ∧ ParseFrame s u ∧ u.Tallies bs ∧ u.orig.toNat = bs.length ∧
      u.brPos.toNat = (containerHead bs).length ∧ u.brCur = 0 := by
  obtain ⟨hmagic, horig, hm, hread⟩ := containerHead_fields hinput hlen
  have hhead := length_containerHead bs
  have hcount : (keysOf bs).length ≤ 256 := (List.length_filter_le _ _).trans_eq (by simp [allSymbols])
  have hinLen : s.inLen.toNat = (containerHead bs).length + tail.length := by
    rw [← length_input, hinput, List.length_append]
  have hmHdr : s.headerRead.mHdr.toNat = (entriesOf bs).length := by
    rw [State.headerRead, State.withHeader, hm, BitVec.toNat_ofNat, Nat.mod_eq_of_lt (by rw [length_entriesOf]; omega)]
  have hend : s.headerRead.tableEnd = (containerHead bs).length := by
    rw [State.tableEnd, hmHdr, length_entriesOf, hhead]
    rfl
  have hparse : parseEntries s.headerRead.mHdr.toNat 0 s.headerRead = (entriesOf bs).foldl State.withEntry s.headerRead := by
    rw [hmHdr, parseEntries_eq_foldl (entriesOf bs)
      (by rw [Nat.mul_zero, Nat.add_zero, (headerRead_frame s).toHost.readInBytes, hread])]
  have hhdr : Config.hdrLen = 16 := rfl
  have hop := cparseOp_of_checks hmagic (by omega) (by omega)
  rw [hparse, hend] at hop
  have htally := tallies_foldl_entriesOf (s := s.headerRead) (withHeader_tableClear hclear _ _) bs
  refine ⟨_, hop, (cparseOp_frame s).of_ok hop, ⟨htally.freqOf_eq, htally.isKey_iff, htally.m_eq⟩, ?_, ?_, rfl⟩
  · have hkept : ((entriesOf bs).foldl State.withEntry s.headerRead).orig = s.headerRead.orig := by rw [foldl_withEntry_frame]
    change ((entriesOf bs).foldl State.withEntry s.headerRead).orig.toNat = _
    rw [hkept, State.headerRead, State.withHeader, horig, BitVec.toNat_ofNat, Nat.mod_eq_of_lt hlen]
  · rw [BitVec.toNat_ofNat, Nat.mod_eq_of_lt (by omega)]

/-! ### A DECOMPRESS run of a container -/

theorem exec_cparse_of_ok {s t : State} (hfits : s.inputFits = true) (h : cparseOp s = .ok t) :
    exec .cparse s = .next (t.goto Phase.tseed) := by
  rw [exec, execCparse, withInput_of_fits hfits, h]
  rfl

/-- INIT and CPARSE lead to TSEED with the tally of the byte sequence, `ORIG` its length, and the bit reader behind the head. -/
theorem decompress_runsTo_tseed {s : State} {bs tail : List Byte} (hrest : s.state ≠ .busy) (hhost : s.host = [])
    (hfits : s.inputFits = true) (hinput : s.input = containerHead bs ++ tail) (hlen : bs.length < 2 ^ 64) :
    ∃ u, (s.start true).RunsTo u ∧ BeforeOutput s true u ∧ u.AtTseed ∧ u.Tallies bs ∧ u.orig.toNat = bs.length ∧
      u.brPos.toNat = (containerHead bs).length ∧ u.brCur = 0 := by
  have hbegun := (initWork_beforeOutput hrest true).goto Phase.cparse
  have hinit : exec .init (s.start true) = .next ((initWork (s.start true)).goto Phase.cparse) := by
    have hop := (initWork_beforeOutput hrest true).ctrlOp
    rw [exec_init_of_fits (s := s.start true) ((initWork_beforeOutput hrest true).inputFits.trans hfits), afterInit, if_pos hop]
    rfl
  obtain ⟨u, hop, hframe, htally, horig, hpos, hcur⟩ := cparseOp_of_container (s := (initWork (s.start true)).goto Phase.cparse)
    (initWork_tableClear (s.start true)) (hbegun.input.input_eq.trans hinput) hlen
  refine ⟨u.goto Phase.tseed, ((start_performs hrest hhost true).runsTo hinit).trans
    ((hbegun.performs hhost rfl).runsTo (exec_cparse_of_ok (hbegun.inputFits.trans hfits) hop)), ?_, ?_,
    ⟨htally.freqOf_eq, htally.isKey_iff, htally.m_eq⟩, horig, hpos, hcur⟩
  · exact (hbegun.of_eq (by rw [hframe])).goto Phase.tseed
  · rw [hframe]
    exact ⟨hbegun.busy, hbegun.input.host.trans hhost, rfl, rfl, rfl⟩

/-- With room for the byte sequence the run comes to DWALK, with the tree of the byte sequence, and what stands behind the head ahead. -/
theorem decompress_runsTo_dwalk {s : State} {bs tail : List Byte} {T : HTree} (hrest : s.state ≠ .busy) (hhost : s.host = [])
    (hfits : s.inputFits = true) (hinput : s.input = containerHead bs ++ tail) (hlen : bs.length < 2 ^ 64) (hT : BuildsTree bs T)
    (hroom : s.cfg.outHolds bs.length = true) :
    ∃ v, (s.start true).RunsTo v ∧ BeforeOutput s true v ∧ v.Performs .dwalk ∧ v.HasTree T ∧ v.orig.toNat = bs.length ∧
      v.bitsAhead = streamOf tail := by
  obtain ⟨u, hrun, hu, hseed, htally, horig, hpos, hcur⟩ := decompress_runsTo_tseed hrest hhost hfits hinput hlen
  obtain ⟨v, t, hrun', hexec, hperf, hv, htree, -, -, hframe⟩ := runsTo_cgen hu hseed htally hT
  have horig' : v.orig.toNat = bs.length := by rw [hframe]; exact horig
  rw [outcome_afterCodes, if_pos hv.ctrlOp, if_pos (by rw [hv.input.cfg, horig']; exact hroom)] at hexec
  refine ⟨v.goto Phase.dwalk, (hrun.trans hrun').trans (hperf.runsTo hexec), hv.goto _, (hv.goto _).performs hhost rfl,
    ⟨htree.held, htree.rootIsFork, htree.distinct, htree.bounded⟩, horig', ?_⟩
  have hinLen : s.inLen.toNat = (containerHead bs).length + tail.length := by
    rw [← length_input, hinput, List.length_append]
  have hbehind : s.readInBytes (containerHead bs).length tail.length = tail :=
    readInBytes_of_input_eq (post := []) (hinput.trans (List.append_nil _).symm) rfl rfl
  have hpos' : (v.goto Phase.dwalk).brPos.toNat = (containerHead bs).length := by rw [hframe]; exact hpos
  have hcur' : (v.goto Phase.dwalk).brCur = 0 := by rw [hframe]; exact hcur
  rw [State.bitsAhead, hpos', hcur', (hv.goto Phase.dwalk).input.inLen, hinLen, Nat.add_sub_cancel_left,
    (hv.goto Phase.dwalk).input.readInBytes, hbehind]
  rfl

/-! ### A stream that ends too early (rule R234) -/

/-- A stream of codes that breaks off breaks off inside one of the codes. -/
theorem exists_code_cut {α β : Type} {xs : List (α × List β)} {bits : List β} (hpre : bits <+: xs.flatMap Prod.snd)
    (hlt : bits.length < (xs.flatMap Prod.snd).length) :
    ∃ ys e zs r, xs = ys ++ e :: zs ∧ bits = ys.flatMap Prod.snd ++ r ∧ r <+: e.2 ∧ r ≠ e.2 := by
  induction xs generalizing bits with
  | nil => exact absurd hlt (Nat.not_lt_zero _)
  | cons e xs ih =>
    rw [List.flatMap_cons] at hpre hlt
    by_cases hall : e.2 <+: bits
    · obtain ⟨rest, rfl⟩ := hall
      rw [List.length_append, List.length_append] at hlt
      obtain ⟨ys, e', zs, r, rfl, rfl, hcut⟩ := ih ((List.prefix_append_right_inj _).1 hpre) (by omega)
      exact ⟨e :: ys, e', zs, r, rfl, by rw [List.flatMap_cons, List.append_assoc], hcut⟩
    · have hshort := (List.prefix_or_prefix_of_prefix hpre (List.prefix_append e.2 _)).resolve_right hall
      exact ⟨[], e, xs, bits, rfl, rfl, hshort, fun h => hall (h ▸ List.prefix_rfl)⟩

/-- Where the bits ahead are the codes of fewer than `ORIG` symbols and then break off inside a code, DWALK's loop fails with
BitstreamTruncated. -/
theorem dwalkLoop_of_codes_cut {xs : List (Byte × List Bool)} {e : Byte × List Bool} {r : List Bool} {s : State} {T : HTree} {n : Nat}
    (hT : s.HasTree T) (hcur : s.walkCur = s.root) (hxs : ∀ e ∈ xs, e ∈ T.codes) (he : e ∈ T.codes)
    (hbits : s.bitsAhead = xs.flatMap Prod.snd ++ r) (hpre : r <+: e.2) (hne : r ≠ e.2)
    (hcount : s.emitted.toNat + xs.length < s.orig.toNat) (hroom : s.cfg.outHolds (s.outLen + xs.length) = true) (hn : s.bitsLeft < n) :
    ∃ u, dwalkLoop n s = .raised .bitstreamTruncated u := by
  obtain ⟨t, hwalk, hdecoded⟩ := exists_decoded_of_codes xs r hT hcur hxs hbits hcount.le hroom
  have hrest : t.bitsAhead = r := List.append_cancel_left (hdecoded.bitsAhead.symm.trans hbits)
  have hlt : t.emitted < t.orig := by
    have hemitted := hdecoded.emitted_toNat (by rw [List.length_map]; exact hcount.le)
    have horig : t.orig = s.orig := congrArg (·.orig) hdecoded.frame
    rw [BitVec.lt_def, hemitted, horig, List.length_map]
    exact hcount
  have hback : t.walkCur = t.root := (congrArg (·.walkCur) hdecoded.frame).trans (congrArg (·.root) hdecoded.frame).symm
  obtain ⟨m, hm, heq⟩ := hwalk n hn
  rw [heq]
  exact dwalkLoop_of_path_cut e.2 (hback ▸ (hdecoded.hasTree hT).held) he (hrest ▸ hpre) (hrest ▸ hne) hlt hm

/-- DWALK where the bits ahead are the beginning, not all, of the codes of at most `ORIG` symbols. -/
theorem exec_dwalk_of_codes_cut {xs : List (Byte × List Bool)} {s : State} {T : HTree} (hfits : s.inputFits = true) (hT : s.HasTree T)
    (hemitted : s.emitted = 0) (hxs : ∀ e ∈ xs, e ∈ T.codes) (hcount : xs.length ≤ s.orig.toNat)
    (hroom : s.cfg.outHolds (s.outLen + xs.length) = true) (hpre : s.bitsAhead <+: xs.flatMap Prod.snd)
    (hlt : s.bitsAhead.length < (xs.flatMap Prod.snd).length) : ∃ u : State, exec .dwalk s = .next (u.failureExit .bitstreamTruncated) := by
  obtain ⟨ys, e, zs, r, rfl, hbits, hcut, hne⟩ := exists_code_cut hpre hlt
  rw [List.length_append, List.length_cons] at hcount hroom
  have hsame : ({ s with walkCur := s.root } : State).bitsAhead = s.bitsAhead := bitsAhead_congr ⟨rfl, rfl, rfl, rfl, rfl, rfl⟩ rfl rfl
  obtain ⟨u, hu⟩ := dwalkLoop_of_codes_cut (s := { s with walkCur := s.root }) (n := s.bitsLeft + 1)
    ⟨hT.held, hT.rootIsFork, hT.distinct, hT.bounded⟩ rfl (fun e he => hxs e (List.mem_append_left _ he)) (hxs e (by simp))
    (hsame.trans hbits) hcut hne (by simp [hemitted]; omega) (outHolds_mono (by dsimp only; omega) hroom) (Nat.lt_succ_self _)
  rw [exec_dwalk hfits, hu]
  exact ⟨u, rfl⟩

/-- Without its last byte the stream of some bits, filled up to whole bytes, breaks off before the last of these bits. -/
theorem streamOf_dropLast {tail : List Byte} {w : List Bool} {pad : Nat} (hpad : pad < 8) (hw : w ≠ [])
    (h : streamOf tail = w ++ List.replicate pad false) :
    tail ≠ [] ∧ streamOf tail.dropLast <+: w ∧ (streamOf tail.dropLast).length < w.length := by
  have hne : tail ≠ [] := by
    rintro rfl
    exact hw (List.append_eq_nil_iff.1 h.symm).1
  have hsplit : streamOf tail.dropLast ++ byteBits (tail.getLast hne) = w ++ List.replicate pad false := by
    rw [← h, ← streamOf_singleton, ← streamOf_append, List.dropLast_append_getLast]
  have hlen := congrArg List.length hsplit
  rw [List.length_append, List.length_append, List.length_replicate, byteBits, List.length_map, List.length_range] at hlen
  have hlt : (streamOf tail.dropLast).length < w.length := by omega
  exact ⟨hne, List.prefix_of_prefix_length_le (hsplit ▸ List.prefix_append _ _) (List.prefix_append _ _) hlt.le, hlt⟩

/-- Settles O54: the COMPRESS run's output is its input's container (`compress_runsTo_done`, and a run has one end). On what is left of it the
DECOMPRESS run builds the same tree, and DWALK's bits break off inside the code of one of the input's bytes. -/
theorem truncatedContainerFails : Obligations.TruncatedContainerFails := by
  intro s t s' n hrest hhost hrun hdone hok hrest' hhost' _ hinput hfits hroom
  obtain ⟨t', hrun', hdone', hresult⟩ := compress_runsTo_done hrest hhost
  obtain rfl := eq_of_runsTo_done ((start_host s false).trans hhost) hrun' hdone' ⟨n, hrun⟩ hdone
  obtain ⟨hne, T, tail, hT, hcodes, hcodeNe, hout, pad, hpad, hstream⟩ := hresult hok
  have hlen : s.input.length = s.inLen.toNat := length_input s
  have hw : s.input.flatMap t'.codeBitsOf ≠ [] := by
    obtain ⟨a, ha⟩ := List.exists_mem_of_ne_nil _ hne
    exact fun h => hcodeNe a ha (List.flatMap_eq_nil_iff.1 h a ha)
  obtain ⟨htail, hpre, hlt⟩ := streamOf_dropLast hpad hw hstream
  rw [hout, List.dropLast_append_of_ne_nil htail] at hinput
  obtain ⟨v, hrunv, hv, hperf, htree, horig, hahead⟩ := decompress_runsTo_dwalk hrest' hhost' hfits hinput (hlen ▸ s.inLen.isLt) hT
    (hlen ▸ hroom)
  have hcodeStream : (s.input.map fun a => (a, t'.codeBitsOf a)).flatMap Prod.snd = s.input.flatMap t'.codeBitsOf := List.flatMap_map ..
  obtain ⟨u, hexec⟩ := exec_dwalk_of_codes_cut (xs := s.input.map fun a => (a, t'.codeBitsOf a)) (hv.inputFits.trans hfits) htree hv.emitted
    (List.forall_mem_map.2 hcodes) (by rw [List.length_map, horig])
    (by rw [hv.outLen, hv.input.cfg, Nat.zero_add, List.length_map, hlen]; exact hroom)
    (by rw [hahead, hcodeStream]; exact hpre) (by rw [hahead, hcodeStream]; exact hlt)
  obtain ⟨n', hrun''⟩ := hrunv.trans (hperf.runsTo hexec)
  exact ⟨n', _, hrun'', rfl, rfl, rfl, rfl⟩

end Sys2Proof.Machine
end

section
/-! PROOFS of the family 45_container_formatter.md: CPARSE's checks (O21) and what it takes from a whole header and table (O22), and the bytes
that CENC appends (O23). -/

namespace Sys2Proof.Machine

/-! ### The fields of the header (rules R81, R190) -/

theorem memRead_lt (s : State) (a n : Nat) : s.memRead a n < 2 ^ (8 * n) :=
  (leValue_lt _).trans_eq (by rw [length_readInBytes])

theorem magicMatches_iff {s : State} :
    s.magicMatches = true ↔ [s.readIn 0, s.readIn 1, s.readIn 2, s.readIn 3] = [0x48, 0x55, 0x46, 0x31] := decide_eq_true_iff

theorem headerRead_orig_toNat (s : State) : s.headerRead.orig.toNat = s.memRead 4 8 :=
  (BitVec.toNat_ofNat _ 64).trans (Nat.mod_eq_of_lt (memRead_lt s 4 8))

theorem headerRead_mHdr_toNat (s : State) : s.headerRead.mHdr.toNat = s.memRead 12 4 :=
  (BitVec.toNat_ofNat _ 32).trans (Nat.mod_eq_of_lt (memRead_lt s 12 4))

theorem headerRead_tableEnd (s : State) : s.headerRead.tableEnd = 16 + 9 * s.memRead 12 4 := by
  rw [State.tableEnd, headerRead_mHdr_toNat]
  rfl

theorem headerRead_tableClear {s : State} (h : s.TableClear) : s.headerRead.TableClear := withHeader_tableClear h _ _

/-! ### The checks that fail (rules R190 to R192) -/

section
variable {s : State}

theorem cparseOp_of_lt_four (h : s.inLen.toNat < 4) : cparseOp s = .raised .headerTruncated s := if_pos h

theorem cparseOp_of_not_magic (h4 : 4 ≤ s.inLen.toNat) (hmagic : s.magicMatches = false) :
    cparseOp s = .raised .headerInvalid s := by
  rw [cparseOp, if_neg h4.not_gt, hmagic]
  rfl

theorem cparseOp_of_short_header (h4 : 4 ≤ s.inLen.toNat) (hmagic : s.magicMatches = true) (hhdr : s.inLen.toNat < Config.hdrLen) :
    cparseOp s = .raised .headerTruncated s := by
  rw [cparseOp, if_neg h4.not_gt, hmagic, if_neg (by decide), if_pos hhdr]

theorem cparseOp_of_short_table (hmagic : s.magicMatches = true) (hhdr : Config.hdrLen ≤ s.inLen.toNat)
    (htable : s.inLen.toNat < s.headerRead.tableEnd) : cparseOp s = .raised .headerTruncated s.headerRead := by
  have h4 : 4 ≤ s.inLen.toNat := le_trans (by decide) hhdr
  rw [cparseOp, if_neg h4.not_gt, hmagic, if_neg (by decide), if_neg hhdr.not_gt]
  exact if_pos htable

theorem exec_cparse_of_raised {u : State} {f : Failure} (hfits : s.inputFits = true) (h : cparseOp s = .raised f u) :
    exec .cparse s = .next (u.failureExit f) := by
  rw [exec, execCparse, withInput_of_fits hfits, h]
  rfl

end

/-! ### The entries of the table (rules R94, R190, R193) -/

/-- Symbol and count of `ENTRY[i]` (rules R81, R94). -/
def State.entryAt (s : State) (i : Nat) : Byte × Word64 := (s.entrySym i, s.entryFreq i)

/-- The first `n` entries of the table in IN. -/
def State.entriesIn (s : State) (n : Nat) : List (Byte × Word64) := (List.range n).map s.entryAt

theorem entryFreq_toNat (s : State) (i : Nat) : (s.entryFreq i).toNat = s.memRead (17 + 9 * i) 8 :=
  (BitVec.toNat_ofNat _ 64).trans (Nat.mod_eq_of_lt (memRead_lt s _ 8))

theorem map_fst_entriesIn (s : State) (n : Nat) : (s.entriesIn n).map Prod.fst = (List.range n).map fun i => s.readIn (16 + 9 * i) :=
  List.map_map

/-- The table stands in IN, so reading an entry leaves the others as they are. -/
theorem HostFrame.entryAt {s t : State} (h : HostFrame s t) : t.entryAt = s.entryAt := by
  funext i
  rw [State.entryAt, State.entrySym, State.entryFreq, State.memRead, h.readInBytes, readIn_congr h.inBuf h.inEpoch]
  rfl

theorem parseEntries_eq_foldl_range' (n i : Nat) (s : State) :
    parseEntries n i s = ((List.range' i n).map s.entryAt).foldl State.withEntry s := by
  induction n generalizing i s with
  | zero => rfl
  | succ n ih =>
    rw [parseEntries, ih, (parseEntry_frame s i).toHost.entryAt, List.range'_succ, List.map_cons, List.foldl_cons]
    rfl

/-- The state as the parser leaves the frequency table. -/
def State.tableRead (s : State) : State := (s.entriesIn (s.memRead 12 4)).foldl State.withEntry s.headerRead

theorem cparseOp_of_whole_table {s : State} (hmagic : s.magicMatches = true) (htable : 16 + 9 * s.memRead 12 4 ≤ s.inLen.toNat) :
    cparseOp s = .ok { s.tableRead with brPos := BitVec.ofNat 64 (16 + 9 * s.memRead 12 4), brCur := 0 } := by
  have hend := headerRead_tableEnd s
  have hhdr : Config.hdrLen = 16 := rfl
  have hop := cparseOp_of_checks hmagic (by omega) (by omega)
  rwa [hend, headerRead_mHdr_toNat, parseEntries_eq_foldl_range', (headerRead_frame s).toHost.entryAt, ← List.range_eq_range'] at hop

/-- Reading the entries moves `IN_POS` nowhere. -/
theorem foldl_withEntry_inPos (es : List (Byte × Word64)) {s : State} : (es.foldl State.withEntry s).inPos = s.inPos := by
  induction es generalizing s with
  | nil => rfl
  | cons e es ih => rw [List.foldl_cons, ih, State.withEntry, setFreq_inPos, markKey_inPos]

theorem tableRead_frame (s : State) : s.tableRead =
    { s with orig := s.headerRead.orig, mHdr := s.headerRead.mHdr, freq := s.tableRead.freq, present := s.tableRead.present,
             m := s.tableRead.m } := by
  have hframe : TableFrame s.headerRead s.tableRead := foldl_withEntry_frame _
  have hpos : s.tableRead.inPos = s.headerRead.inPos := foldl_withEntry_inPos _
  rwa [TableFrame, hpos] at hframe

/-- The last entry of a symbol gives its count (rule R193). -/
theorem foldl_withEntry_freqOf_of_last {s : State} (es : List (Byte × Word64)) {e : Byte × Word64} {rest : List (Byte × Word64)}
    (hlast : e.1 ∉ rest.map Prod.fst) : ((es ++ e :: rest).foldl State.withEntry s).freqOf e.1 = e.2 := by
  rw [List.foldl_append, List.foldl_cons, foldl_withEntry_freqOf_of_notMem rest hlast, State.withEntry, freqOf_setFreq, if_pos rfl]

/-- The entries before, at and behind entry `i`. -/
theorem entriesIn_eq_append (s : State) (i k : Nat) :
    s.entriesIn (i + (k + 1)) = s.entriesIn i ++ s.entryAt i :: (List.range' (i + 1) k).map s.entryAt := by
  rw [State.entriesIn, State.entriesIn, ← List.map_cons, ← List.map_append, ← List.range'_succ, List.range_eq_range', List.range_eq_range',
    ← List.range'_append_1, Nat.zero_add]

/-! ### `M` counts the keys (rules R32, R194) -/

/-- `M` is the number of keys, cut to its width. -/
def State.CountsKeys (s : State) : Prop := s.m = BitVec.ofNat 9 s.keys.length

section
variable {s : State}

theorem keys_markKey_perm {sym : Byte} (h : ¬ s.isKey sym = true) : (s.markKey sym).keys.Perm (sym :: s.keys) :=
  (List.perm_ext_iff_of_nodup (nodup_keys _) (List.nodup_cons.2 ⟨mt mem_keys.1 h, nodup_keys s⟩)).2 fun k => by
    rw [mem_keys, isKey_markKey, List.mem_cons, mem_keys]

theorem State.CountsKeys.markKey (h : s.CountsKeys) (sym : Byte) : (s.markKey sym).CountsKeys := by
  by_cases hkey : s.isKey sym = true
  · rwa [markKey_of_isKey hkey]
  · rw [State.CountsKeys, markKey_m_of_not_isKey hkey, (keys_markKey_perm hkey).length_eq, List.length_cons, BitVec.ofNat_add, ← h]
    rfl

theorem State.CountsKeys.foldl_withEntry (h : s.CountsKeys) (es : List (Byte × Word64)) :
    (es.foldl State.withEntry s).CountsKeys := by
  induction es generalizing s with
  | nil => exact h
  | cons e es ih => exact ih (h.markKey e.1)

theorem State.TableClear.countsKeys (h : s.TableClear) : s.CountsKeys := by
  have hnone : s.keys = [] := List.filter_eq_nil_iff.2 fun sym _ => ne_true_of_eq_false (h.2 sym).1
  rw [State.CountsKeys, hnone, h.1]
  rfl

/-- There are at most 256 keys, and `M` has 9 bits. -/
theorem State.CountsKeys.toNat_m (h : s.CountsKeys) : s.m.toNat = s.keys.length := by
  have hle := length_keys_le s
  rw [h, BitVec.toNat_ofNat, Nat.mod_eq_of_lt (by omega)]

theorem tableRead_isKey_iff (hclear : s.TableClear) (sym : Byte) :
    s.tableRead.isKey sym = true ↔ sym ∈ (List.range (s.memRead 12 4)).map fun i => s.readIn (16 + 9 * i) := by
  have hno : ¬ s.headerRead.isKey sym = true := ne_true_of_eq_false ((headerRead_tableClear hclear).2 sym).1
  rw [State.tableRead, foldl_withEntry_isKey_iff, map_fst_entriesIn, or_iff_left hno]

theorem tableRead_freqOf_of_not_isKey (hclear : s.TableClear) {sym : Byte} (h : s.tableRead.isKey sym = false) :
    s.tableRead.freqOf sym = 0 := by
  have hnot := mt (tableRead_isKey_iff hclear sym).2 (ne_true_of_eq_false h)
  rw [← map_fst_entriesIn] at hnot
  exact (foldl_withEntry_freqOf_of_notMem _ hnot).trans ((headerRead_tableClear hclear).2 sym).2

theorem tableRead_freqOf_of_last {i : Nat} (hi : i < s.memRead 12 4)
    (hlast : ∀ j < s.memRead 12 4, i < j → s.readIn (16 + 9 * j) ≠ s.readIn (16 + 9 * i)) :
    s.tableRead.freqOf (s.readIn (16 + 9 * i)) = s.entryFreq i := by
  obtain ⟨k, hk⟩ := Nat.exists_eq_add_of_lt hi
  rw [State.tableRead, hk, Nat.add_assoc, entriesIn_eq_append]
  refine foldl_withEntry_freqOf_of_last (e := s.entryAt i) _ fun hmem => ?_
  obtain ⟨j, hj, heq⟩ := List.mem_map.1 (List.map_map ▸ hmem)
  rw [List.mem_range'_1] at hj
  exact hlast j (by omega) (by omega) heq

theorem tableRead_countsKeys (hclear : s.TableClear) : s.tableRead.CountsKeys :=
  (headerRead_tableClear hclear).countsKeys.foldl_withEntry _

end

/-- Settles O22: the parser is a fold over the table's entries (`parseEntries_eq_foldl_range'`), and neither a field of the header nor the
table's end outgrows its register. -/
theorem cparseLoadsTable : Obligations.CparseLoadsTable := by
  intro s hfits hmagic htable
  have hexec := exec_cparse_of_ok hfits (cparseOp_of_whole_table (magicMatches_iff.2 hmagic) htable)
  have hframe := tableRead_frame s
  have horig : s.tableRead.orig.toNat = s.memRead 4 8 := by rw [hframe]; exact headerRead_orig_toNat s
  have hmHdr : s.tableRead.mHdr.toNat = s.memRead 12 4 := by rw [hframe]; exact headerRead_mHdr_toNat s
  have hkeys := tableRead_isKey_iff (s := s)
  have hnone := @tableRead_freqOf_of_not_isKey s
  have hlast := @tableRead_freqOf_of_last s
  have hcount := tableRead_countsKeys (s := s)
  -- Lean is kept from unfolding the parser when it compares states.
  generalize s.tableRead = u at *
  refine ⟨_, hexec, ?_, horig, hmHdr, ?_, fun hclear => ⟨fun sym => (hkeys hclear sym).trans (by simp), fun _ => hnone hclear, ?_, ?_, ?_⟩⟩
  · rw [hframe]
    rfl
  · exact (BitVec.toNat_ofNat _ 64).trans (Nat.mod_eq_of_lt (by omega))
  · exact fun i hi h => (congrArg BitVec.toNat (hlast hi h)).trans (entryFreq_toNat s i)
  · exact (hcount hclear).toNat_m.trans (length_keys_eq (hkeys hclear))
  · exact (hcount hclear).toNat_m.symm

/-! ### The bytes of a field (rules R64, R66) -/

theorem toNat_getElem_leBytes {n v j : Nat} (h : j < (leBytes n v).length) : ((leBytes n v)[j]).toNat = v / 2 ^ (8 * j) % 256 := by
  induction n generalizing v j with
  | zero => exact absurd h (Nat.not_lt_zero j)
  | succ n ih =>
    cases j with
    | zero => simp [leBytes]
    | succ j =>
      have hj : j < (leBytes n (v / 2 ^ 8)).length := Nat.lt_of_succ_lt_succ h
      exact (ih hj).trans (by rw [Nat.div_div_eq_div_mul, ← pow_add, Nat.mul_succ, Nat.add_comm])

/-! ### What CENC appends (rules R81, R185) -/

/-- Header and table, field by field. -/
def State.cencBytes (s : State) : List Byte :=
  Config.magic ++ leBytes 8 s.inLen.toNat ++ leBytes 4 s.m.toNat ++ s.tableBytes

theorem length_flatMap_entryBytes (s : State) (ks : List Byte) : (ks.flatMap s.entryBytes).length = 9 * ks.length := by
  simp [State.entryBytes, List.length_flatMap, Nat.mul_comm]

theorem length_cencBytes (s : State) : s.cencBytes.length = 16 + 9 * s.keys.length := by
  simp only [State.cencBytes, List.length_append, length_leBytes, State.tableBytes, length_flatMap_entryBytes]
  rfl

theorem exec_cenc {s : State} (hroom : s.cfg.outHolds (s.outLen + s.cencBytes.length) = true) :
    exec .cenc s = .next (s.headOut s.cencBytes) := by
  have hbytes : ({ s with orig := s.inLen } : State).headerBytes ++ ({ s with orig := s.inLen } : State).tableBytes = s.cencBytes := rfl
  generalize s.cencBytes = bytes at hbytes hroom ⊢
  rw [exec, execCenc, cencOp, hbytes, append_of_holds (s := { s with orig := s.inLen }) hroom]
  rfl

/-- The entry of the `k`-th key among the bytes that CENC appends. -/
theorem cencBytes_eq_append_entry (s : State) {k : Nat} (h : k < s.keys.length) :
    ∃ pre post, s.cencBytes = pre ++ s.entryBytes s.keys[k] ++ post ∧ pre.length = 16 + 9 * k := by
  refine ⟨Config.magic ++ leBytes 8 s.inLen.toNat ++ leBytes 4 s.m.toNat ++ (s.keys.take k).flatMap s.entryBytes,
    (s.keys.drop (k + 1)).flatMap s.entryBytes, ?_, ?_⟩
  · have hkeys : s.keys = s.keys.take k ++ s.keys[k] :: s.keys.drop (k + 1) := by
      rw [← List.drop_eq_getElem_cons h, List.take_append_drop]
    have htable := congrArg (List.flatMap s.entryBytes) hkeys
    rw [List.flatMap_append, List.flatMap_cons] at htable
    rw [State.cencBytes, State.tableBytes, htable]
    simp only [List.append_assoc]
  · rw [List.length_append, length_flatMap_entryBytes, List.length_take_of_le h.le]
    simp only [List.length_append, length_leBytes]
    rfl

section
variable {v : State} {head : List Byte}

/-- A part of what is appended stands in OUT behind the parts before it. -/
theorem readOut_headOut_part {pre mid post : List Byte} (h : head = pre ++ mid ++ post) {j a : Nat} (hj : j < mid.length)
    (ha : a = v.outLen + pre.length + j) : (v.headOut head).readOut a = mid[j] := by
  have hin : pre.length + j < head.length := by
    rw [h, List.length_append, List.length_append]
    omega
  have hread : Memory.read? (v.headOut head).outBuf a = some head[pre.length + j] := by
    rw [ha, Nat.add_assoc]
    exact read?_writeBytes_inside v.outBuf v.outLen head hin
  rw [State.readOut, hread]
  subst h
  simp [hj]

/-- Byte `j` of a field that is appended in `n` bytes. -/
theorem toNat_readOut_headOut_field {pre post : List Byte} {n x : Nat} (h : head = pre ++ leBytes n x ++ post) {j a : Nat} (hj : j < n)
    (ha : a = v.outLen + pre.length + j) : ((v.headOut head).readOut a).toNat = x / 2 ^ (8 * j) % 256 := by
  rw [readOut_headOut_part h (by rwa [length_leBytes]) ha, toNat_getElem_leBytes]

theorem readOut_headOut_outside {a : Nat} (ha : a < v.outLen ∨ v.outLen + head.length ≤ a) :
    (v.headOut head).readOut a = v.readOut a :=
  congrArg (Option.getD · (v.outUnlisted a)) (read?_writeBytes_outside v.outBuf head ha)

end

/-- Settles O23: each field is a part of the bytes appended (`readOut_headOut_part`), and outside them OUT is left alone. -/
theorem cencWritesHeaderAndTable : Obligations.CencWritesHeaderAndTable := by
  intro s hroom
  rw [← length_cencBytes] at hroom ⊢
  have hexec := exec_cenc hroom
  have hm : s.cencBytes = Config.magic ++ leBytes 8 s.inLen.toNat ++ leBytes 4 s.m.toNat ++ s.tableBytes := rfl
  have horig := hm.trans (List.append_assoc _ _ _)
  have hmagic := horig.trans (List.append_assoc _ _ _)
  have hentry := @cencBytes_eq_append_entry s
  generalize s.cencBytes = head at *
  refine ⟨_, hexec, rfl, ?_, fun j hj => ?_, fun j hj => ?_, fun k hk => ?_, fun a => readOut_headOut_outside⟩
  · refine List.ext_getElem (length_readOutBytes _ _ _) fun j _ hj => ?_
    rw [getElem_readOutBytes]
    exact readOut_headOut_part (pre := []) (mid := Config.magic) hmagic hj rfl
  · exact toNat_readOut_headOut_field horig hj rfl
  · exact toNat_readOut_headOut_field hm hj (by rw [List.length_append, length_leBytes]; rfl)
  · obtain ⟨pre, post, hhead, hpre⟩ := hentry hk
    have hcount : head = pre ++ [s.keys[k]] ++ leBytes 8 (s.freqOf s.keys[k]).toNat ++ post := by
      rw [hhead, State.entryBytes, List.append_assoc pre [_], List.singleton_append]
    refine ⟨readOut_headOut_part (mid := s.entryBytes s.keys[k]) (j := 0) hhead (Nat.zero_lt_succ _) (by omega), fun j hj => ?_⟩
    exact toNat_readOut_headOut_field hcount hj (by rw [List.length_append, List.length_singleton, hpre]; omega)

/-- Settles O21: one lemma for each check that fails, in the order of the checks. -/
theorem cparseChecksInOrder : Obligations.CparseChecksInOrder := by
  intro s hfits
  refine ⟨fun hlt => ?_, fun h4 hne => ?_, fun hmagic h4 hlt => ?_, fun hmagic hle hlt => ⟨s.headerRead, ?_, rfl⟩⟩
  · exact exec_cparse_of_raised hfits (cparseOp_of_lt_four hlt)
  · exact exec_cparse_of_raised hfits (cparseOp_of_not_magic h4 (eq_false_of_ne_true (mt magicMatches_iff.1 hne)))
  · exact exec_cparse_of_raised hfits (cparseOp_of_short_header h4 (magicMatches_iff.2 hmagic) hlt)
  · exact exec_cparse_of_raised hfits (cparseOp_of_short_table (magicMatches_iff.2 hmagic) hle (by rwa [headerRead_tableEnd]))

end Sys2Proof.Machine
end

section
/-! PROOFS of the family 46_commands.md, first part: the START (O7), rest (O8) and INIT (O18). -/

namespace Sys2Proof.Machine

/-- Settles O7: each command is an accepted START of its operation. -/
theorem startBeginsRun : Obligations.StartBeginsRun := fun _ hrest =>
  ⟨congrArg Host.Outcome.next (start_of_not_busy hrest false), congrArg Host.Outcome.next (start_of_not_busy hrest true)⟩

/-- Settles O8: the success exit keeps every listed byte before `OUT_LEN`, and by the invariant all of them are listed. -/
theorem restDoesNothing : Obligations.RestDoesNothing := by
  refine ⟨fun s => rfl, fun s hrest => if_neg hrest, fun s hbusy hinv => ⟨s.successExit, if_pos hbusy, rfl, fun a ha => ?_⟩⟩
  exact (successExit_outExtends s).readOut_eq ha (hinv.outputListed a ha)

/-- INIT with what follows it in each sequence (rules R211, R212, R215). -/
theorem exec_init (s : State) : exec .init s = .next (
    if s.inputFits = false then (initWork s).failureExit .capacityExceeded
    else if s.ctrlOp = true then (initWork s).goto Phase.cparse
    else if s.inLen = 0 then (initWork s).failureExit .inputEmpty
    else (initWork s).goto Phase.fcount) := by
  cases hfits : s.inputFits with
  | false => rw [exec_init_of_not_fits hfits, if_pos rfl]
  | true =>
    rw [exec_init_of_fits hfits, if_neg (by decide)]
    obtain ⟨hop, h⟩ | ⟨hop, hlen, h⟩ | ⟨hop, hlen, h⟩ := afterInit_cases (initWork s)
    · rw [h, if_pos (c := s.ctrlOp = true) hop]
      rfl
    · rw [h, if_neg (c := s.ctrlOp = true) (ne_true_of_eq_false hop), if_pos (c := s.inLen = 0) hlen]
      rfl
    · rw [h, if_neg (c := s.ctrlOp = true) (ne_true_of_eq_false hop), if_neg (c := s.inLen = 0) hlen]
      rfl

/-- INIT clears the frequency table and every code's length, and leaves the code's bits (rule R211). -/
theorem initWork_table (s : State) (sym : Byte) : (initWork s).freqOf sym = 0 ∧ (initWork s).isKey sym = false ∧
    ((initWork s).codeOf sym).len = 0 ∧ ((initWork s).codeOf sym).bits = (s.codeOf sym).bits := by
  obtain ⟨hkey, hfreq⟩ := (initWork_tableClear s).2 sym
  exact ⟨hfreq, hkey, by simp [initWork, State.codeOf], by simp [initWork, State.codeOf]⟩

/-- Settles O18: INIT's three ends (`exec_init`) and the table it leaves (`initWork_table`). -/
theorem initSetsWorkingState : Obligations.InitSetsWorkingState :=
  fun s => ⟨_, initWork s, exec_init s, initWork_table s, rfl, rfl⟩

end Sys2Proof.Machine
end

section
/-! PROOFS of the family 46_commands.md, second part: what a successful COMPRESS run leaves in OUT (O51), and that DECOMPRESS gives the input
back (O53). -/

namespace Sys2Proof.Machine

/-! ### The container of a successful COMPRESS run (rules R81, R89, R218) -/

theorem length_streamOf (bs : List Byte) : (streamOf bs).length = 8 * bs.length := by
  simp [streamOf, byteBits, List.length_flatMap, Nat.mul_comm]

/-- A bit sequence filled up to whole bytes takes as many bytes as it needs. -/
theorem length_of_streamOf_pad {tail : List Byte} {w : List Bool} {pad : Nat} (hpad : pad < 8)
    (h : streamOf tail = w ++ List.replicate pad false) : tail.length = (w.length + 7) / 8 ∧ pad = 8 * tail.length - w.length := by
  have hlen := congrArg List.length h
  rw [length_streamOf, List.length_append, List.length_replicate] at hlen
  omega

/-- A successful COMPRESS run leaves its input's container, wherever the run is looked at. -/
theorem container_of_run {s t : State} {n : Nat} (hrest : s.state ≠ .busy) (hhost : s.host = []) (hrun : run n (s.start false) = .next t)
    (hdone : t.state = .done) (hok : t.ok = true) : ∃ T tail, IsContainer s.input T t.codeBitsOf tail t.output := by
  obtain ⟨t', hrun', hdone', hresult⟩ := compress_runsTo_done hrest hhost
  obtain rfl := eq_of_runsTo_done ((start_host s false).trans hhost) hrun' hdone' ⟨n, hrun⟩ hdone
  exact (hresult hok).2

/-- Settles O51: the run's output is its input's container (`container_of_run`), and its codes are paths to leaves of one tree. -/
theorem compressWritesAContainer : Obligations.CompressWritesAContainer := by
  intro s t n hrest hhost hrun hdone hok
  obtain ⟨T, tail, hT, hcodes, hne, hout, pad, hpad, hstream⟩ := container_of_run hrest hhost hrun hdone hok
  obtain ⟨hlen, rfl⟩ := length_of_streamOf_pad hpad hstream
  refine ⟨tail, hne, fun a ha b hb hab hpre => hab ?_, ?_, hlen, hstream⟩
  · exact congrArg Prod.fst (eq_of_path_prefix (hcodes a ha) (hcodes b hb) hpre)
  · rw [hout, containerHead, length_input]
    rfl

/-! ### The round trip (rules R103, R220) -/

/-- DWALK whose loop ends with `ORIG` symbols out: the success exit follows (rule R214). -/
theorem exec_dwalk_of_ok {s t : State} (hfits : s.inputFits = true) (h : dwalkLoop (s.bitsLeft + 1) { s with walkCur := s.root } = .ok t) :
    exec .dwalk s = .next t.successExit := by
  rw [exec_dwalk hfits, h]
  rfl

/-- DWALK with nothing in OUT yet, where the bits ahead begin with the codes of `ORIG` symbols: they become the output. -/
theorem exec_dwalk_of_codes {s : State} {T : HTree} {xs : List (Byte × List Bool)} (hfits : s.inputFits = true) (hT : s.HasTree T)
    (hout : s.outLen = 0) (hemitted : s.emitted = 0) (hlen : xs.length = s.orig.toNat) (hroom : s.cfg.outHolds xs.length = true)
    (hxs : ∀ e ∈ xs, e ∈ T.codes) (hpre : xs.flatMap Prod.snd <+: s.bitsAhead) :
    ∃ u : State, exec .dwalk s = .next u.successExit ∧ u.host = s.host ∧ u.successExit.output = xs.map Prod.fst := by
  obtain ⟨rest, hbits⟩ := hpre
  have hsame : ({ s with walkCur := s.root } : State).bitsAhead = s.bitsAhead := bitsAhead_congr ⟨rfl, rfl, rfl, rfl, rfl, rfl⟩ rfl rfl
  obtain ⟨u, hwalk, hdecoded⟩ := exists_decoded_of_codes (s := { s with walkCur := s.root }) xs rest
    ⟨hT.held, hT.rootIsFork, hT.distinct, hT.bounded⟩ rfl hxs (hsame.trans hbits.symm) (by simp [hemitted, hlen])
    (by rw [hout, Nat.zero_add]; exact hroom)
  have hall : u.emitted.toNat = u.orig.toNat := by
    rw [hdecoded.emitted_toNat (by simp [hemitted, hlen]), hdecoded.frame, hemitted, List.length_map, hlen]
    exact Nat.zero_add _
  obtain ⟨m, hm, hloop⟩ := hwalk (s.bitsLeft + 1) (Nat.lt_succ_self _)
  obtain ⟨m, rfl⟩ := Nat.exists_eq_succ_of_ne_zero (Nat.ne_zero_of_lt hm)
  refine ⟨u, ?_, by rw [hdecoded.frame], ?_⟩
  · exact exec_dwalk_of_ok hfits (hloop.trans (dwalkLoop_succ_of_not_lt (by rw [BitVec.lt_def]; omega)))
  · have houtLen : u.outLen = (xs.map Prod.fst).length := by
      rw [hdecoded.frame, hout]
      exact Nat.zero_add _
    have hbuf : u.outBuf = Memory.writeBytes s.outBuf 0 (xs.map Prod.fst) := by rw [hdecoded.frame, hout]
    rw [State.output, successExit_outLen, houtLen]
    refine readOutBytes_eq_of_written (m := s.outBuf) fun j hj => ?_
    rw [← hbuf]
    exact read?_below u.outBuf (by omega)

/-- DECOMPRESS of a buffer that holds the container of a byte sequence succeeds, and its output is the byte sequence. -/
theorem decompress_runsTo_of_container {s : State} {bs tail out : List Byte} {T : HTree} {code : Byte → List Bool} (hrest : s.state ≠ .busy)
    (hhost : s.host = []) (hfits : s.inputFits = true) (hlen : bs.length < 2 ^ 64) (hc : IsContainer bs T code tail out)
    (hinput : s.input = out) (hroom : s.cfg.outHolds bs.length = true) :
    ∃ u : State, (s.start true).RunsTo u.successExit ∧ u.host = [] ∧ u.successExit.output = bs := by
  obtain ⟨hT, hcodes, -, hout, pad, -, hstream⟩ := hc
  obtain ⟨v, hrun, hv, hperf, htree, horig, hahead⟩ := decompress_runsTo_dwalk hrest hhost hfits (hinput.trans hout) hlen hT hroom
  have hcodeStream : (bs.map fun a => (a, code a)).flatMap Prod.snd = bs.flatMap code := List.flatMap_map ..
  obtain ⟨u, hexec, huhost, huout⟩ := exec_dwalk_of_codes (xs := bs.map fun a => (a, code a)) (hv.inputFits.trans hfits) htree hv.outLen
    hv.emitted (by rw [List.length_map, horig]) (by rw [List.length_map, hv.input.cfg]; exact hroom) (List.forall_mem_map.2 hcodes)
    (by rw [hahead, hstream, hcodeStream]; exact List.prefix_append _ _)
  exact ⟨u, hrun.trans (hperf.runsTo hexec), huhost.trans hperf.host, huout.trans (by simp [Function.comp_def])⟩

/-- The state after the host has put `bs` in IN from address 0 on, and its length in `IN_LEN`. -/
def State.loaded (s : State) (bs : List Byte) : State :=
  { s with inBuf := Memory.writeBytes s.inBuf 0 bs, inLen := BitVec.ofNat 64 bs.length }

theorem loaded_inLen_toNat (s : State) {bs : List Byte} (hlen : bs.length < 2 ^ 64) : (s.loaded bs).inLen.toNat = bs.length :=
  (BitVec.toNat_ofNat _ 64).trans (Nat.mod_eq_of_lt hlen)

theorem loaded_input (s : State) {bs : List Byte} (hlen : bs.length < 2 ^ 64) : (s.loaded bs).input = bs := by
  rw [State.input, loaded_inLen_toNat s hlen]
  refine List.ext_getElem (length_readInBytes _ _ _) fun j _ hj => ?_
  have hread := read?_writeBytes_inside s.inBuf 0 bs hj
  rw [getElem_readInBytes, State.readIn, State.loaded, hread]
  rfl

theorem length_output (s : State) : s.output.length = s.outLen := length_readOutBytes s 0 _

/-- The result does not depend on the host's moves. -/
theorem output_withHost (s : State) (h : List HostEvent) : ({ s with host := h } : State).output = s.output :=
  readOutBytes_congr 0 s.outLen fun _ _ _ => rfl

theorem hostCopyOutToIn_of_fits {s : State} (hlen : s.outLen < 2 ^ 64) (hfits : s.cfg.inHolds s.outLen = true) :
    hostCopyOutToIn s = .next (s.loaded s.output) := by
  rw [hostCopyOutToIn, if_pos hlen, if_pos hfits, State.loaded, length_output, State.output]

/-- The host's two moves of rule R220: from DONE, the copy and the START lead to the begun run on the result. -/
theorem run_copy_start {s : State} {e e' : HostEvent} (hhost : s.host = [e, e']) (hwait : e.wait = .turns 0) (hmove : e.move = .copyOutToIn)
    (hwait' : e'.wait = .turns 0) (hmove' : e'.move = .writeCtrl 3) (hdone : s.state = .done) (hlen : s.outLen < 2 ^ 64)
    (hfits : s.cfg.inHolds s.outLen = true) : run 2 s = .next ((({ s with host := [] } : State).loaded s.output).start true) := by
  have hdue : ∀ {e : HostEvent}, e.wait = .turns 0 → ∀ u, e.due u = true := fun h u => by simp [HostEvent.due, h]
  have hcopy : step s = .next (({ s with host := [e'] } : State).loaded s.output) := by
    rw [step_of_due hhost (hdue hwait s), hmove, hostMove, hostCopyOutToIn_of_fits (s := { s with host := [e'] }) hlen hfits, output_withHost,
      guarded, if_pos (decide_eq_true hdone)]
  have hstart := step_of_due_command (s := ({ s with host := [e'] } : State).loaded s.output) rfl (hdue hwait' _) hmove'
    (rfl : decodeCtrl 3 = .ok .decompress)
  exact (run_succ_of_next hcopy).trans ((run_succ_of_next hstart).trans (run_zero _))

/-- Settles O53: the copy makes the container that the run left (`container_of_run`) the input of the DECOMPRESS run, which gives back what
the container was made of (`decompress_runsTo_of_container`). -/
theorem decompressInvertsCompress : Obligations.DecompressInvertsCompress := by
  intro s t n hrest hhost hrun hdone hok hlen hfits hroom
  obtain ⟨T, tail, hcontainer⟩ := container_of_run hrest hhost hrun hdone hok
  have hsLen : s.input.length = s.inLen.toNat := length_input s
  have hstart := run_copy_start (s := { t with host := [⟨.turns 0, .copyOutToIn⟩, ⟨.turns 0, .writeCtrl 3⟩] }) rfl rfl rfl rfl rfl
    hdone hlen hfits
  rw [output_withHost] at hstart
  have htLen := length_output t
  obtain ⟨u, ⟨m, hend⟩, huhost, hout⟩ := decompress_runsTo_of_container (s := ({ t with host := [] } : State).loaded t.output)
    (by rw [State.loaded, hdone]; nofun) rfl (by rw [State.inputFits, loaded_inLen_toNat _ (htLen ▸ hlen), htLen]; exact hfits)
    (hsLen ▸ s.inLen.isLt) hcontainer (loaded_input _ (htLen ▸ hlen)) (hsLen.symm ▸ hroom)
  refine ⟨2 + m, u.successExit, (run_add hstart).trans hend, huhost, rfl, rfl, rfl, ?_, hout⟩
  exact (length_output u.successExit).symm.trans ((congrArg List.length hout).trans hsLen)

end Sys2Proof.Machine
end

section
/-! PROOFS of the family 46_commands.md, third part: two runs of one command on the same input, step by step, up to the code table. What the
engine held before the START is told from nothing: each step leads both runs on, or both to the same end. -/

namespace Sys2Proof.Machine

/-! ### Two runs that end together (rules R214, R221, R240) -/

/-- Two ends of a run that the host cannot tell apart: the failure exit of one failure, or the success exit with one output. -/
inductive SameEnd : State → State → Prop
  | failure (f : Failure) (u u' : State) : SameEnd (u.failureExit f) (u'.failureExit f)
  | success (u u' : State) (h : u'.successExit.output = u.successExit.output) : SameEnd u.successExit u'.successExit

/-- Both runs end after `n` steps and not earlier, in ends that the host cannot tell apart. -/
inductive EndTogether : Nat → State → State → Prop
  | ended {t t' : State} (h : SameEnd t t') : EndTogether 0 t t'
  | later {n : Nat} {s s' t t' : State} (hbusy : s.state = .busy) (h : step s = .next t) (h' : step s' = .next t')
      (hrest : EndTogether n t t') : EndTogether (n + 1) s s'

section
variable {s s' t t' : State} {n k : Nat}

theorem EndTogether.of_exec {i : Instr} (hs : s.Performs i) (hs' : s'.Performs i) (h : exec i s = .next t) (h' : exec i s' = .next t')
    (hrest : EndTogether n t t') : EndTogether (n + 1) s s' :=
  .later hs.busy (hs.step.trans h) (hs'.step.trans h') hrest

/-- Both runs fail in this step, with the same failure. -/
theorem EndTogether.of_failure {i : Instr} {u u' : State} {f : Failure} (hs : s.Performs i) (hs' : s'.Performs i)
    (h : exec i s = .next (u.failureExit f)) (h' : exec i s' = .next (u'.failureExit f)) : EndTogether 1 s s' :=
  .of_exec hs hs' h h' (.ended (.failure f u u'))

/-- With no run in progress and no host move pending nothing happens (rule R210). -/
theorem step_of_rest (hrest : s.state ≠ .busy) (hhost : s.host = []) : step s = .next s := by
  rw [step_of_no_host hhost, fetch]
  cases hstate : s.state with
  | idle => rfl
  | busy => exact absurd hstate hrest
  | done => exact if_neg hrest

theorem busy_of_run (hhost : s.host = []) (h : run k s = .next t) (hbusy : t.state = .busy) : s.state = .busy := by
  by_contra hrest
  have hstays : ∀ u, u = s → step u = .next u := fun u hu => hu ▸ step_of_rest hrest hhost
  have hts : t = s := run_keeps (P := (· = s)) (fun u v hu hstep => (Host.Outcome.next.inj ((hstays u hu).symm.trans hstep)).symm.trans hu)
    rfl h
  exact hrest (hts ▸ hbusy)

theorem exists_step_of_run (h : run (k + 1) s = .next t) : ∃ u, step s = .next u ∧ run k u = .next t := by
  rw [run_succ] at h
  cases hstep : step s with
  | next u => exact ⟨u, rfl, by rwa [hstep] at h⟩
  | fault r => rw [hstep] at h; cases h
  | refused r => rw [hstep] at h; cases h

/-- Steps that both runs take, and after which a run is still in progress. -/
theorem EndTogether.of_run (hhost : s.host = []) (h : run k s = .next t) (h' : run k s' = .next t') (hbusy : t.state = .busy)
    (hrest : EndTogether n t t') : EndTogether (k + n) s s' := by
  induction k generalizing s s' with
  | zero =>
    rw [run_zero] at h h'
    cases h
    cases h'
    rwa [Nat.zero_add]
  | succ k ih =>
    have hs := busy_of_run hhost h hbusy
    obtain ⟨u, hstep, hu⟩ := exists_step_of_run h
    obtain ⟨u', hstep', hu'⟩ := exists_step_of_run h'
    have huhost : u.host = [] := host_of_run (n := 1) hhost ((run_succ_of_next hstep).trans (run_zero u))
    rw [Nat.add_right_comm]
    exact .later hs hstep hstep' (ih huhost hu hu')

theorem SameEnd.done (h : SameEnd t t') : t.state = .done ∧ t'.state = .done := by
  cases h <;> exact ⟨rfl, rfl⟩

/-- What the two runs come to, and that the first of them has not been in DONE before. -/
theorem EndTogether.exists_run (h : EndTogether n s s') :
    ∃ t t', run n s = .next t ∧ run n s' = .next t' ∧ SameEnd t t' ∧ ∀ m u, run m s = .next u → u.state = .done → n ≤ m := by
  induction h with
  | ended h => exact ⟨_, _, run_zero _, run_zero _, h, fun m _ _ _ => Nat.zero_le m⟩
  | later hbusy hstep hstep' _ ih =>
    obtain ⟨t, t', hrun, hrun', hend, hfirst⟩ := ih
    refine ⟨t, t', (run_succ_of_next hstep).trans hrun, (run_succ_of_next hstep').trans hrun', hend, fun m u hm hu => ?_⟩
    cases m with
    | zero =>
      rw [run_zero] at hm
      cases hm
      exact nomatch hbusy.symm.trans hu
    | succ m => exact Nat.succ_le_succ (hfirst m u ((run_succ_of_next hstep).symm.trans hm) hu)

end

/-! ### The same input (rules R24, R62) -/

/-- The same parameters, `IN_LEN` and input bytes; what else IN holds is left open. -/
structure SameInput (s s' : State) : Prop where
  cfg : s'.cfg = s.cfg
  inLen : s'.inLen = s.inLen
  input : s'.input = s.input

section
variable {s s' u u' : State}

theorem SameInput.of_frames (h : SameInput s s') (hu : InputFrame s u) (hu' : InputFrame s' u') : SameInput u u' where
  cfg := hu'.cfg.trans (h.cfg.trans hu.cfg.symm)
  inLen := hu'.inLen.trans (h.inLen.trans hu.inLen.symm)
  input := hu'.input_eq.trans (h.input.trans hu.input_eq.symm)

theorem SameInput.inputFits (h : SameInput s s') : s'.inputFits = s.inputFits := by
  rw [State.inputFits, h.cfg, h.inLen, State.inputFits]

theorem SameInput.readIn (h : SameInput s s') {a : Nat} (ha : a < s.inLen.toNat) : s'.readIn a = s.readIn a := by
  have hbyte : s'.input[a]? = s.input[a]? := congrArg (·[a]?) h.input
  rw [List.getElem?_eq_getElem (by rwa [length_input, h.inLen]), List.getElem?_eq_getElem (by rwa [length_input])] at hbyte
  simpa only [State.input, getElem_readInBytes, Nat.zero_add] using Option.some.inj hbyte

theorem SameInput.readInBytes (h : SameInput s s') {a n : Nat} (hn : a + n ≤ s.inLen.toNat) : s'.readInBytes a n = s.readInBytes a n := by
  refine List.ext_getElem (by rw [length_readInBytes, length_readInBytes]) fun j _ hj => ?_
  rw [length_readInBytes] at hj
  rw [getElem_readInBytes, getElem_readInBytes, h.readIn (by omega)]

theorem SameInput.memRead (h : SameInput s s') {a n : Nat} (hn : a + n ≤ s.inLen.toNat) : s'.memRead a n = s.memRead a n :=
  congrArg leValue (h.readInBytes hn)

end

/-- Two states in which a START of the same command is given the same input, and in which no host move will disturb the run (rule R221). -/
structure SameStart (s s' : State) : Prop extends SameInput s s' where
  rest : s.state ≠ .busy
  rest' : s'.state ≠ .busy
  host : s.host = []
  host' : s'.host = []

/-! ### INIT -/

/-- The run of a command just begun in `s`: INIT is over, and the next operation is that of `p` (rules R211, R212, R215). -/
def State.begun (s : State) (op : Bool) (p : PhaseCode) : State := (initWork (s.start op)).goto p

section
variable {s : State}

theorem begun_beforeOutput (hrest : s.state ≠ .busy) (op : Bool) (p : PhaseCode) : BeforeOutput s op (s.begun op p) :=
  (initWork_beforeOutput hrest op).goto p

theorem begun_tableClear (s : State) (op : Bool) (p : PhaseCode) : (s.begun op p).TableClear := initWork_tableClear (s.start op)

theorem exec_init_start (hrest : s.state ≠ .busy) (op : Bool) : exec .init (s.start op) = .next (
    if s.inputFits = false then (initWork (s.start op)).failureExit .capacityExceeded
    else if op = true then s.begun op Phase.cparse
    else if s.inLen = 0 then (initWork (s.start op)).failureExit .inputEmpty
    else s.begun op Phase.fcount) := by
  rw [exec_init, State.begun, State.begun, start_of_not_busy hrest]
  rfl

end

/-! ### The frequency table (rules R111, R190) -/

/-- The same frequency table, `ORIG` and place of the bit reader. -/
structure SameTable (u u' : State) : Prop where
  freqOf : ∀ k, u'.freqOf k = u.freqOf k
  isKey : ∀ k, u'.isKey k = u.isKey k
  m : u'.m = u.m
  orig : u'.orig = u.orig
  brPos : u'.brPos = u.brPos
  brCur : u'.brCur = u.brCur

theorem SameTable.keys {u u' : State} (h : SameTable u u') : u'.keys = u.keys := List.filter_congr fun k _ => h.isKey k

theorem SameTable.goto {u u' : State} (h : SameTable u u') (p : PhaseCode) : SameTable (u.goto p) (u'.goto p) :=
  ⟨h.freqOf, h.isKey, h.m, h.orig, h.brPos, h.brCur⟩

theorem SameTable.tallies {u u' : State} {bs : List Byte} (h : SameTable u u') (htally : u.Tallies bs) : u'.Tallies bs where
  freqOf_eq k := (h.freqOf k).trans (htally.freqOf_eq k)
  isKey_iff k := by rw [h.isKey, htally.isKey_iff]
  m_eq := h.m.trans htally.m_eq

theorem State.Tallies.goto {u : State} {bs : List Byte} (h : u.Tallies bs) (p : PhaseCode) : (u.goto p).Tallies bs :=
  ⟨h.freqOf_eq, h.isKey_iff, h.m_eq⟩

/-- TSEED is next in the run that a START of `op` began in `s`, and `M` counts the keys of the table. -/
structure Seeded (s : State) (op : Bool) (u : State) : Prop extends u.AtTseed where
  before : BeforeOutput s op u
  keyCount : u.m.toNat = u.keys.length

theorem begun_seeded {s w : State} {op : Bool} {p : PhaseCode} (hrest : s.state ≠ .busy) (hhost : s.host = [])
    (hframe : ParseFrame (s.begun op p) w) (hcount : w.m.toNat = w.keys.length) : Seeded s op (w.goto Phase.tseed) := by
  have hbegun := begun_beforeOutput hrest op p
  have hbefore : BeforeOutput s op w := hbegun.of_eq (by rw [hframe])
  refine ⟨⟨hbefore.busy, hbefore.input.host.trans hhost, rfl, ?_, ?_⟩, hbefore.goto _, hcount⟩ <;> rw [hframe] <;> rfl

end Sys2Proof.Machine
end

section
/-! PROOFS of the family 46_commands.md, fourth part: two runs of one command on the same input, from the frequency table to the code table. -/

namespace Sys2Proof.Machine

/-! ### FCOUNT and CPARSE (rules R111, R190) -/

section
variable {s s' : State}

/-- FCOUNT leads the begun run of COMPRESS to TSEED with the tally of the input. -/
theorem exists_exec_fcount (hrest : s.state ≠ .busy) (hhost : s.host = []) (hfits : s.inputFits = true) :
    ∃ u, exec .fcount (s.begun false Phase.fcount) = .next u ∧ Seeded s false u ∧ u.Tallies s.input ∧ u.orig = 0 ∧ u.brPos = 0 ∧
      u.brCur = 0 := by
  have hbegun := begun_beforeOutput hrest false Phase.fcount
  have hframe : TableFrame (s.begun false Phase.fcount) (s.begun false Phase.fcount).counted := fcountOp_frame _
  have htally := counted_tallies (begun_tableClear s false Phase.fcount)
  rw [hbegun.input.input_eq] at htally
  refine ⟨_, exec_fcount (hbegun.inputFits.trans hfits), begun_seeded hrest hhost hframe.toParse htally.toNat_m_eq_length_keys,
    htally.goto _, ?_, ?_, ?_⟩ <;> rw [hframe] <;> rfl

theorem SameTable.of_tallies {u u' : State} {bs : List Byte} (h : u.Tallies bs) (h' : u'.Tallies bs) (horig : u'.orig = u.orig)
    (hpos : u'.brPos = u.brPos) (hcur : u'.brCur = u.brCur) : SameTable u u' where
  freqOf k := (h'.freqOf_eq k).trans (h.freqOf_eq k).symm
  isKey k := Bool.eq_iff_iff.2 ((h'.isKey_iff k).trans (h.isKey_iff k).symm)
  m := h'.m_eq.trans h.m_eq.symm
  orig := horig
  brPos := hpos
  brCur := hcur

/-- The same entries read into tables that are the same leave the same table. -/
theorem SameTable.foldl_withEntry (es : List (Byte × Word64)) (h : SameTable s s') :
    SameTable (es.foldl State.withEntry s) (es.foldl State.withEntry s') := by
  induction es generalizing s s' with
  | nil => exact h
  | cons e es ih =>
    refine ih ⟨fun k => ?_, fun k => ?_, ?_, ?_, ?_, ?_⟩
    · rw [State.withEntry, State.withEntry, freqOf_setFreq, freqOf_setFreq, freqOf_markKey, freqOf_markKey, h.freqOf]
    · rw [State.withEntry, State.withEntry, isKey_setFreq, isKey_setFreq, Bool.eq_iff_iff, isKey_markKey, isKey_markKey, h.isKey]
    · have hkey := h.isKey e.1
      have hm := h.m
      rw [State.withEntry, State.withEntry, setFreq_m, setFreq_m, State.markKey, State.markKey, hkey]
      split
      · exact hm
      · exact congrArg (· + 1) hm
    · simpa [State.withEntry] using h.orig
    · simpa [State.withEntry] using h.brPos
    · simpa [State.withEntry] using h.brCur

theorem SameInput.entryAt (h : SameInput s s') {i : Nat} (hi : 16 + 9 * (i + 1) ≤ s.inLen.toNat) : s'.entryAt i = s.entryAt i := by
  have hsym : s'.entrySym i = s.entrySym i := h.readIn (by simp only [Config.hdrLen, Config.entLen]; omega)
  have hfreq : s'.entryFreq i = s.entryFreq i :=
    congrArg (BitVec.ofNat 64) (h.memRead (by simp only [Config.hdrLen, Config.entLen]; omega))
  rw [State.entryAt, State.entryAt, hsym, hfreq]

theorem SameInput.entriesIn (h : SameInput s s') {n : Nat} (hn : 16 + 9 * n ≤ s.inLen.toNat) : s'.entriesIn n = s.entriesIn n :=
  List.map_congr_left fun i hi => h.entryAt (by have := List.mem_range.1 hi; omega)

/-- Two clear tables behind the same header. -/
theorem sameTable_withHeader (hclear : s.TableClear) (hclear' : s'.TableClear) (hpos : s'.brPos = s.brPos) (hcur : s'.brCur = s.brCur)
    (orig : Word64) (mHdr : Word32) : SameTable (s.withHeader orig mHdr) (s'.withHeader orig mHdr) where
  freqOf k := (hclear'.2 k).2.trans (hclear.2 k).2.symm
  isKey k := (hclear'.2 k).1.trans (hclear.2 k).1.symm
  m := hclear'.1.trans hclear.1.symm
  orig := rfl
  brPos := hpos
  brCur := hcur

/-- The whole table of one input, read into two clear tables. -/
theorem SameInput.tableRead (h : SameInput s s') (hclear : s.TableClear) (hclear' : s'.TableClear)
    (htable : 16 + 9 * s.memRead 12 4 ≤ s.inLen.toNat) (hpos : s'.brPos = s.brPos) (hcur : s'.brCur = s.brCur) :
    SameTable s.tableRead s'.tableRead := by
  have hm : s'.memRead 12 4 = s.memRead 12 4 := h.memRead (by omega)
  rw [State.tableRead, State.tableRead, hm, h.entriesIn htable]
  rw [State.headerRead, State.headerRead, hm, h.memRead (by omega)]
  exact SameTable.foldl_withEntry _ (sameTable_withHeader hclear hclear' hpos hcur _ _)

/-- The bit reader put in one place. -/
theorem SameTable.withReader (h : SameTable s s') (p : Word64) (c : BitVec 3) :
    SameTable { s with brPos := p, brCur := c } { s' with brPos := p, brCur := c } :=
  ⟨h.freqOf, h.isKey, h.m, h.orig, rfl, rfl⟩

theorem State.CountsKeys.withReader (h : s.CountsKeys) (p : Word64) (c : BitVec 3) :
    ({ s with brPos := p, brCur := c } : State).CountsKeys := h

/-- CPARSE on the same input fails in both runs, by the same check, or leaves the same table in both (rules R190 to R192). -/
theorem SameInput.cparseOp (h : SameInput s s') (hclear : s.TableClear) (hclear' : s'.TableClear) (hpos : s'.brPos = s.brPos)
    (hcur : s'.brCur = s.brCur) :
    (∃ f u u', cparseOp s = .raised f u ∧ cparseOp s' = .raised f u') ∨
    (∃ u u', cparseOp s = .ok u ∧ cparseOp s' = .ok u' ∧ SameTable u u' ∧ u.CountsKeys ∧ u'.CountsKeys) := by
  have hlen : s'.inLen.toNat = s.inLen.toNat := congrArg BitVec.toNat h.inLen
  have hhdr : Config.hdrLen = 16 := rfl
  by_cases h4 : s.inLen.toNat < 4
  · exact .inl ⟨_, _, _, cparseOp_of_lt_four h4, cparseOp_of_lt_four (hlen ▸ h4)⟩
  have hmagic : s'.magicMatches = s.magicMatches := by rw [State.magicMatches, State.magicMatches, h.readInBytes (by omega)]
  cases hmatch : s.magicMatches with
  | false => exact .inl ⟨_, _, _, cparseOp_of_not_magic (by omega) hmatch, cparseOp_of_not_magic (by omega) (hmagic.trans hmatch)⟩
  | true =>
    by_cases h16 : s.inLen.toNat < 16
    · exact .inl ⟨_, _, _, cparseOp_of_short_header (by omega) hmatch (by omega),
        cparseOp_of_short_header (by omega) (hmagic.trans hmatch) (by omega)⟩
    have hm : s'.memRead 12 4 = s.memRead 12 4 := h.memRead (by omega)
    by_cases htable : s.inLen.toNat < 16 + 9 * s.memRead 12 4
    · exact .inl ⟨_, _, _, cparseOp_of_short_table hmatch (by omega) (by rwa [headerRead_tableEnd]),
        cparseOp_of_short_table (hmagic.trans hmatch) (by omega) (by rw [headerRead_tableEnd]; omega)⟩
    have hop' := cparseOp_of_whole_table (s := s') (hmagic.trans hmatch) (by omega)
    rw [hm] at hop'
    exact .inr ⟨_, _, cparseOp_of_whole_table hmatch (by omega), hop', (h.tableRead hclear hclear' (by omega) hpos hcur).withReader _ _,
      (tableRead_countsKeys hclear).withReader _ _, (tableRead_countsKeys hclear').withReader _ _⟩

end

/-! ### The tree (rules R127 to R129) -/

/-- The construction from the table of `u` is over in `t`: the tree `T` stands at its root and carries the keys. -/
structure TreeBuilt (u t : State) (T : HTree) : Prop where
  frame : t = { u with node := t.node, nn := t.nn, pq := t.pq, root := t.root, phase := Phase.cgen }
  hasTree : t.HasTree T
  symbols : T.symbols.Perm u.keys

section
variable {u u' : State}

theorem exists_same_tree_of_two (hu : u.AtTseed) (hu' : u'.AtTseed) (hm : u.m.toNat = u.keys.length) (htable : SameTable u u')
    (hlen : 2 ≤ u.keys.length) : ∃ t t' T, run u.keys.length u = .next t ∧ run u.keys.length u' = .next t' ∧ TreeBuilt u t T ∧
      TreeBuilt u' t' T := by
  have hkeys := htable.keys
  have hm' : u'.m.toNat = u'.keys.length := by rw [htable.m, hkeys, hm]
  obtain ⟨n, hn⟩ : ∃ n, u.keys.length = n + 2 := ⟨u.keys.length - 2, by omega⟩
  obtain ⟨v, v', hexec, hexec', hvalike, hvforest, hvlen, hv, hv'⟩ := alikeBelow_of_exec_tseed hu hu' hkeys htable.freqOf hm hm' hlen
  obtain ⟨t, t', hmerge, hmerge', halike⟩ := hvalike.run_tmerge n hvforest hv hv' (hvlen.trans hn)
  have hrun : run u.keys.length u = .next t := hn ▸ (run_succ_of_next (hu.performs.step.trans hexec)).trans hmerge
  have hrun' : run u.keys.length u' = .next t' := hn ▸ (run_succ_of_next (hu'.performs.step.trans hexec')).trans hmerge'
  obtain ⟨x, tr, hx, ht, hforest, -⟩ := run_construction hu.busy hu.host hu.phase hu.nn hu.pq hm hlen
  obtain rfl : t = x := Host.Outcome.next.inj (hrun.symm.trans hx)
  obtain ⟨x', -, hx', ht', -⟩ := run_construction hu'.busy hu'.host hu'.phase hu'.nn hu'.pq hm' (hkeys ▸ hlen)
  obtain rfl : t' = x' := Host.Outcome.next.inj (hrun'.symm.trans (hkeys ▸ hx'))
  have hpq : t.pq = [t.root] := by rw [ht]
  have hpq' : t'.pq = [t'.root] := by rw [ht']
  have hroot : t'.root = t.root := List.singleton_inj.1 (hpq'.symm.trans (halike.pq.trans hpq))
  have htkeys : t.keys = u.keys := by rw [ht]; rfl
  have htkeys' : t'.keys = u'.keys := by rw [ht']; rfl
  obtain ⟨hT, hperm, -⟩ := hforest.hasTree hpq (by rwa [htkeys])
  obtain ⟨hT', hperm', -⟩ := (halike.forest hforest).hasTree hpq' (by rwa [htkeys', hkeys])
  rw [hroot] at hT' hperm'
  exact ⟨t, t', tr t.root, hrun, hrun', ⟨by rw [ht], hT, htkeys ▸ hperm⟩, ⟨by rw [ht'], hT', htkeys' ▸ hperm'⟩⟩

/-- From the same table both runs build the same tree, in as many steps as there are keys. -/
theorem exists_same_tree (hu : u.AtTseed) (hu' : u'.AtTseed) (hm : u.m.toNat = u.keys.length) (htable : SameTable u u')
    (hne : u.keys ≠ []) : ∃ t t' T, run u.keys.length u = .next t ∧ run u.keys.length u' = .next t' ∧ TreeBuilt u t T ∧
      TreeBuilt u' t' T := by
  by_cases hone : u.keys.length = 1
  · obtain ⟨x, hx⟩ := List.length_eq_one_iff.1 hone
    have hkeys := htable.keys
    obtain ⟨t, T, hrun, ht, hT, hperm, -, hsingle, -⟩ := builtTreeCarriesTheKeys u hu.busy hu.host hu.phase hu.nn hu.pq hm hne
    obtain ⟨t', T', hrun', ht', hT', hperm', -, hsingle', -⟩ := builtTreeCarriesTheKeys u' hu'.busy hu'.host hu'.phase hu'.nn hu'.pq
      (by rw [htable.m, hkeys, hm]) (hkeys ▸ hne)
    obtain ⟨-, -, rfl⟩ := hsingle x hx
    obtain ⟨-, -, rfl⟩ := hsingle' x (hkeys.trans hx)
    exact ⟨t, t', _, hrun, hkeys ▸ hrun', ⟨by rw [ht], hT, hperm⟩, ⟨by rw [ht'], hT', hperm'⟩⟩
  · have hpos := List.length_pos_iff.2 hne
    exact exists_same_tree_of_two hu hu' hm htable (by omega)

end

/-! ### The code table (rules R140, R213, R216) -/

/-- CGEN is over in `v`, but for the size check behind it: the tree `T` of the table of `u` still stands at the root, and its paths are the
codes. -/
structure Coded (s : State) (op : Bool) (u v : State) (T : HTree) : Prop where
  before : BeforeOutput s op v
  frame : v = { u with node := v.node, nn := v.nn, pq := v.pq, root := v.root, phase := v.phase, code := v.code }
  hasTree : v.HasTree T
  code_mem : ∀ a ∈ u.keys, (a, v.codeBitsOf a) ∈ T.codes

section
variable {s s' u u' v v' t : State} {op : Bool} {T : HTree}

/-- CGEN where the tree is built. -/
theorem TreeBuilt.exec_cgen (h : TreeBuilt u t T) (hu : BeforeOutput s op u) (hhost : s.host = []) :
    t.Performs .cgen ∧ ∃ v, exec .cgen t = (afterCodes v).outcome ∧ Coded s op u v T := by
  have ht : BeforeOutput s op t := hu.of_eq (by rw [h.frame])
  have hframe := withPaths_frame t T.codes
  refine ⟨ht.performs hhost (by rw [h.frame]; rfl), t.withPaths T.codes, exec_cgen_of_hasTree h.hasTree, ?_, ?_, ?_, fun a ha => ?_⟩
  · exact ht.of_eq (by rw [hframe])
  · rw [hframe, h.frame]
  · rw [hframe]
    exact ⟨h.hasTree.held, h.hasTree.rootIsFork, h.hasTree.distinct, h.hasTree.bounded⟩
  · obtain ⟨e, he, rfl⟩ := List.mem_map.1 (h.symbols.mem_iff.2 ha)
    rw [(hasPath_of_hasTree h.hasTree e he).2]
    exact he

theorem Coded.keys (h : Coded s op u v T) : v.keys = u.keys := by rw [h.frame]; rfl

theorem Coded.sameTable (h : Coded s op u v T) (h' : Coded s' op u' v' T) (htable : SameTable u u') : SameTable v v' := by
  rw [h.frame, h'.frame]
  exact ⟨htable.freqOf, htable.isKey, htable.m, htable.orig, htable.brPos, htable.brCur⟩

theorem Coded.tallies {bs : List Byte} (h : Coded s op u v T) (htally : u.Tallies bs) : v.Tallies bs := by
  rw [h.frame]
  exact ⟨htally.freqOf_eq, htally.isKey_iff, htally.m_eq⟩

/-- No symbol stands on two leaves, so the tree gives it one code (rule R129). -/
theorem code_unique (hT : v.HasTree T) {a : Byte} {p q : List Bool} (hp : (a, p) ∈ T.codes) (hq : (a, q) ∈ T.codes) : p = q :=
  congrArg Prod.snd (List.inj_on_of_nodup_map hT.distinct hp hq rfl)

/-- Both runs give the keys the same codes. -/
theorem Coded.codeBitsOf_eq (h : Coded s op u v T) (h' : Coded s' op u' v' T) (htable : SameTable u u') :
    ∀ a ∈ u.keys, v'.codeBitsOf a = v.codeBitsOf a :=
  fun a ha => code_unique h.hasTree (h'.code_mem a (htable.keys ▸ ha)) (h.code_mem a ha)

/-- The size check compares the same length (rules R97, R213). -/
theorem Coded.containerLen_eq (h : Coded s op u v T) (h' : Coded s' op u' v' T) (htable : SameTable u u') :
    v'.containerLen = v.containerLen := by
  have hsame := h.sameTable h' htable
  have hbits : v'.codeBits = v.codeBits := by
    rw [State.codeBits, State.codeBits, hsame.keys]
    refine congrArg List.sum (List.map_congr_left fun k hk => ?_)
    rw [hsame.freqOf, ← length_codeBitsOf, ← length_codeBitsOf, h.codeBitsOf_eq h' htable k (h.keys ▸ hk)]
  rw [State.containerLen, State.containerLen, hbits, hsame.m]

end

end Sys2Proof.Machine
end

section
/-! PROOFS of the family 46_commands.md, fifth part: how a COMPRESS run with room for the container goes on behind CGEN, and when there is
room (O50). -/

namespace Sys2Proof.Machine

/-! ### Byte sequences and their bits (rules R67, R89) -/

theorem byteBits_injective {a b : Byte} (h : byteBits a = byteBits b) : a = b :=
  BitVec.eq_of_getLsbD_eq fun i hi => List.map_inj_left.1 h i (List.mem_range.2 hi)

theorem streamOf_injective {xs ys : List Byte} (h : streamOf xs = streamOf ys) : xs = ys := by
  induction xs generalizing ys with
  | nil =>
    have hlen := congrArg List.length h
    rw [length_streamOf, length_streamOf, List.length_nil] at hlen
    exact (List.length_eq_zero_iff.1 (by omega)).symm
  | cons x xs ih =>
    cases ys with
    | nil =>
      have hlen := congrArg List.length h
      rw [length_streamOf, length_streamOf, List.length_nil, List.length_cons] at hlen
      omega
    | cons y ys =>
      obtain ⟨hbyte, hrest⟩ := List.append_inj (s₁ := byteBits x) (s₂ := byteBits y) h (by simp [byteBits])
      rw [byteBits_injective hbyte, ih hrest]

/-- Some bits fill up to whole bytes in one way. -/
theorem eq_of_streamOf_pad {xs ys : List Byte} {w : List Bool} {p q : Nat} (hp : p < 8) (hq : q < 8)
    (hx : streamOf xs = w ++ List.replicate p false) (hy : streamOf ys = w ++ List.replicate q false) : xs = ys := by
  obtain ⟨hxlen, rfl⟩ := length_of_streamOf_pad hp hx
  obtain ⟨hylen, rfl⟩ := length_of_streamOf_pad hq hy
  exact streamOf_injective (hx.trans ((congrArg (fun n => w ++ List.replicate (8 * n - w.length) false) (hxlen.trans hylen.symm)).trans hy.symm))

/-! ### CENC, PACK and FLUSH with room for the container (rules R212, R218) -/

/-- `x` is where a COMPRESS run that has come to CENC in `v` takes the success exit: the tree and the codes are those of `v`, and the result is
the container of `bs`. -/
structure Containered (v x : State) (bs tail : List Byte) : Prop where
  node : x.node = v.node
  root : x.root = v.root
  codeBitsOf : x.successExit.codeBitsOf = v.codeBitsOf
  output : x.successExit.output = containerHead bs ++ tail
  stream : ∃ pad < 8, streamOf tail = bs.flatMap v.codeBitsOf ++ List.replicate pad false

section
variable {s v : State} {bs : List Byte}

theorem containerLen_eq (htally : v.Tallies bs) (hlen : bs.length < 2 ^ 64) :
    v.containerLen = (containerHead bs).length + ((bs.flatMap v.codeBitsOf).length + 7) / 8 := by
  rw [State.containerLen, codeBits_eq_length htally hlen, htally.toNat_m_eq_length_keys, htally.keys_eq, length_containerHead]
  rfl

/-- FLUSH with room for the last byte, if there is one, keeps the arena and `ROOT`. -/
theorem exists_exec_flush (hroom : s.bwCur ≠ 0 → s.cfg.outHolds (s.outLen + 1) = true) :
    ∃ x : State, exec .flush s = .next x.successExit ∧ x.node = s.node ∧ x.root = s.root := by
  by_cases hcur : s.bwCur = 0
  · exact ⟨s, exec_flush_of_ok (flushOp_of_zero hcur), rfl, rfl⟩
  · exact ⟨s.byteOut s.bwAcc, exec_flush_of_ok (flushOp_of_ne_zero hcur (hroom hcur)), rfl, rfl⟩

/-- PACK and FLUSH, with room for the codes of the input, keep the arena and `ROOT`. -/
theorem exists_exec_pack (hperf : s.Performs .pack) (hfits : s.inputFits = true) (hcur : s.bwCur = 0)
    (hroom : s.cfg.outHolds (s.outLen + ((s.input.flatMap s.codeBitsOf).length + 7) / 8) = true) :
    ∃ q x : State, exec .pack s = .next q ∧ q.Performs .flush ∧ exec .flush q = .next x.successExit ∧ x.node = s.node ∧
      x.root = s.root := by
  have hcur' : s.bwCur.toNat = 0 := congrArg BitVec.toNat hcur
  obtain ⟨t, hpack, hwrote, -⟩ := packOp_writes (s := s) (outHolds_mono (by omega) hroom)
  have hframe : PackFrame s t := hwrote.frame
  have hlen := hwrote.outLen
  have hlast := hwrote.bwCur
  obtain ⟨hbusy, hhost, hcfg, hnode, hroot⟩ : t.state = .busy ∧ t.host = [] ∧ t.cfg = s.cfg ∧ t.node = s.node ∧ t.root = s.root := by
    rw [hframe]
    exact ⟨hperf.busy, hperf.host, rfl, rfl, rfl⟩
  obtain ⟨x, hflush, hxnode, hxroot⟩ := exists_exec_flush (s := t.goto Phase.flush) fun hne => by
    have hne' : t.bwCur.toNat ≠ 0 := fun e => hne (BitVec.eq_of_toNat_eq e)
    rw [goto_cfg, goto_outLen, hcfg]
    exact outHolds_mono (by omega) hroom
  exact ⟨_, x, exec_pack_of_ok hfits hpack, ⟨hbusy, hhost, rfl⟩, hflush, hxnode.trans hnode, hxroot.trans hroot⟩

/-- With room for the container three steps write it. -/
theorem exists_container_steps (hhost : s.host = []) (hfits : s.inputFits = true) (hv : BeforeOutput s false v) (hphase : v.phase = Phase.cenc)
    (htally : v.Tallies bs) (hbs : v.input = bs) (hroom : v.cfg.outHolds v.containerLen = true) :
    ∃ (p q x : State) (tail : List Byte), exec .cenc v = .next p ∧ p.Performs .pack ∧ exec .pack p = .next q ∧ q.Performs .flush ∧
      exec .flush q = .next x.successExit ∧ Containered v x bs tail := by
  have hlen : v.inLen.toNat = bs.length := hbs ▸ (length_input v).symm
  have htotal := containerLen_eq htally (hlen ▸ v.inLen.isLt)
  have hperf : v.Performs .cenc := hv.performs hhost (by rw [hphase]; rfl)
  have hcenc := exec_cenc_of_room htally hlen (outHolds_mono (by rw [hv.outLen, htotal]; omega) hroom)
  have hpack : (v.headOut (containerHead bs)).Performs .pack := ⟨hv.busy, hv.input.host.trans hhost, rfl⟩
  obtain ⟨q, x, hpacked, hq, hflush, hnode, hroot⟩ := exists_exec_pack hpack (hv.inputFits.trans hfits) hv.bwCur (by
    rw [headOut_input, hbs, headOut_outLen _ hv.outLen]
    exact htotal ▸ hroom)
  obtain ⟨y, tail, pad, hpad, hrun, hout, hcode, hstream⟩ := runsTo_container hhost hfits hv hphase htally hbs hroom
  have hend : x.successExit = y.successExit := eq_of_runsTo_done hperf.host
    (((hperf.runsTo hcenc).trans (hpack.runsTo hpacked)).trans (hq.runsTo hflush)) rfl hrun rfl
  exact ⟨_, q, x, tail, hcenc, hpack, hpacked, hq, hflush, hnode, hroot, hend ▸ hcode, hend ▸ hout, pad, hpad, hstream⟩

end

/-! ### When COMPRESS succeeds (rules R213, R218) -/

/-- The table and the tree of the input `bs` stand in `v`, and the codes are the tree's paths. -/
structure CodedInput (v : State) (bs : List Byte) (T : HTree) : Prop where
  tally : v.Tallies bs
  hasTree : v.HasTree T
  symbols : ∀ a, a ∈ T.symbols ↔ a ∈ bs
  code_eq : ∀ e ∈ T.codes, v.codeBitsOf e.1 = e.2

section
variable {s v : State} {bs : List Byte} {T : HTree}

theorem CodedInput.containerLen_eq (h : CodedInput v bs T) (hlen : bs.length < 2 ^ 64) :
    v.containerLen = 16 + 9 * bs.dedup.length + ((bs.flatMap v.codeBitsOf).length + 7) / 8 := by
  rw [Machine.containerLen_eq h.tally hlen, length_containerHead, length_keysOf]

/-- A COMPRESS run of an input that is not empty comes to the size check behind CGEN (rule R213). -/
theorem compress_runsTo_sizeCheck (hrest : s.state ≠ .busy) (hhost : s.host = []) (hne : s.inLen ≠ 0) (hfits : s.inputFits = true) :
    ∃ v T, BeforeOutput s false v ∧ CodedInput v s.input T ∧ (s.start false).RunsTo
      (if v.cfg.outHolds v.containerLen = true then v.goto Phase.cenc else v.failureExit .capacityExceeded) := by
  have hbs : s.input ≠ [] := fun e => hne (BitVec.eq_of_toNat_eq ((length_input s).symm.trans (congrArg List.length e)))
  obtain ⟨T, hT⟩ := exists_buildsTree hbs
  obtain ⟨u, hrun, hu, hseed, htally⟩ := compress_runsTo_tseed hrest hhost hfits hne
  obtain ⟨-, -, -, -, hsymbols⟩ := hT u hseed htally
  obtain ⟨v, t, hrun', hexec, hperf, hv, htree, htally', hcodes, -⟩ := runsTo_cgen hu hseed htally hT
  rw [outcome_afterCodes, if_neg (by rw [hv.ctrlOp]; nofun)] at hexec
  exact ⟨v, T, hv, ⟨htally', htree, hsymbols, fun e he => code_unique htree (hcodes e.1 ((hsymbols e.1).1 (List.mem_map_of_mem he))) he⟩,
    (hrun.trans hrun').trans (hperf.runsTo hexec)⟩

/-- With room for the container the run goes on to the success exit. -/
theorem runsTo_success (hhost : s.host = []) (hfits : s.inputFits = true) (hv : BeforeOutput s false v) (hcoded : CodedInput v s.input T)
    (hroom : v.cfg.outHolds v.containerLen = true) : ∃ (x : State) (tail : List Byte), (v.goto Phase.cenc).RunsTo x.successExit ∧
      Containered (v.goto Phase.cenc) x s.input tail := by
  have hcencNext := hv.goto Phase.cenc
  obtain ⟨p, q, x, tail, hcenc, hp, hpack, hq, hflush, hx⟩ := exists_container_steps hhost hfits hcencNext rfl (hcoded.tally.goto _)
    hcencNext.input.input_eq hroom
  exact ⟨x, tail, (((hcencNext.performs hhost rfl).runsTo hcenc).trans (hp.runsTo hpack)).trans (hq.runsTo hflush), hx⟩

theorem Containered.hasTree {x : State} {tail : List Byte} (h : Containered v x bs tail) (hT : v.HasTree T) : x.successExit.HasTree T :=
  ⟨by rw [successExit_node, successExit_root, h.node, h.root]; exact hT.held, hT.rootIsFork, hT.distinct, hT.bounded⟩

theorem Containered.outLen_eq {x : State} {tail : List Byte} (h : Containered v x bs tail) (htally : v.Tallies bs)
    (hlen : bs.length < 2 ^ 64) : x.successExit.outLen = v.containerLen := by
  obtain ⟨pad, hpad, hstream⟩ := h.stream
  rw [← length_output, h.output, List.length_append, (length_of_streamOf_pad hpad hstream).1, Machine.containerLen_eq htally hlen]

end

/-- Settles O50: at the size check behind CGEN (`compress_runsTo_sizeCheck`) the run fails, or goes on to write the container
(`runsTo_success`), which has the length that was checked. -/
theorem compressSucceedsWithRoom : Obligations.CompressSucceedsWithRoom := by
  intro s hrest hhost hne hfits
  have hlen : s.input.length < 2 ^ 64 := length_input s ▸ s.inLen.isLt
  obtain ⟨v, T, hv, hcoded, hrun⟩ := compress_runsTo_sizeCheck hrest hhost hne hfits
  have htotal := hcoded.containerLen_eq hlen
  have hcfg := hv.input.cfg
  cases hroom : v.cfg.outHolds v.containerLen with
  | true =>
    rw [if_pos hroom] at hrun
    obtain ⟨x, tail, hrun', hx⟩ := runsTo_success hhost hfits hv hcoded hroom
    have hcodes : x.successExit.codeBitsOf = v.codeBitsOf := hx.codeBitsOf
    have htree := hcoded.hasTree
    obtain ⟨n, hend⟩ := hrun.trans hrun'
    refine ⟨n, _, T, v.containerLen, hend, rfl, hx.hasTree ⟨htree.held, htree.rootIsFork, htree.distinct, htree.bounded⟩, hcoded.symbols,
      hcodes ▸ hcoded.code_eq, hcodes ▸ htotal, fun _ => ⟨rfl, rfl, hx.outLen_eq (hcoded.tally.goto _) hlen⟩, ?_⟩
    exact fun h => nomatch (hcfg ▸ hroom).symm.trans h
  | false =>
    rw [if_neg (ne_true_of_eq_false hroom)] at hrun
    obtain ⟨n, hend⟩ := hrun
    refine ⟨n, _, T, v.containerLen, hend, rfl, ?_, hcoded.symbols, hcoded.code_eq, htotal, ?_, fun _ => ⟨rfl, rfl, rfl⟩⟩
    · exact ⟨hcoded.hasTree.held, hcoded.hasTree.rootIsFork, hcoded.hasTree.distinct, hcoded.hasTree.bounded⟩
    · exact fun h => nomatch (hcfg ▸ hroom).symm.trans h

end Sys2Proof.Machine
end

section
/-! PROOFS of the family 46_commands.md, sixth part: two runs of one command on the same input end together (O52), and so every run ends (O48). -/

namespace Sys2Proof.Machine

/-! ### Two walks over the same bits on the same tree (rules R168, R169) -/

/-- The same result so far, every byte of it written by an Append. -/
structure SameOut (s s' : State) : Prop where
  outLen : s'.outLen = s.outLen
  read? : ∀ a < s.outLen, ∃ b, Memory.read? s.outBuf a = some b ∧ Memory.read? s'.outBuf a = some b

/-- Both walks stand on the roots of equal forks of equal trees, with the same bits ahead, the same symbols out and the same still to come. The
arenas and the indices may differ. -/
structure SameWalk (s s' : State) : Prop where
  out : SameOut s s'
  cfg : s'.cfg = s.cfg
  bitsAhead : s'.bitsAhead = s.bitsAhead
  orig : s'.orig = s.orig
  emitted : s'.emitted = s.emitted
  root : ∃ l r, Holds s.node s.root (.fork l r) ∧ Holds s'.node s'.root (.fork l r)
  cur : ∃ l r, Holds s.node s.walkCur (.fork l r) ∧ Holds s'.node s'.walkCur (.fork l r)
  room : s.cfg.outHolds (s.outLen + (s.orig.toNat - s.emitted.toNat)) = true

section
variable {s s' : State}

theorem SameOut.output_successExit (h : SameOut s s') : s'.successExit.output = s.successExit.output := by
  refine List.ext_getElem (by rw [length_output, length_output]; exact h.outLen) fun j hj' hj => ?_
  have hlt : j < s.outLen := hj.trans_eq (length_output s.successExit)
  obtain ⟨b, hb, hb'⟩ := h.read? j hlt
  simp only [State.output, getElem_readOutBytes, State.readOut, successExit_outBuf, Nat.zero_add, read?_below _ hlt,
    read?_below _ (h.outLen ▸ hlt : j < s'.outLen), hb, hb', Option.getD_some]

theorem SameOut.symbolOut (h : SameOut s s') (sym : Byte) : SameOut (s.symbolOut sym) (s'.symbolOut sym) where
  outLen := congrArg (· + 1) h.outLen
  read? a ha := by
    change ∃ b, Memory.read? (Memory.write s.outBuf s.outLen sym) a = some b ∧ Memory.read? (Memory.write s'.outBuf s'.outLen sym) a = some b
    rw [h.outLen]
    by_cases hlast : a = s.outLen
    · exact ⟨sym, by rw [hlast, read?_write_same], by rw [hlast, read?_write_same]⟩
    · rw [read?_write_other _ _ hlast, read?_write_other _ _ hlast]
      exact h.read? a (Nat.lt_of_le_of_ne (Nat.le_of_lt_succ ha) hlast)

/-- The bits ahead depend on the input and the bit reader only (rule R165). -/
theorem bitsAhead_of_eq {u t : State}
    (e : t = { u with phase := t.phase, walkCur := t.walkCur, emitted := t.emitted, outBuf := t.outBuf, outLen := t.outLen }) :
    t.bitsAhead = u.bitsAhead := by
  rw [e]
  exact bitsAhead_congr ⟨rfl, rfl, rfl, rfl, rfl, rfl⟩ rfl rfl

/-- Both walks have a next bit, the same, or neither has. -/
theorem SameWalk.next_bit (h : SameWalk s s') : (s.exhausted = true ∧ s'.exhausted = true) ∨
    (s.exhausted = false ∧ s'.exhausted = false ∧ s'.streamBit = s.streamBit ∧ s'.bitRead.bitsAhead = s.bitRead.bitsAhead) := by
  have hbits := h.bitsAhead
  cases hend : s.exhausted with
  | true =>
    rw [bitsAhead_of_exhausted hend] at hbits
    refine .inl ⟨rfl, Bool.eq_true_of_not_eq_false fun hend' => ?_⟩
    rw [bitsAhead_of_not_exhausted hend'] at hbits
    cases hbits
  | false =>
    rw [bitsAhead_of_not_exhausted hend] at hbits
    cases hend' : s'.exhausted with
    | true =>
      rw [bitsAhead_of_exhausted hend'] at hbits
      cases hbits
    | false =>
      rw [bitsAhead_of_not_exhausted hend'] at hbits
      exact .inr ⟨rfl, rfl, List.cons.inj hbits⟩

/-- A turn leads both walks on, or both to the same failure. -/
theorem SameWalk.walkTurn (h : SameWalk s s') (hlt : s.emitted < s.orig) :
    (∃ t t', walkTurn s = .ok t ∧ walkTurn s' = .ok t' ∧ SameWalk t t') ∨
    ∃ f t t', walkTurn s = .raised f t ∧ walkTurn s' = .raised f t' := by
  obtain ⟨hend, hend'⟩ | ⟨hbit, hbit', hstream, hahead⟩ := h.next_bit
  · exact .inr ⟨_, _, _, walkTurn_of_exhausted hend, walkTurn_of_exhausted hend'⟩
  obtain ⟨l, r, hcur, hcur'⟩ := h.cur
  cases hbranch : branch l r s.streamBit with
  | leaf sym =>
    have hlt' := BitVec.lt_def.1 hlt
    have hroom : s.cfg.outHolds (s.outLen + 1) = true := outHolds_mono (by omega) h.room
    have hroom' : s'.cfg.outHolds (s'.outLen + 1) = true := by rw [h.cfg, h.out.outLen, hroom]
    refine .inl ⟨_, _, walkTurn_of_leaf hbit hcur hbranch hroom, walkTurn_of_leaf hbit' hcur' (hstream ▸ hbranch) hroom', ?_⟩
    refine ⟨?_, h.cfg, ?_, h.orig, congrArg (· + 1) h.emitted, h.root, h.root, ?_⟩
    · have hout := SameOut.symbolOut (s := s.bitRead) (s' := s'.bitRead) ⟨h.out.outLen, h.out.read?⟩ sym
      exact ⟨hout.outLen, hout.read?⟩
    · exact (bitsAhead_of_eq (u := s'.bitRead) rfl).trans (hahead.trans (bitsAhead_of_eq (u := s.bitRead) rfl).symm)
    · change s.cfg.outHolds (s.outLen + 1 + (s.orig.toNat - (s.emitted + 1).toNat)) = true
      rw [toNat_emitted_succ hlt]
      exact outHolds_mono (by omega) h.room
  | hole => exact .inr ⟨_, _, _, walkTurn_of_hole hbit hcur hbranch, walkTurn_of_hole hbit' hcur' (hstream ▸ hbranch)⟩
  | fork l' r' =>
    obtain ⟨n, hheld, hturn⟩ := walkTurn_of_fork hbit hcur hbranch
    obtain ⟨n', hheld', hturn'⟩ := walkTurn_of_fork hbit' hcur' (hstream ▸ hbranch)
    refine .inl ⟨_, _, hturn, hturn', ⟨h.out.outLen, h.out.read?⟩, h.cfg, ?_, h.orig, h.emitted, h.root, ⟨l', r', hheld, hheld'⟩, h.room⟩
    exact (bitsAhead_of_eq (u := s'.bitRead) rfl).trans (hahead.trans (bitsAhead_of_eq (u := s.bitRead) rfl).symm)

theorem SameWalk.dwalkLoop (h : SameWalk s s') (n : Nat) :
    (∃ t t', dwalkLoop n s = .ok t ∧ dwalkLoop n s' = .ok t' ∧ SameOut t t') ∨
    ∃ f t t', dwalkLoop n s = .raised f t ∧ dwalkLoop n s' = .raised f t' := by
  induction n generalizing s s' with
  | zero => exact .inl ⟨s, s', rfl, rfl, h.out⟩
  | succ n ih =>
    by_cases hlt : s.emitted < s.orig
    · have hlt' : s'.emitted < s'.orig := by rwa [h.emitted, h.orig]
      rw [dwalkLoop_succ_of_lt hlt, dwalkLoop_succ_of_lt hlt']
      obtain ⟨t, t', hturn, hturn', hsame⟩ | ⟨f, t, t', hturn, hturn'⟩ := h.walkTurn hlt <;> rw [hturn, hturn']
      · exact ih hsame
      · exact .inr ⟨f, t, t', rfl, rfl⟩
    · have hlt' : ¬ s'.emitted < s'.orig := by rwa [h.emitted, h.orig]
      exact .inl ⟨s, s', dwalkLoop_succ_of_not_lt hlt, dwalkLoop_succ_of_not_lt hlt', h.out⟩

/-- The same input, read from the same place, has the same bits ahead. -/
theorem SameInput.bitsAhead (h : SameInput s s') (hpos : s'.brPos = s.brPos) (hcur : s'.brCur = s.brCur) : s'.bitsAhead = s.bitsAhead := by
  have hread : s'.readInBytes s.brPos.toNat (s.inLen.toNat - s.brPos.toNat) = s.readInBytes s.brPos.toNat (s.inLen.toNat - s.brPos.toNat) := by
    by_cases hle : s.brPos.toNat ≤ s.inLen.toNat
    · exact h.readInBytes (by omega)
    · rw [Nat.sub_eq_zero_of_le (by omega)]
      rfl
  rw [State.bitsAhead, hpos, hcur, h.inLen, hread, State.bitsAhead]

end

/-! ### Behind CGEN -/

section
variable {s s' u u' v v' : State} {op : Bool} {T : HTree}

theorem exec_dwalk_of_raised {t : State} {f : Failure} (hfits : s.inputFits = true)
    (h : dwalkLoop (s.bitsLeft + 1) { s with walkCur := s.root } = .raised f t) : exec .dwalk s = .next (t.failureExit f) := by
  rw [exec_dwalk hfits, h]
  rfl

/-- Where DWALK begins, both walks stand at the root of the same tree. -/
theorem Coded.sameWalk (hinput : SameInput v v') (h : Coded s op u v T) (h' : Coded s' op u' v' T) (htable : SameTable u u')
    (hroom : v.cfg.outHolds v.orig.toNat = true) :
    SameWalk { v.goto Phase.dwalk with walkCur := v.root } { v'.goto Phase.dwalk with walkCur := v'.root } := by
  have hsame := h.sameTable h' htable
  obtain ⟨l, r, rfl⟩ := h.hasTree.rootIsFork
  refine ⟨⟨h'.before.outLen.trans h.before.outLen.symm, fun a ha => ?_⟩, hinput.cfg, ?_, hsame.orig,
    h'.before.emitted.trans h.before.emitted.symm, ⟨l, r, h.hasTree.held, h'.hasTree.held⟩, ⟨l, r, h.hasTree.held, h'.hasTree.held⟩, ?_⟩
  · exact absurd (ha.trans_eq h.before.outLen) (Nat.not_lt_zero a)
  · exact (bitsAhead_of_eq (u := v') rfl).trans ((hinput.bitsAhead hsame.brPos hsame.brCur).trans (bitsAhead_of_eq (u := v) rfl).symm)
  · change v.cfg.outHolds (v.outLen + (v.orig.toNat - v.emitted.toNat)) = true
    exact outHolds_mono (by rw [h.before.outLen]; omega) hroom

/-- DWALK ends both runs (rules R168, R214). -/
theorem Coded.endTogether_dwalk (hs : SameStart s s') (hfits : s.inputFits = true) (h : Coded s true u v T) (h' : Coded s' true u' v' T)
    (htable : SameTable u u') (hroom : v.cfg.outHolds v.orig.toNat = true) :
    EndTogether 1 (v.goto Phase.dwalk) (v'.goto Phase.dwalk) := by
  have hsame := h.sameTable h' htable
  have hinput : SameInput v v' := hs.toSameInput.of_frames h.before.input h'.before.input
  have hperf := (h.before.goto Phase.dwalk).performs hs.host (i := .dwalk) rfl
  have hperf' := (h'.before.goto Phase.dwalk).performs hs.host' (i := .dwalk) rfl
  have hv : (v.goto Phase.dwalk).inputFits = true := h.before.inputFits.trans hfits
  have hv' : (v'.goto Phase.dwalk).inputFits = true := hinput.inputFits.trans hv
  have hleft : (v'.goto Phase.dwalk).bitsLeft = (v.goto Phase.dwalk).bitsLeft := by
    simp only [State.bitsLeft, goto_inLen, goto_brPos, goto_brCur, hinput.inLen, hsame.brPos, hsame.brCur]
  obtain ⟨t, t', hloop, hloop', hout⟩ | ⟨f, t, t', hloop, hloop'⟩ :=
    (h.sameWalk hinput h' htable hroom).dwalkLoop ((v.goto Phase.dwalk).bitsLeft + 1)
  · exact .of_exec hperf hperf' (exec_dwalk_of_ok hv hloop) (exec_dwalk_of_ok hv' (hleft ▸ hloop'))
      (.ended (.success t t' hout.output_successExit))
  · exact .of_failure hperf hperf' (exec_dwalk_of_raised hv hloop) (exec_dwalk_of_raised hv' (hleft ▸ hloop'))

/-- CENC, PACK and FLUSH end both runs, with the same container (rules R212, R218). -/
theorem Coded.endTogether_container (hs : SameStart s s') (hfits : s.inputFits = true) (h : Coded s false u v T)
    (h' : Coded s' false u' v' T) (htable : SameTable u u') (htally : u.Tallies s.input)
    (hroom : v.cfg.outHolds v.containerLen = true) :
    EndTogether 3 (v.goto Phase.cenc) (v'.goto Phase.cenc) := by
  have hinput : SameInput v v' := hs.toSameInput.of_frames h.before.input h'.before.input
  have hvtally := h.tallies htally
  have hvtally' := (h.sameTable h' htable).tallies hvtally
  have hcencNext := h.before.goto Phase.cenc
  have hcencNext' := h'.before.goto Phase.cenc
  obtain ⟨p, q, x, tail, hcenc, hp, hpack, hq, hflush, hx⟩ := exists_container_steps hs.host hfits hcencNext rfl (hvtally.goto _)
    hcencNext.input.input_eq hroom
  obtain ⟨p', q', x', tail', hcenc', hp', hpack', hq', hflush', hx'⟩ := exists_container_steps hs.host' (hs.toSameInput.inputFits.trans hfits)
    hcencNext' rfl (hvtally'.goto _) (hcencNext'.input.input_eq.trans hs.input) (by
      change v'.cfg.outHolds v'.containerLen = true
      rw [hinput.cfg, h.containerLen_eq h' htable, hroom])
  have hcodes : s.input.flatMap v'.codeBitsOf = s.input.flatMap v.codeBitsOf := List.flatMap_congr fun a ha =>
    h.codeBitsOf_eq h' htable a (mem_keys.2 ((htally.isKey_iff a).2 ha))
  obtain ⟨pad, hpad, hstream⟩ := hx.stream
  obtain ⟨pad', hpad', hstream'⟩ := hx'.stream
  have hout : x'.successExit.output = x.successExit.output := by
    rw [hx.output, hx'.output, eq_of_streamOf_pad hpad' hpad (hstream'.trans (congrArg (· ++ _) hcodes)) hstream]
  exact .of_exec (hcencNext.performs hs.host rfl) (hcencNext'.performs hs.host' rfl) hcenc hcenc'
    (.of_exec hp hp' hpack hpack' (.of_exec hq hq' hflush hflush' (.ended (.success x x' hout))))

end

/-! ### From TSEED to the end -/

section
variable {s s' u u' : State} {op : Bool}

/-- The size check behind CGEN fails in both runs or in neither, and both end at most three steps later (rules R213, R216). -/
theorem Coded.endTogether {v v' t t' : State} {T : HTree} (hs : SameStart s s') (hfits : s.inputFits = true)
    (h : Coded s op u v T) (h' : Coded s' op u' v' T) (htable : SameTable u u') (htally : op = false → u.Tallies s.input)
    (ht : t.Performs .cgen) (ht' : t'.Performs .cgen) (hexec : exec .cgen t = (afterCodes v).outcome) (hexec' : exec .cgen t' = (afterCodes v').outcome) :
    ∃ n ≤ 4, EndTogether n t t' := by
  have hcfg := (hs.toSameInput.of_frames h.before.input h'.before.input).cfg
  rw [outcome_afterCodes, h.before.ctrlOp] at hexec
  rw [outcome_afterCodes, h'.before.ctrlOp, hcfg, (h.sameTable h' htable).orig, h.containerLen_eq h' htable] at hexec'
  cases op with
  | true =>
    rw [if_pos rfl] at hexec hexec'
    by_cases hroom : v.cfg.outHolds v.orig.toNat = true
    · rw [if_pos hroom] at hexec hexec'
      exact ⟨2, by decide, .of_exec ht ht' hexec hexec' (h.endTogether_dwalk hs hfits h' htable hroom)⟩
    · rw [if_neg hroom] at hexec hexec'
      exact ⟨1, by decide, .of_failure ht ht' hexec hexec'⟩
  | false =>
    rw [if_neg (by decide)] at hexec hexec'
    by_cases hroom : v.cfg.outHolds v.containerLen = true
    · rw [if_pos hroom] at hexec hexec'
      exact ⟨4, le_rfl, .of_exec ht ht' hexec hexec' (h.endTogether_container hs hfits h' htable (htally rfl) hroom)⟩
    · rw [if_neg hroom] at hexec hexec'
      exact ⟨1, by decide, .of_failure ht ht' hexec hexec'⟩

/-- With the same table both runs end together: at once if there is no key, else after a step for each key and at most four more. -/
theorem Seeded.endTogether (hs : SameStart s s') (hfits : s.inputFits = true) (hu : Seeded s op u) (hu' : Seeded s' op u')
    (htable : SameTable u u') (htally : op = false → u.Tallies s.input) :
    ∃ n ≤ 260, EndTogether n u u' := by
  by_cases hne : u.keys = []
  · have hm : u.m = 0 := BitVec.eq_of_toNat_eq (hu.keyCount.trans (congrArg List.length hne))
    exact ⟨1, by decide, .of_failure hu.performs hu'.performs (tseedRefusesEmptyTable u hm) (tseedRefusesEmptyTable u' (htable.m.trans hm))⟩
  · obtain ⟨t, t', T, hrun, hrun', ht, ht'⟩ := exists_same_tree hu.toAtTseed hu'.toAtTseed hu.keyCount htable hne
    obtain ⟨hperf, v, hexec, hv⟩ := ht.exec_cgen hu.before hs.host
    obtain ⟨hperf', v', hexec', hv'⟩ := ht'.exec_cgen hu'.before hs.host'
    obtain ⟨n, hn, hend⟩ := hv.endTogether hs hfits hv' htable htally hperf hperf' hexec hexec'
    have hle := length_keys_le u
    exact ⟨u.keys.length + n, by omega, .of_run hu.host hrun hrun' hperf.busy hend⟩

end

/-! ### From the START to the end -/

section
variable {s s' : State}

/-- COMPRESS behind INIT, with an input that is not empty. -/
theorem endTogether_compress (hs : SameStart s s') (hfits : s.inputFits = true) :
    ∃ n ≤ 261, EndTogether n (s.begun false Phase.fcount) (s'.begun false Phase.fcount) := by
  obtain ⟨u, hexec, hu, htally, horig, hpos, hcur⟩ := exists_exec_fcount hs.rest hs.host hfits
  obtain ⟨u', hexec', hu', htally', horig', hpos', hcur'⟩ := exists_exec_fcount hs.rest' hs.host' (hs.toSameInput.inputFits.trans hfits)
  obtain ⟨n, hn, hend⟩ := hu.endTogether hs hfits hu'
    (.of_tallies htally (hs.input ▸ htally') (horig'.trans horig.symm) (hpos'.trans hpos.symm) (hcur'.trans hcur.symm)) fun _ => htally
  have hperf := (begun_beforeOutput hs.rest false Phase.fcount).performs hs.host rfl
  have hperf' := (begun_beforeOutput hs.rest' false Phase.fcount).performs hs.host' rfl
  exact ⟨n + 1, by omega, .of_exec hperf hperf' hexec hexec' hend⟩

/-- DECOMPRESS behind INIT. -/
theorem endTogether_decompress (hs : SameStart s s') (hfits : s.inputFits = true) :
    ∃ n ≤ 261, EndTogether n (s.begun true Phase.cparse) (s'.begun true Phase.cparse) := by
  have hbegun := begun_beforeOutput hs.rest true Phase.cparse
  have hbegun' := begun_beforeOutput hs.rest' true Phase.cparse
  have hperf := hbegun.performs hs.host (i := .cparse) rfl
  have hperf' := hbegun'.performs hs.host' (i := .cparse) rfl
  have hfits1 := hbegun.inputFits.trans hfits
  have hfits1' := hbegun'.inputFits.trans (hs.toSameInput.inputFits.trans hfits)
  obtain ⟨f, u, u', hop, hop'⟩ | ⟨w, w', hop, hop', hsame, hcount, hcount'⟩ := (hs.toSameInput.of_frames hbegun.input hbegun'.input).cparseOp
    (begun_tableClear s true _) (begun_tableClear s' true _) rfl rfl
  · exact ⟨1, by decide, .of_failure hperf hperf' (exec_cparse_of_raised hfits1 hop) (exec_cparse_of_raised hfits1' hop')⟩
  · have hw := begun_seeded hs.rest hs.host ((cparseOp_frame _).of_ok hop) hcount.toNat_m
    have hw' := begun_seeded hs.rest' hs.host' ((cparseOp_frame _).of_ok hop') hcount'.toNat_m
    obtain ⟨n, hn, hend⟩ := hw.endTogether hs hfits hw' (hsame.goto _) nofun
    exact ⟨n + 1, by omega, .of_exec hperf hperf' (exec_cparse_of_ok hfits1 hop) (exec_cparse_of_ok hfits1' hop') hend⟩

/-- Two runs of one command on the same input end together, at most 262 steps after the START (rules R221, R222). -/
theorem endTogether_start (hs : SameStart s s') (op : Bool) : ∃ n ≤ 262, EndTogether n (s.start op) (s'.start op) := by
  have hperf := start_performs hs.rest hs.host op
  have hperf' := start_performs hs.rest' hs.host' op
  have hinit := exec_init_start hs.rest op
  have hinit' := exec_init_start hs.rest' op
  rw [hs.toSameInput.inputFits, hs.inLen] at hinit'
  cases hfits : s.inputFits with
  | false =>
    rw [if_pos hfits] at hinit hinit'
    exact ⟨1, by decide, .of_failure hperf hperf' hinit hinit'⟩
  | true =>
    rw [if_neg (by rw [hfits]; decide)] at hinit hinit'
    cases op with
    | true =>
      rw [if_pos rfl] at hinit hinit'
      obtain ⟨n, hn, hend⟩ := endTogether_decompress hs hfits
      exact ⟨n + 1, by omega, .of_exec hperf hperf' hinit hinit' hend⟩
    | false =>
      rw [if_neg (by decide)] at hinit hinit'
      by_cases hlen : s.inLen = 0
      · rw [if_pos hlen] at hinit hinit'
        exact ⟨1, by decide, .of_failure hperf hperf' hinit hinit'⟩
      · rw [if_neg hlen] at hinit hinit'
        obtain ⟨n, hn, hend⟩ := endTogether_compress hs hfits
        exact ⟨n + 1, by omega, .of_exec hperf hperf' hinit hinit' hend⟩

end

/-! ### The obligations -/

/-- Settles O48: a run ends together with itself (`endTogether_start`), by one of the two exits. -/
theorem everyRunEnds : Obligations.EveryRunEnds := by
  intro s op hrest hhost
  obtain ⟨n, hn, hend⟩ := endTogether_start ⟨⟨rfl, rfl, rfl⟩, hrest, hrest, hhost, hhost⟩ op
  obtain ⟨t, t', hrun, -, hsame, -⟩ := hend.exists_run
  refine ⟨n, hn, t, hrun, hsame.done.1, ?_⟩
  cases hsame with
  | failure f u u' => exact .inr ⟨rfl, nofun, rfl⟩
  | success u u' h => exact .inl ⟨rfl, rfl⟩

/-- What the host can read of two ends alike (rule R221). -/
theorem SameEnd.result {t t' : State} (h : SameEnd t t') : t'.ok = t.ok ∧ t'.err = t.err ∧ t'.outLen = t.outLen ∧ t'.output = t.output := by
  cases h with
  | failure f u u' => exact ⟨rfl, rfl, rfl, rfl⟩
  | success u u' h => exact ⟨rfl, rfl, by rw [← length_output, h, length_output], h⟩

/-- Settles O52: both runs end together after some number of steps (`endTogether_start`), the first is not in DONE before, and in DONE both
rest. -/
theorem resultDependsOnlyOnInput : Obligations.ResultDependsOnlyOnInput := by
  intro s s' t op n hrest hrest' hhost hhost' hcfg hlen hinput hrun hdone
  obtain ⟨k, -, hend⟩ := endTogether_start ⟨⟨hcfg, hlen, hinput⟩, hrest, hrest', hhost, hhost'⟩ op
  obtain ⟨x, x', hx, hx', hsame, hfirst⟩ := hend.exists_run
  obtain ⟨hxdone, hxdone'⟩ := hsame.done
  obtain ⟨m, rfl⟩ := Nat.exists_eq_add_of_le (hfirst n t hrun hdone)
  rw [run_add hx, run_of_done hxdone (host_of_run ((start_host s op).trans hhost) hx)] at hrun
  obtain rfl := Host.Outcome.next.inj hrun
  have hrun' := (run_add (n := m) hx').trans (run_of_done hxdone' (host_of_run ((start_host s' op).trans hhost') hx') m)
  exact ⟨x', hrun', hxdone', hsame.result⟩

end Sys2Proof.Machine
end

section
/-! PROOFS of the family 60_exceptions.md, first part: the failure exit (O19), the refusals at once (O49), the operations that never fail (O46),
and DWALK on a bad stream (O40). -/

namespace Sys2Proof.Machine

/-! ### The failure exit (rule R240) -/

/-- In DONE a read of `STATUS` sees `PHASE` itself (rule R272). -/
theorem phaseSeen_failureExit (u : State) (f : Failure) : (u.failureExit f).phaseSeen = Phase.done := if_neg nofun

/-- `PHASE` = 15, `ERR` = the failure's number, `OK` = 0, `STATE` = DONE (rules R23, R230). -/
theorem statusWord_failureExit (u : State) (f : Failure) :
    ((u.failureExit f).statusWord (u.failureExit f).phaseSeen).toNat = 0xF02 + 16 * f.code.toNat := by
  have hstate : RunState.done.bits.toNat = 2 := rfl
  have hphase : Phase.done.toNat = 15 := rfl
  rw [phaseSeen_failureExit, statusWord_toNat, failureExit_state, failureExit_ok, failureExit_err, errBits, hstate, hphase, Bool.toNat_false]
  omega

/-- Settles O19: the outcome of a `raise` is the failure exit, and `statusWord_failureExit` gives each failure's word. -/
theorem raiseTakesFailureExit : Obligations.RaiseTakesFailureExit := by
  intro f u
  refine ⟨u.failureExit f, rfl, rfl, ?_, ?_, ?_, ?_, ?_, ?_, ?_⟩ <;>
  · rintro rfl
    exact BitVec.eq_of_toNat_eq (statusWord_failureExit u _)

/-! ### The refusals at once (rules R231, R237) -/

/-- An empty input fits every capacity (rule R9). -/
theorem inputFits_of_empty {s : State} (h : s.inLen = 0) : s.inputFits = true := by
  rw [State.inputFits, Config.inHolds, h]
  split <;> exact decide_eq_true (Nat.zero_le _)

theorem State.Performs.run_one {s t : State} {i : Instr} (h : s.Performs i) (hexec : exec i s = .next t) : run 1 s = .next t :=
  (run_succ_of_next (h.step.trans hexec)).trans (run_zero t)

/-- A command whose input does not fit IN fails in INIT. -/
theorem run_one_of_not_fits {s : State} (hrest : s.state ≠ .busy) (hhost : s.host = []) (hfits : s.inputFits = false) (op : Bool) :
    run 1 (s.start op) = .next ((initWork (s.start op)).failureExit .capacityExceeded) := by
  have hexec := exec_init_start hrest op
  rw [if_pos hfits] at hexec
  exact (start_performs hrest hhost op).run_one hexec

/-- COMPRESS of an empty input fails behind INIT, in INIT's step. -/
theorem run_one_of_empty {s : State} (hrest : s.state ≠ .busy) (hhost : s.host = []) (hlen : s.inLen = 0) :
    run 1 (s.start false) = .next ((initWork (s.start false)).failureExit .inputEmpty) := by
  have hexec := exec_init_start hrest false
  rw [inputFits_of_empty hlen, if_neg (by decide), if_neg (by decide), if_pos hlen] at hexec
  exact (start_performs hrest hhost false).run_one hexec

/-- Settles O49: both refusals are the failure exit of INIT's step. -/
theorem refusalsAtOnce : Obligations.RefusalsAtOnce :=
  ⟨fun _ hrest hhost hlen => ⟨_, run_one_of_empty hrest hhost hlen, rfl, rfl, rfl, rfl⟩,
   fun _ op hrest hhost hfits => ⟨_, run_one_of_not_fits hrest hhost hfits op, rfl, rfl, rfl, rfl⟩⟩

/-! ### What never fails (rule R238) -/

/-- A part of an operation that goes on with `ERR` = 0 or stops the model; it raises nothing. -/
def Flow.Quiet : Flow → Prop
  | .ok t => t.err = none
  | .raised _ _ => False
  | .stopped _ => True

theorem Flow.Quiet.err_of_outcome {a : Flow} {t : State} (ha : a.Quiet) (h : a.outcome = .next t) : t.err = none := by
  obtain rfl | ⟨f, u, rfl, -⟩ := outcome_eq_next.1 h
  · exact ha
  · exact ha.elim

/-! Parts of an operation, one after the other. -/

theorem quiet_andThen {a : Flow} {b : State → Flow} (ha : a.Quiet) (hb : ∀ t, t.err = none → (b t).Quiet) : (a.andThen b).Quiet := by
  cases a with
  | ok t => exact hb t ha
  | raised f t => exact ha.elim
  | stopped r => trivial

section
variable {s : State} {op : State → Flow}

theorem quiet_each {α : Type} {body : α → State → Flow} (hbody : ∀ x u, u.err = none → (body x u).Quiet) (xs : List α)
    (h : s.err = none) : (Flow.each body xs s).Quiet := by
  induction xs generalizing s with
  | nil => exact h
  | cons x xs ih => exact quiet_andThen (hbody x s h) fun _ ht => ih ht

theorem quiet_nested (hop : ∀ u, u.err = none → (op u).Quiet) (inner outer : PhaseCode) (h : s.err = none) :
    (nested inner outer op s).Quiet :=
  quiet_andThen (hop _ h) fun _ ht => ht

theorem quiet_withInput (h : (op s).Quiet) : (withInput op s).Quiet := by
  unfold withInput
  split
  · exact h
  · trivial

/-! The shared operations. -/

theorem append_quiet (h : s.err = none) (bs : List Byte) : (s.append bs).Quiet := by
  unfold State.append
  split
  · exact h
  · trivial

theorem addNode_quiet (h : s.err = none) (n : Node) : (s.addNode n).Quiet := by
  unfold State.addNode
  split
  · exact h
  · trivial

/-! The eight operations. -/

theorem fcountOp_quiet (h : s.err = none) : (fcountOp s).Quiet := by
  have hframe : TableFrame { s with inPos := 0 } (countLoop s.inLen.toNat { s with inPos := 0 }) := countLoop_frame _ _
  exact (congrArg (·.err) hframe).trans h

theorem tmergeOp_quiet (h : s.err = none) : (tmergeOp s).Quiet := by
  unfold tmergeOp
  split
  · split
    · trivial
    · split
      · trivial
      · next b pq2 _ => exact addNode_quiet (s := { s with pq := pq2 }) h _
  · trivial

theorem cencOp_quiet (h : s.err = none) : (cencOp s).Quiet := append_quiet (s := { s with orig := s.inLen }) h _

theorem wbitOp_quiet (h : s.err = none) : (wbitOp s).Quiet := by
  unfold wbitOp
  dsimp only
  split
  · exact quiet_andThen (append_quiet h _) fun _ ht => ht
  · exact h

theorem putcodeOp_quiet (h : s.err = none) : (putcodeOp s).Quiet := by
  refine quiet_each (fun k u hu => ?_) _ h
  exact quiet_nested (s := { u with opBit := _ }) (fun _ => wbitOp_quiet) _ _ hu

theorem packByte_quiet (h : s.err = none) : (packByte s).Quiet :=
  quiet_andThen (quiet_nested (s := { s with opSym := _ }) (fun _ => putcodeOp_quiet) _ _ h) fun _ ht => ht

theorem packLoop_quiet (n : Nat) (h : s.err = none) : (packLoop n s).Quiet := by
  induction n generalizing s with
  | zero => exact h
  | succ n ih =>
    unfold packLoop
    split
    · exact quiet_andThen (packByte_quiet h) fun _ ht => ih ht
    · exact h

theorem packOp_quiet (h : s.err = none) : (packOp s).Quiet := packLoop_quiet _ (s := { s with inPos := 0 }) h

theorem flushOp_quiet (h : s.err = none) : (flushOp s).Quiet := by
  unfold flushOp
  split
  · exact h
  · exact quiet_andThen (append_quiet h _) fun _ ht => ht

theorem rbitOp_quiet (h : s.err = none) : (rbitOp s).Quiet := by
  unfold rbitOp
  split
  · exact h
  · split <;> exact h

/-! What the sequencer does behind them. -/

theorem afterQueue_quiet (h : s.err = none) : (afterQueue s).Quiet := by
  obtain ⟨-, hq⟩ | ⟨r, -, hq⟩ | ⟨-, hq⟩ := afterQueue_cases s <;> rw [hq]
  · trivial
  · exact h
  · exact h

end

/-- Settles O46: each of the eight is quiet, and so is what the sequencer does behind it. -/
theorem quietOperationsNeverFail : Obligations.QuietOperationsNeverFail := by
  rintro i s t (rfl | rfl | rfl | rfl | rfl | rfl | rfl | rfl) h hexec
  · exact (quiet_andThen (b := afterTable) (quiet_withInput (fcountOp_quiet h)) fun _ ht => ht).err_of_outcome hexec
  · exact (quiet_andThen (tmergeOp_quiet h) fun _ => afterQueue_quiet).err_of_outcome hexec
  · exact (quiet_andThen (b := afterHeader) (cencOp_quiet h) fun _ ht => ht).err_of_outcome hexec
  · exact (quiet_andThen (b := afterPack) (quiet_withInput (packOp_quiet h)) fun _ ht => ht).err_of_outcome hexec
  · exact (quiet_nested (fun _ => putcodeOp_quiet) Phase.putcode Phase.pack h).err_of_outcome hexec
  · exact (quiet_nested (fun _ => wbitOp_quiet) Phase.wbit Phase.putcode h).err_of_outcome hexec
  · exact (quiet_andThen (b := afterOutput) (flushOp_quiet h) fun _ _ => rfl).err_of_outcome hexec
  · exact (quiet_withInput (quiet_nested (fun _ => rbitOp_quiet) Phase.rbit Phase.dstep h)).err_of_outcome hexec

/-! ### A bad stream (rules R234, R236) -/

theorem atRoot_hasTree {s : State} {T : HTree} (h : s.HasTree T) : ({ s with walkCur := s.root } : State).HasTree T :=
  ⟨h.held, h.rootIsFork, h.distinct, h.bounded⟩

theorem atRoot_bitsAhead (s : State) : ({ s with walkCur := s.root } : State).bitsAhead = s.bitsAhead := bitsAhead_of_eq rfl

/-- Behind fewer than `ORIG` symbols DWALK goes on. -/
theorem Decoded.emitted_lt {s t : State} {bits : List Bool} {syms : List Byte} (h : Decoded s bits syms t)
    (hcount : s.emitted.toNat + syms.length < s.orig.toNat) : t.emitted < t.orig := by
  have horig : t.orig = s.orig := congrArg (·.orig) h.frame
  rw [BitVec.lt_def, h.emitted_toNat hcount.le, horig]
  exact hcount

theorem Decoded.holds_walkCur {s t : State} {bits : List Bool} {syms : List Byte} {T : HTree} (h : Decoded s bits syms t)
    (hT : s.HasTree T) : Holds t.node t.walkCur T := by
  have hback : t.walkCur = t.root := (congrArg (·.walkCur) h.frame).trans (congrArg (·.root) h.frame).symm
  exact hback ▸ (h.hasTree hT).held

/-- Where the bits ahead are the codes of fewer than `ORIG` symbols and then a bit that leads from the root to the placeholder, DWALK's loop
fails with PlaceholderReached. -/
theorem dwalkLoop_of_codes_hole {xs : List (Byte × List Bool)} {b : Bool} {rest : List Bool} {s : State} {l r : HTree} {n : Nat}
    (hT : s.HasTree (.fork l r)) (hcur : s.walkCur = s.root) (hxs : ∀ e ∈ xs, e ∈ (HTree.fork l r).codes) (hhole : branch l r b = .hole)
    (hbits : s.bitsAhead = xs.flatMap Prod.snd ++ b :: rest) (hcount : s.emitted.toNat + xs.length < s.orig.toNat)
    (hroom : s.cfg.outHolds (s.outLen + xs.length) = true) (hn : s.bitsLeft < n) :
    ∃ u, dwalkLoop n s = .raised .placeholderReached u := by
  obtain ⟨t, hwalk, hdecoded⟩ := exists_decoded_of_codes xs (b :: rest) hT hcur hxs hbits hcount.le hroom
  have hrest : t.bitsAhead = b :: rest := List.append_cancel_left (hdecoded.bitsAhead.symm.trans hbits)
  have hbit : t.exhausted = false := by
    by_contra hend
    rw [bitsAhead_of_exhausted (Bool.eq_true_of_not_eq_false hend)] at hrest
    cases hrest
  have hnext : t.streamBit = b := (List.cons.inj ((bitsAhead_of_not_exhausted hbit).symm.trans hrest)).1
  obtain ⟨m, hm, heq⟩ := hwalk n hn
  exact ⟨_, heq.trans (dwalkLoop_of_raised hm (hdecoded.emitted_lt (by rwa [List.length_map]))
    (walkTurn_of_hole hbit (hdecoded.holds_walkCur hT) (hnext ▸ hhole)))⟩

/-- Settles O40: DWALK's loop fails where the bits break off inside a code (`dwalkLoop_of_codes_cut`), and where the bit 1 leads to the
placeholder behind symbols whose codes are a bit 0 each (`dwalkLoop_of_codes_hole`). -/
theorem dwalkFailsOnBadStream : Obligations.DwalkFailsOnBadStream := by
  refine ⟨?truncated, ?placeholder⟩
  case truncated =>
    rintro s T xs r hT hfits hemitted hcount hroom hxs hbits ⟨e, he, hpre, hne⟩
    obtain ⟨u, hloop⟩ := dwalkLoop_of_codes_cut (atRoot_hasTree hT) rfl hxs he ((atRoot_bitsAhead s).trans hbits) hpre hne
      (by simpa [hemitted] using hcount) hroom (Nat.lt_succ_self _)
    exact ⟨_, exec_dwalk_of_raised hfits hloop, rfl, rfl, rfl, rfl⟩
  case placeholder =>
    rintro s x k hT hfits hemitted hcount hroom ⟨rest, hbits⟩
    have hcodes : (List.replicate k (x, [false])).flatMap Prod.snd = List.replicate k false := by
      rw [List.flatMap_replicate, List.flatten_replicate_singleton]
    obtain ⟨u, hloop⟩ := dwalkLoop_of_codes_hole (xs := List.replicate k (x, [false])) (b := true) (rest := rest) (n := s.bitsLeft + 1)
      (atRoot_hasTree hT) rfl (fun e he => List.eq_of_mem_replicate he ▸ List.mem_singleton.2 rfl) rfl
      ((atRoot_bitsAhead s).trans (by rw [← hbits, hcodes, List.append_assoc]; rfl))
      (by simpa [hemitted] using hcount) (by simpa using hroom) (Nat.lt_succ_self _)
    exact ⟨_, exec_dwalk_of_raised hfits hloop, rfl, rfl, rfl, rfl⟩

end Sys2Proof.Machine
end

section
/-! PROOFS of the family 60_exceptions.md, second part: PlaceholderReached ends only a DECOMPRESS run, and only one whose table has exactly one
key (O56). On a tree without placeholder DWALK fails with BitstreamTruncated alone. -/

namespace Sys2Proof.Machine

/-! ### COMPRESS (rules R231, R237, R213) -/

/-- A COMPRESS run does not end with PlaceholderReached: it is refused at once, or O50 says how it ends. -/
theorem compress_end_ne_placeholder {s t : State} {n : Nat} (hrest : s.state ≠ .busy) (hhost : s.host = [])
    (hrun : run n (s.start false) = .next t) (hdone : t.state = .done) : t.err ≠ some .placeholderReached := by
  have hend : ∃ t' : State, (s.start false).RunsTo t' ∧ t'.state = .done ∧ t'.err ≠ some .placeholderReached := by
    by_cases hlen : s.inLen = 0
    · exact ⟨_, ⟨1, run_one_of_empty hrest hhost hlen⟩, rfl, nofun⟩
    cases hfits : s.inputFits with
    | false => exact ⟨_, ⟨1, run_one_of_not_fits hrest hhost hfits false⟩, rfl, nofun⟩
    | true =>
      obtain ⟨k, t', T, total, hrun', hdone', -, -, -, -, hroom, hnoRoom⟩ := compressSucceedsWithRoom s hrest hhost hlen hfits
      refine ⟨t', ⟨k, hrun'⟩, hdone', ?_⟩
      cases hholds : s.cfg.outHolds total with
      | true => rw [(hroom hholds).2.1]; nofun
      | false => rw [(hnoRoom hholds).2.1]; nofun
  obtain ⟨t', hrun', hdone', hne⟩ := hend
  rwa [eq_of_runsTo_done ((start_host s false).trans hhost) ⟨n, hrun⟩ hdone hrun' hdone']

/-! ### DWALK on a tree without placeholder (rules R129, R169) -/

/-- The walk stands on a fork of a tree whose root is a fork, no placeholder is below either, and OUT has room for the symbols still to
come. -/
structure State.OnFullTree (s : State) : Prop where
  root : ∃ l r, Holds s.node s.root (.fork l r) ∧ (HTree.fork l r).hasHole = false
  cur : ∃ l r, Holds s.node s.walkCur (.fork l r) ∧ (HTree.fork l r).hasHole = false
  room : s.cfg.outHolds (s.outLen + (s.orig.toNat - s.emitted.toNat)) = true

theorem hasHole_branch {l r : HTree} (h : (HTree.fork l r).hasHole = false) (b : Bool) : (branch l r b).hasHole = false := by
  obtain ⟨hl, hr⟩ := Bool.or_eq_false_iff.1 h
  cases b with
  | false => exact hl
  | true => exact hr

/-- A turn fails only where the bits run out. -/
theorem State.OnFullTree.walkTurn {s : State} (h : s.OnFullTree) (hlt : s.emitted < s.orig) :
    (∃ t, walkTurn s = .ok t ∧ t.OnFullTree) ∨ ∃ t, walkTurn s = .raised .bitstreamTruncated t := by
  have hlt' := BitVec.lt_def.1 hlt
  cases hbit : s.exhausted with
  | true => exact .inr ⟨_, walkTurn_of_exhausted hbit⟩
  | false =>
    obtain ⟨l, r, hcur, hfull⟩ := h.cur
    have hfull' := hasHole_branch hfull s.streamBit
    cases hbranch : branch l r s.streamBit with
    | leaf sym =>
      have hroom : s.cfg.outHolds (s.outLen + 1) = true := outHolds_mono (by omega) h.room
      refine .inl ⟨_, walkTurn_of_leaf hbit hcur hbranch hroom, h.root, h.root, ?_⟩
      change s.cfg.outHolds (s.outLen + 1 + (s.orig.toNat - (s.emitted + 1).toNat)) = true
      rw [toNat_emitted_succ hlt]
      exact outHolds_mono (by omega) h.room
    | hole => rw [hbranch] at hfull'; cases hfull'
    | fork l' r' =>
      obtain ⟨n, hheld, hturn⟩ := walkTurn_of_fork hbit hcur hbranch
      exact .inl ⟨_, hturn, h.root, ⟨l', r', hheld, hbranch ▸ hfull'⟩, h.room⟩

theorem State.OnFullTree.dwalkLoop {s : State} (h : s.OnFullTree) (n : Nat) :
    (∃ t, dwalkLoop n s = .ok t) ∨ ∃ t, dwalkLoop n s = .raised .bitstreamTruncated t := by
  induction n generalizing s with
  | zero => exact .inl ⟨s, rfl⟩
  | succ n ih =>
    by_cases hlt : s.emitted < s.orig
    · rw [dwalkLoop_succ_of_lt hlt]
      obtain ⟨t, hturn, ht⟩ | ⟨t, hturn⟩ := h.walkTurn hlt
      · rw [hturn, andThen_ok]
        exact ih ht
      · exact .inr ⟨t, by rw [hturn, andThen_raised]⟩
    · exact .inl ⟨s, dwalkLoop_succ_of_not_lt hlt⟩

/-- DWALK on a tree without placeholder, with room for `ORIG` symbols. -/
theorem exec_dwalk_of_full_tree {s : State} {T : HTree} (hfits : s.inputFits = true) (hT : s.HasTree T) (hfull : T.hasHole = false)
    (hroom : s.cfg.outHolds (s.outLen + (s.orig.toNat - s.emitted.toNat)) = true) :
    ∃ t, exec .dwalk s = .next t ∧ t.state = .done ∧ t.err ≠ some .placeholderReached := by
  obtain ⟨l, r, rfl⟩ := hT.rootIsFork
  have hon : ({ s with walkCur := s.root } : State).OnFullTree := ⟨⟨l, r, hT.held, hfull⟩, ⟨l, r, hT.held, hfull⟩, hroom⟩
  obtain ⟨t, hloop⟩ | ⟨t, hloop⟩ := hon.dwalkLoop (s.bitsLeft + 1)
  · exact ⟨_, exec_dwalk_of_ok hfits hloop, rfl, nofun⟩
  · exact ⟨_, exec_dwalk_of_raised hfits hloop, rfl, nofun⟩

/-- DWALK leaves the frequency table alone. -/
theorem exec_dwalk_table {s t : State} (h : exec .dwalk s = .next t) : t.m = s.m ∧ t.keys = s.keys := by
  have hop : (dwalkOp s).Within fun u => u.m = s.m ∧ u.keys = s.keys :=
    (dwalkOp_frame s).mono fun _ hu => ⟨congrArg (·.m) hu, (congrArg State.keys hu :)⟩
  have hall : ((withInput dwalkOp s).andThen afterOutput).Within fun u => u.m = s.m ∧ u.keys = s.keys :=
    within_andThen (within_withInput hop) (fun _ hu => hu) fun _ hu => hu
  obtain hok | ⟨f, u, hraised, rfl⟩ := outcome_eq_next.1 h
  · exact hall.of_ok hok
  · have hu := hall.of_raised hraised
    exact hu

/-! ### DECOMPRESS -/

/-- The run in `s` ends, and with PlaceholderReached only where the table has exactly one key (rule R236). -/
def State.EndsByKeyCount (s : State) : Prop :=
  ∃ t, s.RunsTo t ∧ t.state = .done ∧ (t.err = some .placeholderReached → t.m = 1 ∧ ∃ x, t.keys = [x])

section
variable {s u v : State} {T : HTree}

theorem State.EndsByKeyCount.of_runsTo (h : s.RunsTo u) (hu : u.EndsByKeyCount) : s.EndsByKeyCount :=
  have ⟨t, hrun, ht⟩ := hu
  ⟨t, h.trans hrun, ht⟩

/-- Any other failure. -/
theorem State.EndsByKeyCount.of_failure {f : Failure} (h : s.RunsTo (u.failureExit f)) (hf : f ≠ .placeholderReached) :
    s.EndsByKeyCount :=
  ⟨_, h, rfl, fun herr => absurd (Option.some.inj herr) hf⟩

/-- CPARSE fails, not with PlaceholderReached, or leaves a table whose keys `M` counts (rules R190 to R192). -/
theorem cparseOp_cases (hclear : s.TableClear) :
    (∃ f w, cparseOp s = .raised f w ∧ f ≠ .placeholderReached) ∨ ∃ w, cparseOp s = .ok w ∧ w.CountsKeys := by
  have hhdr : Config.hdrLen = 16 := rfl
  by_cases h4 : s.inLen.toNat < 4
  · exact .inl ⟨_, _, cparseOp_of_lt_four h4, nofun⟩
  cases hmagic : s.magicMatches with
  | false => exact .inl ⟨_, _, cparseOp_of_not_magic (by omega) hmagic, nofun⟩
  | true =>
    by_cases h16 : s.inLen.toNat < 16
    · exact .inl ⟨_, _, cparseOp_of_short_header (by omega) hmagic (by omega), nofun⟩
    by_cases htable : s.inLen.toNat < 16 + 9 * s.memRead 12 4
    · exact .inl ⟨_, _, cparseOp_of_short_table hmagic (by omega) (by rwa [headerRead_tableEnd]), nofun⟩
    · exact .inr ⟨_, cparseOp_of_whole_table hmagic (by omega), (tableRead_countsKeys hclear).withReader _ _⟩

/-- From TSEED the tree of the keys is built; where there are two of them no placeholder stands on it (rule R129). -/
theorem Seeded.exists_treeBuilt {op : Bool} (hu : Seeded s op u) (hne : u.keys ≠ []) :
    ∃ t T, u.RunsTo t ∧ TreeBuilt u t T ∧ (2 ≤ u.keys.length → T.hasHole = false) := by
  obtain ⟨t, T, hrun, ht, hT, hperm, htwo, -, -⟩ := builtTreeCarriesTheKeys u hu.busy hu.host hu.phase hu.nn hu.pq hu.keyCount hne
  exact ⟨t, T, ⟨_, hrun⟩, ⟨by rw [ht], hT, hperm⟩, fun h => (htwo h).1⟩

/-- DWALK in the run, with room for `ORIG` symbols. -/
theorem Coded.endsByKeyCount_dwalk (h : Coded s true u v T) (hhost : s.host = []) (hfits : s.inputFits = true)
    (hroom : v.cfg.outHolds v.orig.toNat = true) (hne : u.keys ≠ []) (hcount : u.m.toNat = u.keys.length)
    (hfull : 2 ≤ u.keys.length → T.hasHole = false) : (v.goto Phase.dwalk).EndsByKeyCount := by
  have hbefore := h.before.goto Phase.dwalk
  have hperf := hbefore.performs hhost (i := .dwalk) rfl
  have hT : (v.goto Phase.dwalk).HasTree T := ⟨h.hasTree.held, h.hasTree.rootIsFork, h.hasTree.distinct, h.hasTree.bounded⟩
  have hroom' : (v.goto Phase.dwalk).cfg.outHolds
      ((v.goto Phase.dwalk).outLen + ((v.goto Phase.dwalk).orig.toNat - (v.goto Phase.dwalk).emitted.toNat)) = true :=
    outHolds_mono (by rw [hbefore.outLen, goto_orig]; omega) hroom
  have hfits' := hbefore.inputFits.trans hfits
  by_cases htwo : 2 ≤ u.keys.length
  · obtain ⟨t, hexec, hdone, herr⟩ := exec_dwalk_of_full_tree hfits' hT (hfull htwo) hroom'
    exact ⟨t, hperf.runsTo hexec, hdone, fun h => absurd h herr⟩
  · obtain ⟨t, hexec, hdone⟩ := dwalkAlwaysEndsTheRun _ T hT hfits' hroom'
    obtain ⟨hm, hkeys⟩ := exec_dwalk_table hexec
    have hpos := List.length_pos_iff.2 hne
    have hone : u.keys.length = 1 := by omega
    have hvm : v.m = u.m := by rw [h.frame]
    refine ⟨t, hperf.runsTo hexec, hdone, fun _ => ⟨hm.trans (hvm.trans (BitVec.eq_of_toNat_eq (hcount.trans hone))), ?_⟩⟩
    obtain ⟨x, hx⟩ := List.length_eq_one_iff.1 hone
    exact ⟨x, hkeys.trans (h.keys.trans hx)⟩

/-- From TSEED on. -/
theorem Seeded.endsByKeyCount (hu : Seeded s true u) (hhost : s.host = []) (hfits : s.inputFits = true) : u.EndsByKeyCount := by
  by_cases hne : u.keys = []
  · have hm : u.m = 0 := BitVec.eq_of_toNat_eq (hu.keyCount.trans (congrArg List.length hne))
    exact .of_failure (hu.performs.runsTo (tseedRefusesEmptyTable u hm)) nofun
  · obtain ⟨t, T, hrun, ht, hfull⟩ := hu.exists_treeBuilt hne
    obtain ⟨hperf, v, hexec, hv⟩ := ht.exec_cgen hu.before hhost
    rw [outcome_afterCodes, if_pos hv.before.ctrlOp] at hexec
    have hcgen := hrun.trans (hperf.runsTo hexec)
    by_cases hroom : v.cfg.outHolds v.orig.toNat = true
    · rw [if_pos hroom] at hcgen
      exact .of_runsTo hcgen (hv.endsByKeyCount_dwalk hhost hfits hroom hne hu.keyCount hfull)
    · rw [if_neg hroom] at hcgen
      exact .of_failure hcgen nofun

/-- From the START on. -/
theorem endsByKeyCount_start (hrest : s.state ≠ .busy) (hhost : s.host = []) : (s.start true).EndsByKeyCount := by
  cases hfits : s.inputFits with
  | false => exact .of_failure ⟨1, run_one_of_not_fits hrest hhost hfits true⟩ nofun
  | true =>
    have hbegun := begun_beforeOutput hrest true Phase.cparse
    have hperf := hbegun.performs hhost (i := .cparse) rfl
    have hfits' := hbegun.inputFits.trans hfits
    have hinit := exec_init_start hrest true
    rw [if_neg (by rw [hfits]; decide), if_pos rfl] at hinit
    refine .of_runsTo ((start_performs hrest hhost true).runsTo hinit) ?_
    obtain ⟨f, w, hop, hf⟩ | ⟨w, hop, hcount⟩ := cparseOp_cases (begun_tableClear s true Phase.cparse)
    · exact .of_failure (hperf.runsTo (exec_cparse_of_raised hfits' hop)) hf
    · have hw := begun_seeded hrest hhost ((cparseOp_frame _).of_ok hop) hcount.toNat_m
      exact .of_runsTo (hperf.runsTo (exec_cparse_of_ok hfits' hop)) (hw.endsByKeyCount hhost hfits)

end

/-- Settles O56: a run has one end. COMPRESS does not end so (`compress_end_ne_placeholder`), and DECOMPRESS only with one key
(`endsByKeyCount_start`). -/
theorem placeholderOnlyWithOneKey : Obligations.PlaceholderOnlyWithOneKey := by
  intro s t op n hrest hhost hrun hdone herr
  cases op with
  | false => exact absurd herr (compress_end_ne_placeholder hrest hhost hrun hdone)
  | true =>
    obtain ⟨t', hrun', hdone', hkeys⟩ := endsByKeyCount_start hrest hhost
    obtain rfl := eq_of_runsTo_done ((start_host s true).trans hhost) ⟨n, hrun⟩ hdone hrun' hdone'
    exact ⟨rfl, hkeys herr⟩

end Sys2Proof.Machine
end

section
/-! PROOFS of the family 70_reset_and_hazards.md: reset (O4, O17), the host's writes and reads (O9, O10, O12 to O15), and the result in DONE
(O16). A due move ends the turn with what `hostMove` gives it; what such a move can change is said once, in `hostMove_frame`. -/

namespace Sys2Proof.Machine

/-! ### A due move -/

section
variable {s : State} {e : HostEvent} {rest : List HostEvent} {m : HostMove}

theorem step_of_due_ended {o : Host.Outcome State Fault Refusal} (h : s.host = e :: rest) (hd : e.due s = true) (hm : e.move = m)
    (hmove : hostMove m { s with host := rest } = .ended o) : step s = o := by
  rw [step_of_due h hd, hm, hmove]

/-- A move that rule R270 allows in the present state. -/
theorem step_of_due_allowed {o : Host.Outcome State Fault Refusal} {allowed : Bool} (h : s.host = e :: rest) (hd : e.due s = true)
    (hm : e.move = m) (hmove : hostMove m { s with host := rest } = .ended (guarded allowed o)) (hallowed : allowed = true) :
    step s = o :=
  (step_of_due_ended h hd hm hmove).trans (if_pos hallowed)

/-- A move that it does not allow (log entry 2). -/
theorem step_of_due_forbidden {o : Host.Outcome State Fault Refusal} {allowed : Bool} (h : s.host = e :: rest) (hd : e.due s = true)
    (hm : e.move = m) (hmove : hostMove m { s with host := rest } = .ended (guarded allowed o)) (hforbidden : allowed = false) :
    step s = .refused .hostOutsideProtocol :=
  (step_of_due_ended h hd hm hmove).trans (if_neg (ne_true_of_eq_false hforbidden))

theorem notBusy_of_busy (h : s.state = .busy) : s.notBusy = false := by simp [State.notBusy, h]

theorem notBusy_of_ne (h : s.state ≠ .busy) : s.notBusy = true := by simp [State.notBusy, h]

theorem decide_done_of_busy (h : s.state = .busy) : decide (s.state = .done) = false := by simp [h]

/-! ### Writes of `CTRL` (rules R100, R270, R273) -/

theorem start_of_busy (h : s.state = .busy) (op : Bool) : s.start op = s := if_pos h

theorem hostSetOp_of_busy (h : s.state = .busy) (v : Word32) : hostSetOp s v = s := if_pos h

theorem hostSetOp_of_not_busy (h : s.state ≠ .busy) (v : Word32) : hostSetOp s v = { s with ctrlOp := v.getLsbD 1 } := if_neg h

theorem hostMove_writeCtrl_of_no_start {v : Word32} (s : State) (h : v.getLsbD 0 = false) :
    hostMove (.writeCtrl v) s = .ended (.next (hostSetOp s v)) := by
  have hd : decodeCtrl v = .error .startsNothing := if_neg (ne_true_of_eq_false h)
  simp [hostMove, hd]

/-- Whether or not the word is a command (rule R273). -/
theorem step_of_due_writeCtrl_busy {v : Word32} (h : s.host = e :: rest) (hd : e.due s = true) (hm : e.move = .writeCtrl v)
    (hbusy : s.state = .busy) : step s = .next { s with host := rest } := by
  have hbusy' : { s with host := rest }.state = .busy := hbusy
  rw [step_of_due h hd, hm]
  obtain hmove | hmove | hmove := hostMove_writeCtrl_cases { s with host := rest } v <;> rw [hmove]
  · exact congrArg Host.Outcome.next (start_of_busy hbusy' false)
  · exact congrArg Host.Outcome.next (start_of_busy hbusy' true)
  · exact congrArg Host.Outcome.next (hostSetOp_of_busy hbusy' v)

/-! ### Reads of `STATUS` (rule R272) -/

theorem phaseSeen_of_not_busy (h : s.state ≠ .busy) : s.phaseSeen = s.phase := if_neg h

theorem codesDuring_ne_nil (p : PhaseCode) : codesDuring p ≠ [] := by
  unfold codesDuring
  repeat' split
  all_goals exact List.cons_ne_nil _ _

/-- While BUSY a read sees a code of the operation in progress, whichever moment it falls at (log entry 5). -/
theorem phaseSeen_mem_codesDuring (h : s.state = .busy) : s.phaseSeen ∈ codesDuring s.phase := by
  rw [State.phaseSeen, if_pos h]
  split
  · next c hc => rw [hc]; exact List.mem_singleton_self c
  · have hlt := Nat.mod_lt (Config.phaseMoment s.phaseDraws) (List.length_pos_iff.2 (codesDuring_ne_nil s.phase))
    rw [List.getD_eq_getElem _ _ hlt]
    exact List.getElem_mem hlt

/-- By the invariant `OK` and `ERR` read 0 while BUSY. -/
theorem statusWord_toNat_of_busy (hinv : s.Inv) (h : s.state = .busy) (p : PhaseCode) :
    (s.statusWord p).toNat = 1 + 256 * p.toNat := by
  obtain ⟨hok, herr⟩ := hinv.clearWhileRunning (by rw [h]; nofun)
  rw [statusWord_toNat, h, hok, herr]
  rfl

theorem hostReadStatus_of_busy (h : s.state = .busy) : hostReadStatus s =
    { s with replies := .status (s.statusWord s.phaseSeen) :: s.replies, phaseDraws := s.phaseDraws + 1 } := if_pos h

theorem hostReadStatus_of_not_busy (h : s.state ≠ .busy) : hostReadStatus s = s.reply (.status (s.statusWord s.phase)) := by
  rw [← phaseSeen_of_not_busy h]
  exact if_neg h

/-! ### Accesses to IN and OUT (rule R270) -/

theorem hostWriteIn_of_holds {a : Nat} {bs : List Byte} (h : s.cfg.inHolds (a + bs.length) = true) :
    hostWriteIn s a bs = .next { s with inBuf := Memory.writeBytes s.inBuf a bs } := if_pos h

theorem hostReadIn_of_holds {a n : Nat} (h : s.cfg.inHolds (a + n) = true) :
    hostReadIn s a n = .next (s.reply (.inBytes a (s.readInBytes a n))) := if_pos h

theorem hostReadOut_of_holds {a n : Nat} (h : s.cfg.outHolds (a + n) = true) :
    hostReadOut s a n = .next (s.reply (.outBytes a (s.readOutBytes a n))) := if_pos h

theorem readIn_writeBytes_inside (s : State) (a : Nat) (bs : List Byte) {j : Nat} (h : j < bs.length) :
    ({ s with inBuf := Memory.writeBytes s.inBuf a bs } : State).readIn (a + j) = bs[j] := by
  rw [State.readIn, read?_writeBytes_inside _ _ _ h, Option.getD_some]

theorem readIn_writeBytes_outside (s : State) {a x : Nat} (bs : List Byte) (h : x < a ∨ a + bs.length ≤ x) :
    ({ s with inBuf := Memory.writeBytes s.inBuf a bs } : State).readIn x = s.readIn x := by
  rw [State.readIn, read?_writeBytes_outside _ _ h]
  rfl

end

/-! ### What a move can change -/

/-- Outside IN, `IN_LEN`, `CTRL.OP`, the replies and the counter of log entry 5 nothing has changed: no part of the result has. -/
def HostMoveFrame (s t : State) : Prop :=
  t = { s with inBuf := t.inBuf, inLen := t.inLen, ctrlOp := t.ctrlOp, phaseDraws := t.phaseDraws, replies := t.replies }

section
variable {s t : State}

theorem hostSetOp_frame (s : State) (v : Word32) : HostMoveFrame s (hostSetOp s v) := by
  unfold hostSetOp
  split <;> rfl

theorem hostReadStatus_frame (s : State) : HostMoveFrame s (hostReadStatus s) := by
  by_cases h : s.state = .busy
  · rw [hostReadStatus_of_busy h]; rfl
  · rw [hostReadStatus_of_not_busy h]; rfl

theorem hostWriteIn_frame {a : Nat} {bs : List Byte} (h : hostWriteIn s a bs = .next t) : HostMoveFrame s t := by
  unfold hostWriteIn at h
  split at h <;> cases h
  rfl

theorem hostReadIn_frame {a n : Nat} (h : hostReadIn s a n = .next t) : HostMoveFrame s t := by
  unfold hostReadIn at h
  split at h <;> cases h
  rfl

theorem hostReadOut_frame {a n : Nat} (h : hostReadOut s a n = .next t) : HostMoveFrame s t := by
  unfold hostReadOut at h
  split at h <;> cases h
  rfl

theorem hostCopyOutToIn_frame (h : hostCopyOutToIn s = .next t) : HostMoveFrame s t := by
  unfold hostCopyOutToIn at h
  split at h
  · split at h <;> cases h
    rfl
  · cases h

/-- A move that is neither performed as a command nor a reset. -/
theorem hostMove_frame {m : HostMove} (hreset : m ≠ .reset) (h : hostMove m s = .ended (.next t)) : HostMoveFrame s t := by
  cases m with
  | writeCtrl v =>
    obtain e | e | e := hostMove_writeCtrl_cases s v <;> cases e.symm.trans h
    exact hostSetOp_frame s v
  | writeIn a bs => exact hostWriteIn_frame (guarded_eq_next.1 (Turn.ended.inj h)).2
  | readIn a n => exact hostReadIn_frame (guarded_eq_next.1 (Turn.ended.inj h)).2
  | readOut a n => exact hostReadOut_frame (guarded_eq_next.1 (Turn.ended.inj h)).2
  | copyOutToIn => exact hostCopyOutToIn_frame (guarded_eq_next.1 (Turn.ended.inj h)).2
  | readStatus => cases h; exact hostReadStatus_frame s
  | writeStatus v => cases h; rfl
  | writeOutLen v => cases h; rfl
  | reset => exact absurd rfl hreset
  | writeInLen v | readCtrl | readInLen | readOutLen => cases (guarded_eq_next.1 (Turn.ended.inj h)).2; rfl

/-- Only a START is performed as an instruction. -/
theorem hostMove_ended_of_no_start {m : HostMove} (s : State) (h : ∀ v, m = .writeCtrl v → v.getLsbD 0 = false) :
    ∃ o, hostMove m s = .ended o := by
  cases m with
  | writeCtrl v => exact ⟨_, hostMove_writeCtrl_of_no_start s (h v rfl)⟩
  | _ => exact ⟨_, rfl⟩

/-- In DONE a turn is the engine's, which does nothing, or a move of the host. -/
theorem step_frame_of_done (hdone : s.state = .done)
    (hmoves : ∀ e ∈ s.host.head?, e.due s = true → e.move ≠ .reset ∧ ∀ v, e.move = .writeCtrl v → v.getLsbD 0 = false)
    (hstep : step s = .next t) : ∃ host, HostMoveFrame { s with host := host } t := by
  obtain ⟨host, hturn⟩ | ⟨e, rest, hhost, hdue, -⟩ := step_cases s
  · have hrest : { s with host := host }.state ≠ .busy := by rw [hdone]; nofun
    rw [hturn, fetch_of_done hdone, restDoesNothing.2.1 _ hrest] at hstep
    cases hstep
    exact ⟨host, rfl⟩
  · obtain ⟨hreset, hstart⟩ := hmoves e (by rw [hhost]; rfl) hdue
    obtain ⟨o, hmove⟩ := hostMove_ended_of_no_start { s with host := rest } hstart
    rw [step_of_due_ended hhost hdue rfl hmove] at hstep
    rw [hstep] at hmove
    exact ⟨rest, hostMove_frame hreset hmove⟩

end

/-! ### At reset -/

theorem step_reset : step State.reset = .next State.reset := by
  rw [step_of_no_host rfl, fetch_of_idle rfl]
  rfl

/-! ### The obligations -/

/-- Settles O16: nothing of the result is among what a step from DONE can change (`step_frame_of_done`). -/
theorem resultStaysReadable : Obligations.ResultStaysReadable := by
  intro s t hdone hmoves hstep
  obtain ⟨host, hframe⟩ := step_frame_of_done hdone hmoves hstep
  rw [hframe]
  exact ⟨hdone, rfl, rfl, rfl, fun _ _ => rfl⟩

/-- Settles O4: with no host move IDLE's turn leaves the reset state as it is, so every run from it does. -/
theorem resetLeavesIdle : Obligations.ResetLeavesIdle := by
  refine ⟨rfl, rfl, rfl, rfl, rfl, rfl, rfl, rfl, rfl, fun n => ?_⟩
  induction n with
  | zero => rfl
  | succ n ih => exact (run_succ_of_next step_reset).trans ih

/-- Settles O9: while BUSY neither a START nor a write of `CTRL.OP` does anything; the other two writes do nothing in any state. -/
theorem ignoredHostWrites : Obligations.IgnoredHostWrites := fun _ _ _ hhost hdue =>
  ⟨fun _ hbusy hm => step_of_due_writeCtrl_busy hhost hdue hm hbusy,
    fun _ hm => step_of_due_ended hhost hdue hm rfl,
    fun _ hm => step_of_due_ended hhost hdue hm rfl⟩

/-- Settles O10: the word is no command, and the write sets `CTRL.OP`. -/
theorem ctrlWithoutStartSetsOp : Obligations.CtrlWithoutStartSetsOp := by
  intro s e rest v hrest hstart hhost hdue hm
  rw [step_of_due_ended hhost hdue hm (hostMove_writeCtrl_of_no_start _ hstart), hostSetOp_of_not_busy (s := { s with host := rest }) hrest]

/-- Settles O12: the code read is one of the operation's (`phaseSeen_mem_codesDuring`), and the other fields are the invariant's. -/
theorem statusReadInEveryState : Obligations.StatusReadInEveryState := by
  intro s e rest hhost hdue hm
  rw [step_of_due_ended hhost hdue hm rfl]
  refine ⟨fun hinv hbusy => ?_, fun hrest => ?_⟩
  · rw [hostReadStatus_of_busy (s := { s with host := rest }) hbusy]
    exact ⟨_, s.phaseSeen, _, rfl, phaseSeen_mem_codesDuring hbusy, statusWord_toNat_of_busy hinv hbusy _, rfl⟩
  · rw [hostReadStatus_of_not_busy (s := { s with host := rest }) hrest]
    rfl

/-- Settles O13: each of these moves is allowed in IDLE and DONE only, or in DONE only. -/
theorem noHostAccessWhileBusy : Obligations.NoHostAccessWhileBusy := by
  intro s e rest hbusy hhost hdue hmove
  have hnot := notBusy_of_busy hbusy
  have hdone := decide_done_of_busy hbusy
  obtain ⟨a, bs, hm⟩ | ⟨v, hm⟩ | hm | hm | hm | ⟨a, n, hm⟩ | ⟨a, n, hm⟩ | hm := hmove
  · exact step_of_due_forbidden hhost hdue hm rfl hnot
  · exact step_of_due_forbidden hhost hdue hm rfl hnot
  · exact step_of_due_forbidden hhost hdue hm rfl hnot
  · exact step_of_due_forbidden hhost hdue hm rfl hnot
  · exact step_of_due_forbidden hhost hdue hm rfl hdone
  · exact step_of_due_forbidden hhost hdue hm rfl hnot
  · exact step_of_due_forbidden hhost hdue hm rfl hdone
  · exact step_of_due_forbidden hhost hdue hm rfl hdone

/-- Settles O14: both writes are allowed with no run in progress; a written byte is read back, and the others stay. -/
theorem hostLoadsInput : Obligations.HostLoadsInput := by
  intro s e rest hrest hhost hdue
  have hnot := notBusy_of_ne hrest
  refine ⟨fun a bs hm hholds => ?_, fun v hm => step_of_due_allowed hhost hdue hm rfl hnot⟩
  exact ⟨_, (step_of_due_allowed hhost hdue hm rfl hnot).trans (hostWriteIn_of_holds hholds), rfl,
    fun _ hj => readIn_writeBytes_inside _ a bs hj, fun _ hx => readIn_writeBytes_outside _ bs hx⟩

/-- Settles O15: each read is allowed in the state it names, and a sequence read holds the byte of every address. -/
theorem hostReadsReturnStored : Obligations.HostReadsReturnStored := by
  intro s e rest hhost hdue
  refine ⟨?ctrl, ?inLen, ?inBytes, ?outLen, ?outBytes⟩
  case ctrl => exact fun hrest hm => step_of_due_allowed hhost hdue hm rfl (notBusy_of_ne hrest)
  case inLen => exact fun hrest hm => step_of_due_allowed hhost hdue hm rfl (notBusy_of_ne hrest)
  case inBytes =>
    intro a n hrest hm hholds
    exact ⟨_, (step_of_due_allowed hhost hdue hm rfl (notBusy_of_ne hrest)).trans (hostReadIn_of_holds hholds),
      length_readInBytes _ a n, getElem_readInBytes _ a n⟩
  case outLen => exact fun hdone hm => step_of_due_allowed hhost hdue hm rfl (decide_eq_true hdone)
  case outBytes =>
    intro a n hdone hm hholds
    exact ⟨_, (step_of_due_allowed hhost hdue hm rfl (decide_eq_true hdone)).trans (hostReadOut_of_holds hholds),
      length_readOutBytes _ a n, getElem_readOutBytes _ a n⟩

/-- Settles O17: the move ends the turn in `hostReset`, whatever the state. -/
theorem resetMoveAbandonsRun : Obligations.ResetMoveAbandonsRun := fun _ _ _ hhost hdue hm =>
  ⟨_, step_of_due_ended hhost hdue hm rfl, rfl, rfl, rfl, rfl, rfl, rfl, rfl, rfl, rfl, rfl⟩

end Sys2Proof.Machine
end
